-- ==== Sys2Proof/Word.lean ====
section
/-! DEFINITION. The words of the EERAM Adapter: the widths the spec gives its values (spec/00_scope.md R6,
spec/10_state.md R21 to R26, spec/20_memory.md R50, R57). -/

namespace Sys2Proof

/-- A data byte, a status byte, a register address or a command byte. -/
abbrev Byte := BitVec 8

/-- A 16-bit offset into the chip's array (R51). -/
abbrev Addr := BitVec 16

/-- A 7-bit device address on the bus (R50). -/
abbrev DevAddr := BitVec 7

/-- The bus-handle selector of `BUS_BITS` = 16 bits (R6, R23). -/
abbrev BusId := BitVec 16

/-- The host command word of `CW_BITS` = 32 bits (R6, R90). -/
abbrev CmdWord := BitVec 32

/-- The opcode field `CW[31:28]` (R91). -/
abbrev Opcode := BitVec 4

end Sys2Proof
end

