-- ==== Sys2Proof/Syntax.lean ====
section
/-! DEFINITION. The commands of the EERAM Adapter, one constructor per row of spec/opcode_table.json
(spec/30_encoding.md R92, R94). The operands are the fields the row uses (R91, R110): every bit pattern of an
operand field is legal, so each operand has the type of its field. -/

namespace Sys2Proof

/-- A host command. -/
inductive Instr where
  /-- BIND bus, pin1, pin2 (R131). -/
  | bind (bus : BusId) (pin1 pin2 : Bool)
  /-- BIND_DEFAULT (R132). -/
  | bindDefault
  /-- READ addr (R150). -/
  | read (addr : Addr)
  /-- WRITE addr, data (R152). -/
  | write (addr : Addr) (data : Byte)
  /-- GETSTATUS (R170). -/
  | getStatus
  /-- STORE (R174). -/
  | store
  /-- RECALL (R176). -/
  | recallArray
  /-- IS_EVENT (R200). -/
  | isEvent
  /-- IS_AUTOSTORE (R201). -/
  | isAutostore
  /-- IS_WRPROT (R202). -/
  | isWrprot
  /-- IS_MODIFIED (R203). -/
  | isModified
  /-- SET_AUTOSTORE en (R205). -/
  | setAutostore (en : Bool)
  /-- Reserved opcode 0xC (R94). -/
  | reservedC
  /-- Reserved opcode 0xD (R94). -/
  | reservedD
  /-- Reserved opcode 0xE (R94). -/
  | reservedE
  /-- Reserved opcode 0xF (R94). -/
  | reservedF
deriving DecidableEq, Repr

/-- The opcode of a command (R92, R94). -/
def Instr.opcode : Instr → Opcode
  | .bind _ _ _ => 0x0
  | .bindDefault => 0x1
  | .read _ => 0x2
  | .write _ _ => 0x3
  | .getStatus => 0x4
  | .store => 0x5
  | .recallArray => 0x6
  | .isEvent => 0x7
  | .isAutostore => 0x8
  | .isWrprot => 0x9
  | .isModified => 0xA
  | .setAutostore _ => 0xB
  | .reservedC => 0xC
  | .reservedD => 0xD
  | .reservedE => 0xE
  | .reservedF => 0xF

/-- The two bind commands, the only ones valid before a bind (R24, R34). -/
def Instr.isBind : Instr → Bool
  | .bind _ _ _ => true
  | .bindDefault => true
  | .read _ => false
  | .write _ _ => false
  | .getStatus => false
  | .store => false
  | .recallArray => false
  | .isEvent => false
  | .isAutostore => false
  | .isWrprot => false
  | .isModified => false
  | .setAutostore _ => false
  | .reservedC => false
  | .reservedD => false
  | .reservedE => false
  | .reservedF => false

/-- The four reserved opcodes (R94). -/
def Instr.isReserved : Instr → Bool
  | .bind _ _ _ => false
  | .bindDefault => false
  | .read _ => false
  | .write _ _ => false
  | .getStatus => false
  | .store => false
  | .recallArray => false
  | .isEvent => false
  | .isAutostore => false
  | .isWrprot => false
  | .isModified => false
  | .setAutostore _ => false
  | .reservedC => true
  | .reservedD => true
  | .reservedE => true
  | .reservedF => true

end Sys2Proof
end

