-- ==== Sys2Proof/WellFormed.lean ====
section
/-! DEFINITION. Well-formedness of a command (spec/30_encoding.md R110): the command word is 32 bits, and a
defined command has an opcode in 0x0 to 0xB. Every operand value is legal, so there is no operand check. A word
with a reserved opcode is not a defined command, but the block still accepts it and answers it (R94). -/

namespace Sys2Proof

/-- R110: `CW` is 32 bits, so a table word is a word of 32 bits. -/
def wordWellFormed (nbits w : Nat) : Bool :=
  nbits == 32 && decide (w < 2 ^ 32)

/-- R110: `op` is in 0x0 to 0xB for a defined command. -/
def wellFormed (i : Instr) : Bool :=
  decide (i.opcode ≤ 0xB#4)

end Sys2Proof
end

