-- ==== Sys2Proof/Decode.lean ====
section
/-! DEFINITION. The decoder and the encoder of the host command word (spec/30_encoding.md R90 to R94, R107, R108,
R112). The command word arrives whole on the 32 lines of the command port (spec/44_sequencer.md R242): there is no
instruction memory, so a word has no byte order. -/

namespace Sys2Proof

/-- The fields of a command word as the block latches them (R91). `addr` and `bus` are the same bits, and `en` is
bit 0 of `data`. -/
structure Fields where
  op : Opcode
  pin2 : Bool
  pin1 : Bool
  addr : Addr
  bus : BusId
  data : Byte
  en : Bool
deriving DecidableEq, Repr

/-- The field positions of R91. Bits 27:26 are read by nothing. -/
def fields (cw : CmdWord) : Fields :=
  { op := cw.extractLsb' 28 4
    pin2 := cw.getLsbD 25
    pin1 := cw.getLsbD 24
    addr := cw.extractLsb' 8 16
    bus := cw.extractLsb' 8 16
    data := cw.extractLsb' 0 8
    en := cw.getLsbD 0 }

/-- The command that latched fields stand for: the opcode alone selects it (R92), fields it does not use are
ignored (R93), and the last four opcodes are reserved (R94). -/
def ofFields (f : Fields) : Instr :=
  match f.op.toNat with
  | 0x0 => .bind f.bus f.pin1 f.pin2
  | 0x1 => .bindDefault
  | 0x2 => .read f.addr
  | 0x3 => .write f.addr f.data
  | 0x4 => .getStatus
  | 0x5 => .store
  | 0x6 => .recallArray
  | 0x7 => .isEvent
  | 0x8 => .isAutostore
  | 0x9 => .isWrprot
  | 0xA => .isModified
  | 0xB => .setAutostore f.en
  | 0xC => .reservedC
  | 0xD => .reservedD
  | 0xE => .reservedE
  | _ => .reservedF

/-- The decoder. It is total: there is no word it refuses (R112). -/
def decode (cw : CmdWord) : Instr := ofFields (fields cw)

/-- Why a bit string is no command word. -/
inductive DecodeError where
  /-- It is not 32 bits long (R90, R107). -/
  | wrongLength
  /-- Its value does not fit in its 32 bits. -/
  | valueTooLarge
deriving DecidableEq, Repr

/-- The decoder on any bit string: `nbits` bits of value `w`. -/
def decodeBits (nbits w : Nat) : Except DecodeError Instr :=
  if nbits ≠ 32 then .error .wrongLength
  else if 2 ^ 32 ≤ w then .error .valueTooLarge
  else .ok (decode (BitVec.ofNat 32 w))

/-- The instruction the decoder reads from a row's word of `nbits` bits numbered as spec/opcode_table.json numbers
them. A row may give fewer bits than the word has: the bits above `nbits` are 0. -/
def decodeTableWord (nbits w : Nat) : Option Instr :=
  if nbits ≤ 32 then
    match decodeBits 32 (w % 2 ^ nbits) with
    | .ok i => some i
    | .error _ => none
  else none

/-- A command word from its fields; the reserved bits 27:26 are zero (R91, R108). -/
def assemble (op : Opcode) (pin2 pin1 : Bool) (mid : BitVec 16) (low : Byte) : CmdWord :=
  op ++ 0#2 ++ BitVec.ofBool pin2 ++ BitVec.ofBool pin1 ++ mid ++ low

/-- The canonical encoding: every unused field is zero (R108). -/
def encode : Instr → CmdWord
  | .bind bus pin1 pin2 => assemble 0x0 pin2 pin1 bus 0
  | .bindDefault => assemble 0x1 false false 0 0
  | .read addr => assemble 0x2 false false addr 0
  | .write addr data => assemble 0x3 false false addr data
  | .getStatus => assemble 0x4 false false 0 0
  | .store => assemble 0x5 false false 0 0
  | .recallArray => assemble 0x6 false false 0 0
  | .isEvent => assemble 0x7 false false 0 0
  | .isAutostore => assemble 0x8 false false 0 0
  | .isWrprot => assemble 0x9 false false 0 0
  | .isModified => assemble 0xA false false 0 0
  | .setAutostore en => assemble 0xB false false 0 (if en then 1 else 0)
  | .reservedC => assemble 0xC false false 0 0
  | .reservedD => assemble 0xD false false 0 0
  | .reservedE => assemble 0xE false false 0 0
  | .reservedF => assemble 0xF false false 0 0

end Sys2Proof
end

