-- ==== Sys2Proof/Machine/EnvTypes.lean ====
section
/-! DEFINITION. What the environment of the block is, as plain data: the transport, the chip behind it and the
clock (spec/10_state.md R33, spec/20_memory.md R55 to R64, R75, R76). The block is specified against any environment
that answers its primitive calls. Two kinds of environment are held: the spec's own reference environment ENV0 with
its variants, and a list of arbitrary answers, which stands for any environment whatever. -/

namespace Sys2Proof.Machine

open Sys2Proof

/-- The contents of a byte array: the listed cells, in the canonical form `Memory.wf`. -/
abbrev Memory := List Host.Cell

/-- The variants of ENV0 (R76). ENV0-ABSENT is `plain` with device addresses no bind can produce. -/
inductive Variant where
  /-- ENV0 itself. -/
  | plain
  /-- ENV0-ST(k): every `T.end` returns `k` and has no other effect. -/
  | failing (k : Byte)
  /-- ENV0-MUTE: `T.request` only empties the receive queue. -/
  | mute
  /-- ENV0-LATE(d): the first `d` polls after each request find no byte. -/
  | late (d : Nat)
  /-- DESIGN CHOICE (log 19), safe: the case (a) of spec/70_reset_and_hazards.md R311, every `T.end` returns `k`
  although the chip takes the frame. -/
  | takenButFailing (k : Byte)
deriving DecidableEq, Repr

/-- The reference environment (R75): its state, its two strapping constants and its variant. `command` (log 15),
`cap`, whose range
`1 <= CAP <= 65536` is part of the invariant `StateInv` (log 12) and `busyUntil` (log 11) are the model's additions, from R30, R6 and R311. -/
structure RefEnv where
  sram : Memory
  ee : Memory
  status : Byte
  command : Byte
  ptr : Addr
  txdev : DevAddr
  txbuf : List Byte
  rxq : List Byte
  time : Nat
  memDev : DevAddr
  regDev : DevAddr
  variant : Variant
  late : Nat
  cap : Nat
  busyUntil : Nat
deriving DecidableEq, Repr

/-- One answer of an arbitrary environment: the time that passes until the call returns (beyond what the call itself
asks for), and the value the call returns, under each of the types a primitive can return. -/
structure Answer where
  dt : Nat
  status : Byte
  count : Nat
  byte : Byte
deriving DecidableEq, Repr

/-- An arbitrary environment: the answers to the coming calls, one a call, and its clock. A call that finds no answer
left never returns (log 5). -/
structure ScriptEnv where
  answers : List Answer
  time : Nat
deriving DecidableEq, Repr

/-- The environment of the block. -/
inductive Env where
  /-- The reference environment or a variant of it. -/
  | ref (e : RefEnv)
  /-- Any environment at all, given by its answers. -/
  | scripted (e : ScriptEnv)
deriving DecidableEq, Repr

end Sys2Proof.Machine
end

