-- ==== Sys2Proof/Config.lean ====
section
/-! DEFINITION. The parameters of the block as a configuration record whose defaults are the spec's values
(spec/00_scope.md R5, R6; spec/92_eei_decisions.md D26), and the free values: constants without a body, about which
nothing can be proved. A free value that is applied to an environment is a fixed function of its state, with no draw of its
own: DESIGN CHOICE (logs 10, 11, 12, 16), unsafe. -/

namespace Sys2Proof

/-- The named parameters of R5 and the ones of R6 the rules use. -/
structure Config where
  baseMem : DevAddr := 0x50
  baseReg : DevAddr := 0x18
  pin1Shift : Nat := 1
  pin2Shift : Nat := 2
  regStatus : Byte := 0x00
  regCommand : Byte := 0x55
  cmdStore : Byte := 0x33
  cmdRecall : Byte := 0xDD
  stEvent : Byte := 0x01
  stAse : Byte := 0x02
  stWp : Byte := 0x1C
  stRsvd : Byte := 0x60
  stAm : Byte := 0x80
  tSettle : Nat := 1
  tStore : Nat := 25
  tRecall : Nat := 5
  tTimeout : Nat := 3000
  defaultBus : BusId := 0
  timeBits : Nat := 32
deriving DecidableEq, Repr

/-- The configuration of this hardware: every parameter at the source's value. -/
def cfg : Config := {}

/-- Free value (log 8): the content of `rsp_data` where no byte is defined, by draw (R95). -/
opaque Config.freeByte : Nat → Byte

/-- Free value (log 9): a one-bit register after the reset input (R34, R300). -/
opaque Config.freeBit : Nat → Bool

/-- Free value (log 9): a device address register after the reset input. -/
opaque Config.freeDev : Nat → DevAddr

/-- Free value (log 9): a 16-bit register after the reset input. -/
opaque Config.freeHalf : Nat → BitVec 16

/-- Free value (log 9): the opcode latch after the reset input. -/
opaque Config.freeOp : Nat → Opcode

/-- Free value (log 9): the poll's start time after the reset input. -/
opaque Config.freeTime : Nat → Nat

/-- Free value (logs 10, 11, 12): the answers of an environment whose behaviour from here on is unknown. -/
opaque Config.anyAnswers : Machine.Env → List Machine.Answer

/-- Free value (log 11): the completion status of the frame that re-issues STORE or RECALL while one is running. -/
opaque Config.reissueStatus : Machine.RefEnv → Byte

/-- Free value (log 12): the byte that a read at or above the chip's capacity makes ready, if any. DESIGN CHOICE, unsafe:
a fixed function of the environment's state, with no draw, so that equal states give equal bytes. -/
opaque Config.byteBeyondCap : Machine.RefEnv → Option Byte

/-- Free value (log 12): the completion status of an array frame at or above the chip's capacity. DESIGN CHOICE, unsafe:
a fixed function of the environment's state, with no draw, so that equal states give equal statuses. -/
opaque Config.statusBeyondCap : Machine.RefEnv → Byte

/-- Free value (log 16): what `T.read()` returns when no byte is ready (R60). -/
opaque Config.emptyRead : Machine.RefEnv → Byte

end Sys2Proof
end

