-- ==== Sys2Proof/Machine/State.lean ====
section
/-! DEFINITION. The state of the machine: the registers of the block (spec/10_state.md R20 to R27), the environment
that answers its calls (R33), the samples of its input ports (spec/44_sequencer.md R242), and the model's own call
log and draw counter. -/

namespace Sys2Proof.Machine

open Sys2Proof

/-- The diagnostic cause codes (spec/60_exceptions.md R262). Code 7 is never produced (U16). -/
inductive Cause where
  | none
  | txTooLong
  | addrNack
  | dataNack
  | txOther
  | rspTimeout
  | illegalCmd
deriving DecidableEq, Repr

/-- The value on the three `rsp_cause` lines (R262). -/
def Cause.code : Cause → BitVec 3
  | .none => 0
  | .txTooLong => 1
  | .addrNack => 2
  | .dataNack => 3
  | .txOther => 4
  | .rspTimeout => 5
  | .illegalCmd => 6

/-- The sixteen values of the sequencer register `phase` (spec/44_sequencer.md R220). -/
inductive Phase where
  | idle
  | bindWr
  | tInit
  | txBegin
  | txB0
  | txB1
  | txB2
  | txEnd
  | settle
  | cmdWait
  | rxReq
  | rxPoll
  | rxTime
  | rxRead
  | modify
  | done
deriving DecidableEq, Repr

/-- A primitive call on the transport and timing port with its arguments and the value it returned (R243). -/
inductive Call where
  | init
  | begin (dev : DevAddr)
  | write (b : Byte)
  | endFrame (stop : Bool) (status : Byte)
  | request (dev : DevAddr) (n : Nat)
  | available (count : Nat)
  | read (b : Byte)
  | now (t : Nat)
  | delay (n : Nat)
deriving DecidableEq, Repr

/-- A call and the selector that was on the port with it (R243). -/
structure Event where
  bus : BusId
  call : Call
deriving DecidableEq, Repr

/-- One sample of the block's input signals (R242). -/
structure HostIn where
  reset : Bool
  cmdValid : Bool
  cmdWord : CmdWord
  rspReady : Bool
deriving DecidableEq, Repr

/-- The sample of a host that does nothing. -/
def HostIn.quiet : HostIn :=
  { reset := false, cmdValid := false, cmdWord := 0, rspReady := false }

/-- The state of the machine. -/
structure State where
  /-- `mem_addr` (R21). -/
  memAddr : DevAddr
  /-- `reg_addr` (R22). -/
  regAddr : DevAddr
  /-- `bus`, the bus handle (R23). -/
  bus : BusId
  /-- `bound` (R24). -/
  bound : Bool
  /-- `phase`, the sequencer register (R27, R220). -/
  phase : Phase
  /-- Command latch `op` (R25). -/
  op : Opcode
  /-- Command latch `c_addr` (R25). -/
  cAddr : Addr
  /-- Command latch `c_data` (R25). -/
  cData : Byte
  /-- Command latch `c_pin1` (R25). -/
  cPin1 : Bool
  /-- Command latch `c_pin2` (R25). -/
  cPin2 : Bool
  /-- Command latch `c_en` (R25). -/
  cEn : Bool
  /-- Command latch `c_bus` (R25). -/
  cBus : BusId
  /-- Working register `st`, the last completion status (R26). -/
  st : Byte
  /-- Working register `sbyte`, the last byte read (R26, R227). -/
  sbyte : Byte
  /-- Working register `t0`, the start of the current poll (R26). -/
  t0 : Nat
  /-- Working register `w_reg` (R26). -/
  wReg : Byte
  /-- Working register `w_val` (R26). -/
  wVal : Byte
  /-- Working register `w_ok` (R26). -/
  wOk : Bool
  /-- Response register `rsp_ok` (R26, R28). -/
  rspOk : Bool
  /-- Response register `rsp_data` (R26, R95). -/
  rspData : Byte
  /-- Response register `rsp_cause` (R26, R262). -/
  rspCause : Cause
  /-- The environment: transport, chip and clock (R33). -/
  env : Env
  /-- The selectors that name no transport (spec/93_implementation_defined.md U3, log 18). -/
  deadBuses : List BusId
  /-- The coming samples of the input ports, the next one first (R242, log 2). -/
  host : List HostIn
  /-- The model's own: the calls issued so far, newest first (log 20). -/
  log : List Event
  /-- The model's own: how many free values have been drawn (log 8). -/
  draws : Nat
deriving DecidableEq, Repr

/-- Why the machine stops. -/
inductive Fault where
  /-- A transport primitive or `Delay` never returns, so the command never ends (spec/70_reset_and_hazards.md R316,
  spec/93_implementation_defined.md U13): raised by a command's meaning. Safe: `tick` shows the block waiting in the
  phase, from which only reset recovers it. -/
  | primitiveNeverReturns
  /-- The sequencer is in a phase that is on no path of the latched command (spec/44_sequencer.md R227), so no rule
  gives its next phase: raised by the sequencer, in states no run reaches (log 23). Safe. -/
  | offPath
deriving DecidableEq, Repr

/-- Why the machine gives an instruction no meaning. -/
inductive Refusal where
  /-- The instruction has no meaning in this model: no arm uses it. Safe. -/
  | notModelled (mnemonic : String)
  /-- A command other than a bind or a reserved opcode while `bound` = 0, whose behaviour is undefined
  (spec/44_sequencer.md R222, spec/60_exceptions.md R272, U1): raised at dispatch. Safe. -/
  | unbound
  /-- A bind to a selector that names no transport (spec/30_encoding.md R110, U3): raised at dispatch. Safe. -/
  | noTransport
deriving DecidableEq, Repr

/-- ENV0 with default strapping and everything in the chip at zero: the environment of `State.reset`.
DESIGN CHOICE (logs 4, 13, 14), unsafe: the spec gives the environment no reset. -/
def RefEnv.env0 : RefEnv :=
  { sram := [], ee := [], status := 0, command := 0, ptr := 0, txdev := 0, txbuf := [], rxq := [], time := 0
    memDev := 0x50, regDev := 0x18, variant := .plain, late := 0, cap := 65536, busyUntil := 0 }

/-- The machine right after reset (spec/10_state.md R34): `bound` = 0, `phase` = IDLE, `rsp_cause` = 0. Every other
register has no reset value in the spec and holds zero here: DESIGN CHOICE (log 7), unsafe. -/
def State.reset : State :=
  { memAddr := 0, regAddr := 0, bus := 0, bound := false, phase := .idle
    op := 0, cAddr := 0, cData := 0, cPin1 := false, cPin2 := false, cEn := false, cBus := 0
    st := 0, sbyte := 0, t0 := 0, wReg := 0, wVal := 0, wOk := false
    rspOk := false, rspData := 0, rspCause := .none
    env := .ref RefEnv.env0, deadBuses := [], host := [], log := [], draws := 0 }

/-- The output `cmd_ready`: 1 exactly when `phase` = IDLE (R242). -/
def State.cmdReady (s : State) : Bool := s.phase == .idle

/-- The output `rsp_valid`: 1 exactly when `phase` = DONE (R242). -/
def State.rspValid (s : State) : Bool := s.phase == .done

/-- The calls issued so far, oldest first: the trace of the transport and timing port. -/
def State.trace (s : State) : List Event := s.log.reverse

end Sys2Proof.Machine
end

