-- ==== Sys2Proof/Machine/Transport.lean ====
section
/-! DEFINITION. How the environment answers the primitive calls (spec/20_memory.md R55 to R64): the reference
environment as R75 and R76 define it, and the environment given by its answers. A call returns `none` when it never
returns (spec/93_implementation_defined.md U13). -/

namespace Sys2Proof.Machine

open Sys2Proof

/-! ### The reference environment (R75, R76) -/

/-- The environment after the chip or the transport was left in a state nothing defines: its coming answers are free
values and its clock goes on (logs 10, 11, 12). -/
def Env.unknownFrom (e : Env) (now : Nat) : Env :=
  .scripted { answers := Config.anyAnswers e, time := now }

/-- The chip takes the data bytes of an array frame, from `ptr` on, with status 0 (R75). A byte for an address at or
above the capacity gives a free status and leaves the chip in an unknown state (R314, U4, log 12). -/
def RefEnv.storeRun : List Byte → RefEnv → Byte × Env
  | [], e => (0, .ref e)
  | b :: rest, e =>
    if e.ptr.toNat < e.cap then
      RefEnv.storeRun rest { e with sram := e.sram.write e.ptr.toNat b, ptr := e.ptr + 1 }
    else (Config.statusBeyondCap e, Env.unknownFrom (.ref e) e.time)

/-- The status of a frame that only sets the chip's address: 0 (R75), and a free value for an address at or above the
capacity (R51, R314, log 12). -/
def RefEnv.addressStatus (e : RefEnv) : Byte :=
  if e.ptr.toNat < e.cap then 0 else Config.statusBeyondCap e

/-- An array frame reaches the chip: two address bytes, high byte first, then data (R75). DESIGN CHOICE (log 12), unsafe:
an address frame at or above the capacity sets `ptr` too, whatever its free status. -/
def RefEnv.deliverArray (e : RefEnv) : Byte × Env :=
  match e.txbuf with
  | [hi, lo] => (RefEnv.addressStatus { e with ptr := hi ++ lo }, .ref { e with ptr := hi ++ lo })
  | hi :: lo :: b :: rest => RefEnv.storeRun (b :: rest) { e with ptr := hi ++ lo }
  | _ => (0, .ref e)

/-- The chip runs a store or recall (R75), unless one is still running: then what follows is undefined at the chip
(R178, R311, U2, log 11). -/
def RefEnv.runCommand (e : RefEnv) (done : RefEnv) (duration : Nat) : Byte × Env :=
  if e.time < e.busyUntil then (Config.reissueStatus e, Env.unknownFrom (.ref e) e.time)
  else (0, .ref { done with busyUntil := e.time + duration })

/-- A frame reaches the control registers (R75, R29, R30). -/
def RefEnv.deliverRegister (e : RefEnv) : Byte × Env :=
  match e.txbuf with
  | [r, v] =>
    if r = cfg.regStatus then (0, .ref { e with status := v })
    else if r = cfg.regCommand then
      if v = cfg.cmdStore then
        RefEnv.runCommand e { e with command := v, ee := e.sram } cfg.tStore
      else if v = cfg.cmdRecall then
        RefEnv.runCommand e { e with command := v, sram := e.ee } cfg.tRecall
      else (0, .ref { e with command := v })
    else (0, .ref e)
  | _ => (0, .ref e)

/-- The open frame reaches whichever device answers; none answering is an address NACK (R75). The status of an array
frame is 0 below the capacity only; at or above it R75 does not apply and the status is free (log 12). -/
def RefEnv.deliver (e : RefEnv) : Byte × Env :=
  if e.txdev = e.memDev then e.deliverArray
  else if e.txdev = e.regDev then e.deliverRegister
  else (2, .ref e)

/-- A store or recall is running although the block saw its frame fail (spec/70_reset_and_hazards.md R311 case a): how
the chip answers anything then is in no source (spec/91_not_in_source.md N8). DESIGN CHOICE (log 11): every frame and
every read request then leaves the chip unknown, whatever device it addresses. The environments of R75 and R76 have no
such time. -/
def RefEnv.busyUnseen (e : RefEnv) : Bool :=
  match e.variant with
  | .plain => false
  | .failing _ => false
  | .mute => false
  | .late _ => false
  | .takenButFailing _ => decide (e.time < e.busyUntil)

/-- `T.end` of the reference environment and its variants; the argument `stop` is ignored (R75, R76). -/
def RefEnv.endFrame (e : RefEnv) : Byte × Env :=
  match e.variant with
  | .plain => e.deliver
  | .failing k => (k, .ref e)
  | .mute => e.deliver
  | .late _ => e.deliver
  | .takenButFailing k => (k, if e.busyUnseen then Env.unknownFrom (.ref e) e.time else e.deliver.2)

/-- The array byte a read request gives at `ptr`; at or above the capacity any byte or none (U4, log 12). -/
def RefEnv.arrayByte (e : RefEnv) : Option Byte :=
  if e.ptr.toNat < e.cap then some (e.sram.read e.ptr.toNat) else Config.byteBeyondCap e

/-- A read request of `n` bytes at the array port (R75). DESIGN CHOICE (log 12), unsafe: at or above the capacity `ptr`
goes on by one a byte as below it, also where no byte becomes ready. -/
def RefEnv.queueArray : Nat → RefEnv → RefEnv
  | 0, e => e
  | n + 1, e => RefEnv.queueArray n { e with rxq := e.rxq ++ e.arrayByte.toList, ptr := e.ptr + 1 }

/-- A read request as plain ENV0 treats it: stale bytes are discarded (R75). -/
def RefEnv.queue (a : DevAddr) (n : Nat) (e : RefEnv) : RefEnv :=
  if a = e.memDev then RefEnv.queueArray n { e with rxq := [] }
  else if a = e.regDev then { e with rxq := List.replicate n e.status }
  else { e with rxq := [] }

/-- `T.request` of the reference environment and its variants (R75, R76). -/
def RefEnv.request (a : DevAddr) (n : Nat) (e : RefEnv) : RefEnv :=
  match e.variant with
  | .plain => RefEnv.queue a n e
  | .failing _ => RefEnv.queue a n e
  | .mute => { e with rxq := [] }
  | .late d => RefEnv.queue a n { e with late := d }
  | .takenButFailing _ => RefEnv.queue a n e

/-- `T.available` of plain ENV0: an empty poll takes 1 ms (R75). -/
def RefEnv.poll (e : RefEnv) : Nat × RefEnv :=
  match e.rxq with
  | [] => (0, { e with time := e.time + 1 })
  | b :: rest => ((b :: rest).length, e)

/-- `T.available` of the reference environment and its variants (R75, R76). -/
def RefEnv.available (e : RefEnv) : Nat × RefEnv :=
  match e.variant with
  | .plain => e.poll
  | .failing _ => e.poll
  | .mute => e.poll
  | .late _ => if 0 < e.late then (0, { e with late := e.late - 1, time := e.time + 1 }) else e.poll
  | .takenButFailing _ => e.poll

/-- `T.read` of the reference environment (R75); with no byte ready, a free value (R60, log 16). -/
def RefEnv.takeByte (e : RefEnv) : Byte × RefEnv :=
  match e.rxq with
  | [] => (Config.emptyRead e, e)
  | b :: rest => (b, { e with rxq := rest })

/-! ### Any environment -/

/-- The answer to the next call, with the time it takes; `none` when the call never returns. -/
def ScriptEnv.next (e : ScriptEnv) : Option (Answer × ScriptEnv) :=
  match e.answers with
  | [] => none
  | a :: rest => some (a, { answers := rest, time := e.time + a.dt })

/-! ### The primitives (R55 to R64) -/

/-- The time the timing service would give (R63). -/
def Env.time : Env → Nat
  | .ref e => e.time
  | .scripted e => e.time

/-- `T.init()` (R61); ENV0 does nothing (R75). -/
def Env.init : Env → Option Env
  | .ref e => some (.ref e)
  | .scripted e => e.next.map fun r => .scripted r.2

/-- `T.begin(a)` (R55). -/
def Env.begin (a : DevAddr) : Env → Option Env
  | .ref e => some (.ref { e with txdev := a, txbuf := [] })
  | .scripted e => e.next.map fun r => .scripted r.2

/-- `T.write(b)` (R56). -/
def Env.write (b : Byte) : Env → Option Env
  | .ref e => some (.ref { e with txbuf := e.txbuf ++ [b] })
  | .scripted e => e.next.map fun r => .scripted r.2

/-- `T.end(stop)` with its completion status (R57). -/
def Env.endFrame : Env → Option (Byte × Env)
  | .ref e => some e.endFrame
  | .scripted e => e.next.map fun r => (r.1.status, .scripted r.2)

/-- `T.request(a, n)` (R58). -/
def Env.request (a : DevAddr) (n : Nat) : Env → Option Env
  | .ref e => some (if e.busyUnseen then Env.unknownFrom (.ref e) e.time else .ref (RefEnv.request a n e))
  | .scripted e => e.next.map fun r => .scripted r.2

/-- `T.available()` with its count (R59). -/
def Env.available : Env → Option (Nat × Env)
  | .ref e => some (e.available.1, .ref e.available.2)
  | .scripted e => e.next.map fun r => (r.1.count, .scripted r.2)

/-- `T.read()` with its byte (R60). -/
def Env.takeByte : Env → Option (Byte × Env)
  | .ref e => some (e.takeByte.1, .ref e.takeByte.2)
  | .scripted e => e.next.map fun r => (r.1.byte, .scripted r.2)

/-- `Now()` (R63). -/
def Env.now : Env → Option (Nat × Env)
  | .ref e => some (e.time, .ref e)
  | .scripted e => e.next.map fun r => (r.2.time, .scripted r.2)

/-- `Delay(n)`: at least `n` ms pass (R64). -/
def Env.delay (n : Nat) : Env → Option Env
  | .ref e => some (.ref { e with time := e.time + n })
  | .scripted e => e.next.map fun r => .scripted { r.2 with time := r.2.time + n }

/-- A bound on the polls one wait can make before a byte, the deadline or a call that never returns ends it: each
empty poll of ENV0 takes 1 ms, and each poll uses up an answer of a list of answers (log 22). -/
def Env.pollBound : Env → Nat
  | .ref _ => cfg.tTimeout + 1
  | .scripted e => e.answers.length + 1

end Sys2Proof.Machine
end

