-- ==== Sys2Proof/Machine/Operands.lean ====
section
/-! DEFINITION. The device-address unit, the register address mapper and the assembly of every value that goes on the
bus (spec/40_bind.md R130; spec/30_encoding.md R96, R97, R100 to R105). All of it is combinational (R104). -/

namespace Sys2Proof.Machine

open Sys2Proof

/-- `b2i` at the width of a device address (spec/00_scope.md R7). -/
def pinBit (pin : Bool) : DevAddr := if pin then 1 else 0

/-- `DevAddrs(pin1, pin2)` (R130). DEDUCED (log 26): the document's formula, one pin an address. -/
def devAddrs (pin1 pin2 : Bool) : DevAddr × DevAddr :=
  (cfg.baseMem ||| (pinBit pin1 <<< cfg.pin1Shift), cfg.baseReg ||| (pinBit pin2 <<< cfg.pin2Shift))

/-- The address high byte `c_addr[15:8]` (R105). -/
def addrHigh (a : Addr) : Byte := a.extractLsb' 8 8

/-- The address low byte `c_addr[7:0]` (R105). -/
def addrLow (a : Addr) : Byte := a.extractLsb' 0 8

/-- The logical registers of the chip (R100). -/
inductive LogicalReg where
  | status
  | command
deriving DecidableEq, Repr

/-- The logical chip commands (R101). -/
inductive ChipCommand where
  | store
  | recallArray
deriving DecidableEq, Repr

/-- The register address of a logical register (R100). -/
def regAddress : LogicalReg → Byte
  | .status => cfg.regStatus
  | .command => cfg.regCommand

/-- The register address mapper: device address and register address of a logical register (R100). -/
def mapReg (r : LogicalReg) (s : State) : DevAddr × Byte := (s.regAddr, regAddress r)

/-- The command mapper: the byte written to the COMMAND register (R101). -/
def commandByte : ChipCommand → Byte
  | .store => cfg.cmdStore
  | .recallArray => cfg.cmdRecall

/-- The completion delay of a chip command (spec/42_register_access.md R174, R176). -/
def commandDelay : ChipCommand → Nat
  | .store => cfg.tStore
  | .recallArray => cfg.tRecall

/-- The device mapper: the device address of a command's frames and of its read requests, where it has them
(R102). -/
def deviceMap : Instr → State → Option DevAddr × Option DevAddr
  | .bind _ _ _, s => (none, some s.regAddr)
  | .bindDefault, s => (none, some s.regAddr)
  | .read _, s => (some s.memAddr, some s.memAddr)
  | .write _ _, s => (some s.memAddr, none)
  | .getStatus, s => (none, some s.regAddr)
  | .store, s => (some s.regAddr, none)
  | .recallArray, s => (some s.regAddr, none)
  | .isEvent, s => (none, some s.regAddr)
  | .isAutostore, s => (none, some s.regAddr)
  | .isWrprot, s => (none, some s.regAddr)
  | .isModified, s => (none, some s.regAddr)
  | .setAutostore _, s => (some s.regAddr, some s.regAddr)
  | .reservedC, _ => (none, none)
  | .reservedD, _ => (none, none)
  | .reservedE, _ => (none, none)
  | .reservedF, _ => (none, none)

/-- The contents of a write frame (R96). -/
structure Frame where
  dev : DevAddr
  bytes : List Byte
  stop : Bool
deriving DecidableEq, Repr

/-- The array address frame of READ: no trailing stop (R96). -/
def addressFrame (a : Addr) (s : State) : Frame :=
  { dev := s.memAddr, bytes := [addrHigh a, addrLow a], stop := false }

/-- The array write frame of WRITE (R96). -/
def arrayFrame (a : Addr) (v : Byte) (s : State) : Frame :=
  { dev := s.memAddr, bytes := [addrHigh a, addrLow a, v], stop := true }

/-- The register write frame of WRITEREG (R96), from the working registers that hold its two bytes. -/
def registerFrame (s : State) : Frame :=
  { dev := s.regAddr, bytes := [s.wReg, s.wVal], stop := true }

/-- The new status byte of SET_AUTOSTORE: bit 1 set or cleared, every other bit as read (R105, R205). -/
def autostoreByte (en : Bool) (s : Byte) : Byte :=
  if en then s ||| cfg.stAse else s &&& ~~~cfg.stAse

end Sys2Proof.Machine
end

