-- ==== Sys2Proof/Machine/Flags.lean ====
section
/-! DEFINITION. The tests of the block: the completion status against zero (spec/44_sequencer.md R226), the cause of a
non-zero status (spec/60_exceptions.md R263), and the status-bit tests of the queries (spec/43_status_bits.md). The
block keeps no condition code (spec/10_state.md R28). -/

namespace Sys2Proof.Machine

open Sys2Proof

/-- The one status test: zero is success, every other value failure (R226, R282). -/
def statusOk (st : Byte) : Bool := st == 0

/-- `CauseOf(st)` (R263). It is not applied to 0. -/
def causeOf (st : Byte) : Cause :=
  if st = 0 then .none
  else if st = 1 then .txTooLong
  else if st = 2 then .addrNack
  else if st = 3 then .dataNack
  else .txOther

/-- The test of a query: `(s & mask) != 0` (the shape `Query(mask)` of spec/43_status_bits.md). -/
def testMask (mask s : Byte) : Bool := (s &&& mask) != 0

/-- The test of the poll loop: `Now() - t0 >= T_TIMEOUT` (R62, R9). -/
def deadlinePassed (now t0 : Nat) : Bool := decide (cfg.tTimeout ≤ now - t0)

/-- The same difference in a hardware counter of `bits` bits that wraps (spec/00_scope.md R10). -/
def wrappedElapsed (bits now t0 : Nat) : Nat := (now % 2 ^ bits + 2 ^ bits - t0 % 2 ^ bits) % 2 ^ bits

end Sys2Proof.Machine
end

