-- ==== Sys2Proof/Machine/Ops.lean ====
section
/-! DEFINITION. The operations every command shares: the primitive calls on the transport and timing port, the poll
loop, the write frame, the read request, the register writes of a bind, the response, and the one shared way a
command fails (spec/60_exceptions.md R268) with the return from it (R270). An operation answers `none` when a
primitive never returns. -/

namespace Sys2Proof.Machine

open Sys2Proof

/-! ### Primitive calls (spec/44_sequencer.md R243) -/

/-- A call has returned: the environment it leaves, and the call in the log with the selector on the port. -/
def State.note (c : Call) (e : Env) (s : State) : State :=
  { s with env := e, log := { bus := s.bus, call := c } :: s.log }

/-- `T.init()` (spec/20_memory.md R61). -/
def tInit (s : State) : Option State :=
  s.env.init.map fun e => s.note .init e

/-- `T.begin(a)` (R55). -/
def tBegin (a : DevAddr) (s : State) : Option State :=
  (s.env.begin a).map fun e => s.note (.begin a) e

/-- `T.write(b)` (R56). -/
def tWrite (b : Byte) (s : State) : Option State :=
  (s.env.write b).map fun e => s.note (.write b) e

/-- `st <- T.end(stop)` (R57). -/
def tEnd (stop : Bool) (s : State) : Option State :=
  s.env.endFrame.map fun r => { s.note (.endFrame stop r.1) r.2 with st := r.1 }

/-- `T.request(a, n)` (R58). -/
def tRequest (a : DevAddr) (n : Nat) (s : State) : Option State :=
  (s.env.request a n).map fun e => s.note (.request a n) e

/-- `T.available()` (R59). -/
def tAvailable (s : State) : Option (Nat × State) :=
  s.env.available.map fun r => (r.1, s.note (.available r.1) r.2)

/-- `sbyte <- T.read()` (R60). -/
def tRead (s : State) : Option State :=
  s.env.takeByte.map fun r => { s.note (.read r.1) r.2 with sbyte := r.1 }

/-- `Now()` (R63). -/
def tNow (s : State) : Option (Nat × State) :=
  s.env.now.map fun r => (r.1, s.note (.now r.1) r.2)

/-- `Delay(n)` (R64). -/
def tDelay (n : Nat) (s : State) : Option State :=
  (s.env.delay n).map fun e => s.note (.delay n) e

/-! ### Frames, polling, read requests -/

/-- The bytes of a frame in order (R56, R96). -/
def tWrites : List Byte → State → Option State
  | [], s => some s
  | b :: rest, s => (tWrite b s).bind (tWrites rest)

/-- A write frame: begin, the bytes, end (spec/30_encoding.md R96). -/
def sendFrame (f : Frame) (s : State) : Option State := do
  let s ← tBegin f.dev s
  let s ← tWrites f.bytes s
  tEnd f.stop s

/-- The loop of `AwaitByte()` (R62): availability first, then the deadline. The first argument bounds the polls. -/
def pollLoop : Nat → State → Option (Bool × State)
  | 0, _ => none
  | n + 1, s => do
    let (count, s) ← tAvailable s
    if 1 ≤ count then some (true, s)
    else do
      let (t, s) ← tNow s
      if deadlinePassed t s.t0 then some (false, s) else pollLoop n s

/-- `AwaitByte()` (R62). -/
def awaitByte (s : State) : Option (Bool × State) := do
  let (t, s) ← tNow s
  let s := { s with t0 := t }
  pollLoop s.env.pollBound s

/-- A read request: request one byte, wait for it, read it into `sbyte` (spec/30_encoding.md R99). It answers whether
a byte came. -/
def readRequest (dev : DevAddr) (s : State) : Option (Bool × State) := do
  let s ← tRequest dev 1 s
  let (ok, s) ← awaitByte s
  if ok then do
    let s ← tRead s
    some (true, s)
  else some (false, s)

/-- `StatusRead()` (spec/42_register_access.md R171): no register address is sent first. -/
def statusRead (s : State) : Option (Bool × State) := readRequest s.regAddr s

/-- `WRITEREG(w_reg, w_val)` (R172): the frame, then the settling delay on success and on failure alike. The outcome
is left in `w_ok`. -/
def writeReg (r : LogicalReg) (v : Byte) (s : State) : Option State := do
  let s := { s with wReg := regAddress r, wVal := v }
  let s ← sendFrame (registerFrame s) s
  let s ← tDelay cfg.tSettle s
  some { s with wOk := statusOk s.st }

/-! ### The end of a command -/

/-- A command ends: the response registers are written and DONE is entered (spec/44_sequencer.md R238). Where no data
byte is defined `rsp_data` takes a free value (R95, log 8). -/
def respond (ok : Bool) (cause : Cause) (data : Option Byte) (s : State) : State :=
  { s with
    rspOk := ok
    rspCause := cause
    rspData := match data with
      | some b => b
      | none => Config.freeByte s.draws
    draws := s.draws + 1
    phase := .done }

/-- `done(ok)`. -/
def succeed (ok : Bool) (s : State) : State := respond ok .none none s

/-- `done(true, byte)`. -/
def succeedWith (b : Byte) (s : State) : State := respond true .none (some b) s

/-- `fail(c)`: the block's one exception entry (spec/60_exceptions.md R268). Nothing is saved and nothing else
changes. -/
def fail (c : Cause) (s : State) : State := respond false c none s

/-- The return: the host takes the response and the block is idle again (R238, R270). -/
def takeResponse (s : State) : State := { s with phase := .idle }

/-- A command whose result is a frame's completion status: success or `fail(CauseOf(st))` (R226). -/
def finishByStatus (s : State) : State :=
  if statusOk s.st then succeed true s else fail (causeOf s.st) s

/-- The outcome of a command that has run: a next state, or the fault of a primitive that never returns (R316). -/
def ranToEnd (r : Option State) : Host.Outcome State Fault Refusal :=
  match r with
  | some t => .next t
  | none => .fault .primitiveNeverReturns

/-- A command that needs a bind first: refused while `bound` = 0 (spec/44_sequencer.md R222, U1). -/
def whenBound (s : State) (r : Option State) : Host.Outcome State Fault Refusal :=
  if s.bound then ranToEnd r else .refused .unbound

/-- A bind: refused where the selector names no transport (spec/30_encoding.md R110, U3). -/
def whenTransport (b : BusId) (s : State) (r : Option State) : Host.Outcome State Fault Refusal :=
  if b ∈ s.deadBuses then .refused .noTransport else ranToEnd r

/-! ### Registers -/

/-- The four register writes of a bind (spec/40_bind.md R131). -/
def bindRegs (b : BusId) (pin1 pin2 : Bool) (s : State) : State :=
  { s with
    bus := b
    memAddr := (devAddrs pin1 pin2).1
    regAddr := (devAddrs pin1 pin2).2
    bound := true }

/-- Acceptance: the fields of the command word are latched (spec/44_sequencer.md R221, spec/30_encoding.md R91). -/
def latch (cw : CmdWord) (s : State) : State :=
  { s with
    op := (fields cw).op
    cPin2 := (fields cw).pin2
    cPin1 := (fields cw).pin1
    cAddr := (fields cw).addr
    cBus := (fields cw).bus
    cData := (fields cw).data
    cEn := (fields cw).en }

/-- The command the latches hold. -/
def latched (s : State) : Instr :=
  ofFields
    { op := s.op, pin2 := s.cPin2, pin1 := s.cPin1, addr := s.cAddr, bus := s.cBus, data := s.cData, en := s.cEn }

/-! ### Reset -/

/-- Whether a command is in progress: `phase` is neither IDLE nor DONE (spec/44_sequencer.md R220). -/
def Phase.inCommand : Phase → Bool
  | .idle => false
  | .done => false
  | .bindWr => true
  | .tInit => true
  | .txBegin => true
  | .txB0 => true
  | .txB1 => true
  | .txB2 => true
  | .txEnd => true
  | .settle => true
  | .cmdWait => true
  | .rxReq => true
  | .rxPoll => true
  | .rxTime => true
  | .rxRead => true
  | .modify => true

/-- The `reset` input (spec/70_reset_and_hazards.md R300, R302): `bound` = 0, `phase` = IDLE, `rsp_cause` = 0, every
other register a free value (U17, log 9); no primitive is issued. In every phase but IDLE the environment is left in a
state nothing defines (R301, U9, log 10); in IDLE it is untouched. -/
def resetBlock (s : State) : State :=
  { s with
    bound := false
    phase := .idle
    rspCause := .none
    memAddr := Config.freeDev s.draws
    regAddr := Config.freeDev (s.draws + 1)
    bus := Config.freeHalf s.draws
    op := Config.freeOp s.draws
    cAddr := Config.freeHalf (s.draws + 1)
    cData := Config.freeByte (s.draws + 1)
    cPin1 := Config.freeBit s.draws
    cPin2 := Config.freeBit (s.draws + 1)
    cEn := Config.freeBit (s.draws + 2)
    cBus := Config.freeHalf (s.draws + 2)
    st := Config.freeByte (s.draws + 2)
    sbyte := Config.freeByte (s.draws + 3)
    t0 := Config.freeTime s.draws
    wReg := Config.freeByte (s.draws + 4)
    wVal := Config.freeByte (s.draws + 5)
    wOk := Config.freeBit (s.draws + 3)
    rspOk := Config.freeBit (s.draws + 4)
    rspData := Config.freeByte s.draws
    env := if s.phase = .idle then s.env else s.env.unknownFrom s.env.time
    draws := s.draws + 6 }

end Sys2Proof.Machine
end

