-- ==== Sys2Proof/Machine/ArrayAccess.lean ====
section
/-! DEFINITION. READ and WRITE (spec/41_memory_access.md). The effective address is the operand itself, unchecked
(spec/20_memory.md R51). -/

namespace Sys2Proof.Machine

open Sys2Proof

/-- READ (R150): the address frame without a stop, its status test, then the read request. -/
def execRead (a : Addr) (s : State) : Host.Outcome State Fault Refusal :=
  whenBound s do
    let s ← sendFrame (addressFrame a s) s
    if statusOk s.st then do
      let (ok, s) ← readRequest s.memAddr s
      some (if ok then succeedWith s.sbyte s else fail .rspTimeout s)
    else some (fail (causeOf s.st) s)

/-- WRITE (R152): one frame of three bytes; its status is the result (R153). -/
def execWrite (a : Addr) (v : Byte) (s : State) : Host.Outcome State Fault Refusal :=
  whenBound s do
    let s ← sendFrame (arrayFrame a v s) s
    some (finishByStatus s)

end Sys2Proof.Machine
end

