-- ==== Sys2Proof/Machine/Bind.lean ====
section
/-! DEFINITION. BIND and BIND_DEFAULT (spec/40_bind.md). -/

namespace Sys2Proof.Machine

open Sys2Proof

/-- The liveness probe that concludes a bind: the status read; its byte is discarded (R131, R133). -/
def probe (s : State) : Option State := do
  let (ok, s) ← statusRead s
  some (if ok then succeed true s else fail .rspTimeout s)

/-- BIND (R131): the registers are written before the probe and stay written when it fails (R134). -/
def execBind (b : BusId) (pin1 pin2 : Bool) (s : State) : Host.Outcome State Fault Refusal :=
  whenTransport b s (probe (bindRegs b pin1 pin2 s))

/-- BIND_DEFAULT (R132): the default transport, initialized before the probe, both pins low. -/
def execBindDefault (s : State) : Host.Outcome State Fault Refusal :=
  whenTransport cfg.defaultBus s ((tInit (bindRegs cfg.defaultBus false false s)).bind probe)

end Sys2Proof.Machine
end

