-- ==== Sys2Proof/Machine/RegisterAccess.lean ====
section
/-! DEFINITION. GETSTATUS, STORE and RECALL (spec/42_register_access.md). -/

namespace Sys2Proof.Machine

open Sys2Proof

/-- GETSTATUS (R170): the raw status byte. -/
def execGetStatus (s : State) : Host.Outcome State Fault Refusal :=
  whenBound s do
    let (ok, s) ← statusRead s
    some (if ok then succeedWith s.sbyte s else fail .rspTimeout s)

/-- The shape of STORE and RECALL (R174, R176): WRITEREG to the COMMAND register, then the completion delay on success
only. -/
def runChipCommand (c : ChipCommand) (s : State) : Option State := do
  let s ← writeReg .command (commandByte c) s
  if s.wOk then do
    let s ← tDelay (commandDelay c) s
    some (succeed true s)
  else some (fail (causeOf s.st) s)

/-- STORE (R174). -/
def execStore (s : State) : Host.Outcome State Fault Refusal :=
  whenBound s (runChipCommand .store s)

/-- RECALL (R176). -/
def execRecall (s : State) : Host.Outcome State Fault Refusal :=
  whenBound s (runChipCommand .recallArray s)

end Sys2Proof.Machine
end

