-- ==== Sys2Proof/Machine/Reserved.lean ====
section
/-! DEFINITION. The reserved opcodes 0xC to 0xF: a completed command with `rsp_ok` = 0 and cause 6, no primitive
issued, whether or not the block is bound (spec/30_encoding.md R94). -/

namespace Sys2Proof.Machine

open Sys2Proof

/-- RESERVED_C (R94). -/
def execReservedC (s : State) : Host.Outcome State Fault Refusal := .next (fail .illegalCmd s)

/-- RESERVED_D (R94). -/
def execReservedD (s : State) : Host.Outcome State Fault Refusal := .next (fail .illegalCmd s)

/-- RESERVED_E (R94). -/
def execReservedE (s : State) : Host.Outcome State Fault Refusal := .next (fail .illegalCmd s)

/-- RESERVED_F (R94). -/
def execReservedF (s : State) : Host.Outcome State Fault Refusal := .next (fail .illegalCmd s)

end Sys2Proof.Machine
end

