-- ==== Sys2Proof/Machine/StatusBits.lean ====
section
/-! DEFINITION. The four status-bit queries and SET_AUTOSTORE (spec/43_status_bits.md). -/

namespace Sys2Proof.Machine

open Sys2Proof

/-- `Query(mask)`: a fresh status read; a failed read is the condition false, with the diagnostic cause 5 (R204). -/
def query (mask : Byte) (s : State) : Option State := do
  let (ok, s) ← statusRead s
  some (if ok then succeed (testMask mask s.sbyte) s else fail .rspTimeout s)

/-- IS_EVENT (R200). -/
def execIsEvent (s : State) : Host.Outcome State Fault Refusal :=
  whenBound s (query cfg.stEvent s)

/-- IS_AUTOSTORE (R201). -/
def execIsAutostore (s : State) : Host.Outcome State Fault Refusal :=
  whenBound s (query cfg.stAse s)

/-- IS_WRPROT (R202). -/
def execIsWrprot (s : State) : Host.Outcome State Fault Refusal :=
  whenBound s (query cfg.stWp s)

/-- IS_MODIFIED (R203). -/
def execIsModified (s : State) : Host.Outcome State Fault Refusal :=
  whenBound s (query cfg.stAm s)

/-- SET_AUTOSTORE (R205): read the status, change bit 1, write the whole byte back; after a failed read nothing is
written. -/
def execSetAutostore (en : Bool) (s : State) : Host.Outcome State Fault Refusal :=
  whenBound s do
    let (ok, s) ← statusRead s
    if ok then do
      let s ← writeReg .status (autostoreByte en s.sbyte) s
      some (finishByStatus s)
    else some (fail .rspTimeout s)

end Sys2Proof.Machine
end

