-- ==== Sys2Proof/Machine/Dispatch.lean ====
section
/-! DEFINITION. The meaning of every command, one arm per row of spec/opcode_table.json. -/

namespace Sys2Proof.Machine

open Sys2Proof

def exec (i : Instr) (s : State) : Host.Outcome State Fault Refusal :=
  match i with
  | .bind bus pin1 pin2 => Sys2Proof.Machine.execBind bus pin1 pin2 s
  | .bindDefault => Sys2Proof.Machine.execBindDefault s
  | .read addr => Sys2Proof.Machine.execRead addr s
  | .write addr data => Sys2Proof.Machine.execWrite addr data s
  | .getStatus => Sys2Proof.Machine.execGetStatus s
  | .store => Sys2Proof.Machine.execStore s
  | .recallArray => Sys2Proof.Machine.execRecall s
  | .isEvent => Sys2Proof.Machine.execIsEvent s
  | .isAutostore => Sys2Proof.Machine.execIsAutostore s
  | .isWrprot => Sys2Proof.Machine.execIsWrprot s
  | .isModified => Sys2Proof.Machine.execIsModified s
  | .setAutostore en => Sys2Proof.Machine.execSetAutostore en s
  | .reservedC => Sys2Proof.Machine.execReservedC s
  | .reservedD => Sys2Proof.Machine.execReservedD s
  | .reservedE => Sys2Proof.Machine.execReservedE s
  | .reservedF => Sys2Proof.Machine.execReservedF s

end Sys2Proof.Machine
end

