-- ==== Sys2Proof/Machine/Sequencer.lean ====
section
/-! DEFINITION. The protocol state machine (spec/44_sequencer.md): dispatch from IDLE and one phase a time, over the
command latches. It adds nothing to the command rules: a command run phase by phase ends in the state its meaning
gives (D22), which is one of the obligations. -/

namespace Sys2Proof.Machine

open Sys2Proof

/-- The phases of each command between IDLE and DONE (R227); "poll loop" is RX_POLL and RX_TIME. -/
def path : Instr → List Phase
  | .bind _ _ _ => [.bindWr, .rxReq, .rxPoll, .rxTime, .rxRead]
  | .bindDefault => [.bindWr, .tInit, .rxReq, .rxPoll, .rxTime, .rxRead]
  | .read _ => [.txBegin, .txB0, .txB1, .txEnd, .rxReq, .rxPoll, .rxTime, .rxRead]
  | .write _ _ => [.txBegin, .txB0, .txB1, .txB2, .txEnd]
  | .getStatus => [.rxReq, .rxPoll, .rxTime, .rxRead]
  | .store => [.txBegin, .txB0, .txB1, .txEnd, .settle, .cmdWait]
  | .recallArray => [.txBegin, .txB0, .txB1, .txEnd, .settle, .cmdWait]
  | .isEvent => [.rxReq, .rxPoll, .rxTime, .rxRead]
  | .isAutostore => [.rxReq, .rxPoll, .rxTime, .rxRead]
  | .isWrprot => [.rxReq, .rxPoll, .rxTime, .rxRead]
  | .isModified => [.rxReq, .rxPoll, .rxTime, .rxRead]
  | .setAutostore _ =>
    [.rxReq, .rxPoll, .rxTime, .rxRead, .modify, .txBegin, .txB0, .txB1, .txEnd, .settle]
  | .reservedC => []
  | .reservedD => []
  | .reservedE => []
  | .reservedF => []

/-- Whether a phase is on the path of a command (R227): IDLE and DONE always are. -/
def onPath (i : Instr) (p : Phase) : Bool := !p.inCommand || (path i).contains p

/-- The register writes of BIND_WR and the phase after it (R231). -/
def bindWrite : Instr → State → Option State
  | .bind b pin1 pin2, s => some { bindRegs b pin1 pin2 s with phase := .rxReq }
  | .bindDefault, s => some { bindRegs cfg.defaultBus false false s with phase := .tInit }
  | .read _, _ => none
  | .write _ _, _ => none
  | .getStatus, _ => none
  | .store, _ => none
  | .recallArray, _ => none
  | .isEvent, _ => none
  | .isAutostore, _ => none
  | .isWrprot, _ => none
  | .isModified, _ => none
  | .setAutostore _, _ => none
  | .reservedC, _ => none
  | .reservedD, _ => none
  | .reservedE, _ => none
  | .reservedF, _ => none

/-- The frame a command sends (R222, R230). -/
def frameOf : Instr → State → Option Frame
  | .bind _ _ _, _ => none
  | .bindDefault, _ => none
  | .read a, s => some (addressFrame a s)
  | .write a v, s => some (arrayFrame a v s)
  | .getStatus, _ => none
  | .store, s => some (registerFrame s)
  | .recallArray, s => some (registerFrame s)
  | .isEvent, _ => none
  | .isAutostore, _ => none
  | .isWrprot, _ => none
  | .isModified, _ => none
  | .setAutostore _, s => some (registerFrame s)
  | .reservedC, _ => none
  | .reservedD, _ => none
  | .reservedE, _ => none
  | .reservedF, _ => none

/-- What follows TX_END (R226). -/
def afterFrame : Instr → State → Option State
  | .bind _ _ _, _ => none
  | .bindDefault, _ => none
  | .read _, s => some (if statusOk s.st then { s with phase := .rxReq } else fail (causeOf s.st) s)
  | .write _ _, s => some (finishByStatus s)
  | .getStatus, _ => none
  | .store, s => some { s with phase := .settle }
  | .recallArray, s => some { s with phase := .settle }
  | .isEvent, _ => none
  | .isAutostore, _ => none
  | .isWrprot, _ => none
  | .isModified, _ => none
  | .setAutostore _, s => some { s with phase := .settle }
  | .reservedC, _ => none
  | .reservedD, _ => none
  | .reservedE, _ => none
  | .reservedF, _ => none

/-- The chip command a command gives (R101). -/
def chipCommandOf : Instr → Option ChipCommand
  | .bind _ _ _ => none
  | .bindDefault => none
  | .read _ => none
  | .write _ _ => none
  | .getStatus => none
  | .store => some .store
  | .recallArray => some .recallArray
  | .isEvent => none
  | .isAutostore => none
  | .isWrprot => none
  | .isModified => none
  | .setAutostore _ => none
  | .reservedC => none
  | .reservedD => none
  | .reservedE => none
  | .reservedF => none

/-- What follows SETTLE (R226): STORE and RECALL wait on success, every failure and SET_AUTOSTORE end. -/
def afterSettle (i : Instr) (s : State) : State :=
  match chipCommandOf i with
  | some _ => if s.wOk then { s with phase := .cmdWait } else fail (causeOf s.st) s
  | none => finishByStatus s

/-- What follows a byte received (R230). -/
def afterByte : Instr → State → Option State
  | .bind _ _ _, s => some (succeed true s)
  | .bindDefault, s => some (succeed true s)
  | .read _, s => some (succeedWith s.sbyte s)
  | .write _ _, _ => none
  | .getStatus, s => some (succeedWith s.sbyte s)
  | .store, _ => none
  | .recallArray, _ => none
  | .isEvent, s => some (succeed (testMask cfg.stEvent s.sbyte) s)
  | .isAutostore, s => some (succeed (testMask cfg.stAse s.sbyte) s)
  | .isWrprot, s => some (succeed (testMask cfg.stWp s.sbyte) s)
  | .isModified, s => some (succeed (testMask cfg.stAm s.sbyte) s)
  | .setAutostore _, s => some { s with phase := .modify }
  | .reservedC, _ => none
  | .reservedD, _ => none
  | .reservedE, _ => none
  | .reservedF, _ => none

/-- A phase that issues a primitive is left when the primitive returns (R220). -/
def leaveBy (r : Option State) (next : State → Option State) : Host.Outcome State Fault Refusal :=
  match r with
  | none => .fault .primitiveNeverReturns
  | some s =>
    match next s with
    | some t => .next t
    | none => .fault .offPath

/-- The next state is the one after the primitive, in a given phase. -/
def thenPhase (p : Phase) (s : State) : Option State := some { s with phase := p }

/-- One byte of the frame (R223). -/
def sendByte (i : Instr) (k : Nat) (next : Phase) (s : State) : Host.Outcome State Fault Refusal :=
  match (frameOf i s).bind fun f => f.bytes[k]? with
  | some b => leaveBy (tWrite b s) (thenPhase next)
  | none => .fault .offPath

/-- The phase after TX_B1: TX_B2 when the frame has three bytes (R223). -/
def afterB1 (i : Instr) (s : State) : Phase :=
  match frameOf i s with
  | some f => if f.bytes.length = 3 then .txB2 else .txEnd
  | none => .txEnd

/-- The work of one phase on the path of the command `i` (R220, R223, R226, R229, R230, R231). DESIGN CHOICE (log 34),
unsafe: RX_REQ is left when both its calls have returned, and where `T.request` has returned and `Now()` never does the
block waits in RX_REQ with the request neither logged nor taken by the environment. -/
def runPhase (i : Instr) (s : State) : Host.Outcome State Fault Refusal :=
  match s.phase with
  | .idle => .next s
  | .bindWr => leaveBy (some s) (bindWrite i)
  | .tInit => leaveBy (tInit s) (thenPhase .rxReq)
  | .txBegin =>
    match frameOf i s with
    | some f => leaveBy (tBegin f.dev s) (thenPhase .txB0)
    | none => .fault .offPath
  | .txB0 => sendByte i 0 .txB1 s
  | .txB1 => sendByte i 1 (afterB1 i s) s
  | .txB2 => sendByte i 2 .txEnd s
  | .txEnd =>
    match frameOf i s with
    | some f => leaveBy (tEnd f.stop s) (afterFrame i)
    | none => .fault .offPath
  | .settle =>
    leaveBy ((tDelay cfg.tSettle s).map fun s => { s with wOk := statusOk s.st }) fun s => some (afterSettle i s)
  | .cmdWait =>
    match chipCommandOf i with
    | some c => leaveBy (tDelay (commandDelay c) s) fun s => some (succeed true s)
    | none => .fault .offPath
  | .rxReq =>
    match (deviceMap i s).2 with
    | some dev =>
      leaveBy ((tRequest dev 1 s).bind fun s => (tNow s).map fun r => { r.2 with t0 := r.1 }) (thenPhase .rxPoll)
    | none => .fault .offPath
  | .rxPoll =>
    leaveBy ((tAvailable s).map fun r => { r.2 with phase := if 1 ≤ r.1 then .rxRead else .rxTime }) some
  | .rxTime =>
    leaveBy ((tNow s).map fun r =>
      if deadlinePassed r.1 r.2.t0 then fail .rspTimeout r.2 else { r.2 with phase := .rxPoll }) some
  | .rxRead => leaveBy (tRead s) (afterByte i)
  | .modify =>
    .next { s with wReg := regAddress .status, wVal := autostoreByte s.cEn s.sbyte, phase := .txBegin }
  | .done => .next s

/-- One transition of the sequencer. A phase off the path of the latched command has no transition (log 23). -/
def seqStep (s : State) : Host.Outcome State Fault Refusal :=
  if onPath (latched s) s.phase then runPhase (latched s) s else .fault .offPath

/-- `n` transitions of the sequencer. -/
def seqRun : Nat → State → Host.Outcome State Fault Refusal
  | 0, s => .next s
  | n + 1, s =>
    match seqStep s with
    | .next t => seqRun n t
    | .fault f => .fault f
    | .refused r => .refused r

/-- Dispatch of a command that needs a bind: its first phase, or the refusal of U1 (R222). -/
def start (p : Phase) (s : State) : Host.Outcome State Fault Refusal :=
  if s.bound then .next { s with phase := p } else .refused .unbound

/-- Dispatch of a bind to a selector (R222, U3). -/
def startBind (b : BusId) (s : State) : Host.Outcome State Fault Refusal :=
  if b ∈ s.deadBuses then .refused .noTransport else .next { s with phase := .bindWr }

/-- The bytes of the frame of STORE or RECALL, set up at dispatch (R222). -/
def loadCommand (c : ChipCommand) (s : State) : State :=
  { s with wReg := regAddress .command, wVal := commandByte c }

/-- Dispatch from IDLE on the latched command (R222). -/
def dispatch (s : State) : Host.Outcome State Fault Refusal :=
  match latched s with
  | .bind b _ _ => startBind b s
  | .bindDefault => startBind cfg.defaultBus s
  | .read _ => start .txBegin s
  | .write _ _ => start .txBegin s
  | .getStatus => start .rxReq s
  | .store => start .txBegin (loadCommand .store s)
  | .recallArray => start .txBegin (loadCommand .recallArray s)
  | .isEvent => start .rxReq s
  | .isAutostore => start .rxReq s
  | .isWrprot => start .rxReq s
  | .isModified => start .rxReq s
  | .setAutostore _ => start .rxReq s
  | .reservedC => .next (fail .illegalCmd s)
  | .reservedD => .next (fail .illegalCmd s)
  | .reservedE => .next (fail .illegalCmd s)
  | .reservedF => .next (fail .illegalCmd s)

end Sys2Proof.Machine
end

