-- ==== Sys2Proof/Machine/Port.lean ====
section
/-! DEFINITION. The host port (spec/44_sequencer.md R221, R238, R239, R242; spec/70_reset_and_hazards.md R300, R301):
what the machine does with one sample of its input signals. -/

namespace Sys2Proof.Machine

open Sys2Proof

/-- The sample of the input signals that comes next; a host with nothing more to say is quiet (log 2). -/
def nextSample (s : State) : HostIn :=
  match s.host with
  | [] => .quiet
  | h :: _ => h

/-- The state with that sample used up. -/
def consumeSample (s : State) : State := { s with host := s.host.tail }

/-- A command in progress goes on by one phase; a primitive that has not returned leaves the block waiting in its
phase (R220, R316, U13). -/
def progress (s : State) : Host.Outcome State Fault Refusal :=
  match seqStep s with
  | .next t => .next t
  | .fault .primitiveNeverReturns => .next s
  | .fault .offPath => .fault .offPath
  | .refused r => .refused r

/-- A command word presented in IDLE is accepted: its fields are latched and the command runs to its end (R221, the
command rules). -/
def acceptWhole (cw : CmdWord) (s : State) : Host.Outcome State Fault Refusal :=
  exec (decode cw) (latch cw s)

/-- A command word presented in IDLE is accepted: its fields are latched and the sequencer is dispatched (R221,
R222). -/
def acceptPhase (cw : CmdWord) (s : State) : Host.Outcome State Fault Refusal :=
  dispatch (latch cw s)

/-- What the block does with one sample of its inputs: `reset` comes before everything (R300, R301); IDLE accepts a
presented command (R221); DONE waits for the response to be taken (R238); in between inputs are ignored (R221, R239).
`accept` says how far an accepted command gets. -/
def onSample (accept : CmdWord → State → Host.Outcome State Fault Refusal) (h : HostIn) (s : State) :
    Host.Outcome State Fault Refusal :=
  if h.reset then .next (resetBlock s)
  else match s.phase with
    | .idle => if h.cmdValid then accept h.cmdWord s else .next s
    | .done => .next (if h.rspReady then takeResponse s else s)
    | .bindWr => progress s
    | .tInit => progress s
    | .txBegin => progress s
    | .txB0 => progress s
    | .txB1 => progress s
    | .txB2 => progress s
    | .txEnd => progress s
    | .settle => progress s
    | .cmdWait => progress s
    | .rxReq => progress s
    | .rxPoll => progress s
    | .rxTime => progress s
    | .rxRead => progress s
    | .modify => progress s

/-- The block phase by phase: one sample, at most one phase. `reset` can land inside a command here (R301). -/
def tick (s : State) : Host.Outcome State Fault Refusal :=
  onSample acceptPhase (nextSample s) (consumeSample s)

/-- `n` samples, phase by phase. -/
def tickRun : Nat → State → Host.Outcome State Fault Refusal
  | 0, s => .next s
  | n + 1, s =>
    match tick s with
    | .next t => tickRun n t
    | .fault f => .fault f
    | .refused r => .refused r

/-- A command word presented as the next sample, to a block that is ready for it (log 3). -/
def presentWord (cw : CmdWord) (s : State) : State :=
  { s with
    phase := .idle
    host := { reset := false, cmdValid := true, cmdWord := cw, rspReady := false } :: s.host.tail }

/-- The host takes the response with the next sample. -/
def presentReady (s : State) : State :=
  { s with host := { reset := false, cmdValid := false, cmdWord := 0, rspReady := true } :: s.host.tail }

end Sys2Proof.Machine
end

