-- ==== Sys2Proof/Machine/Step.lean ====
section
/-! DEFINITION. One step of the machine: one sample of the input signals, an accepted command run whole by its command
rule. The command word is presented on the host port; nothing is fetched (spec/10_state.md R27). -/

namespace Sys2Proof.Machine

open Sys2Proof

/-- One step. -/
def step (s : State) : Host.Outcome State Fault Refusal :=
  onSample acceptWhole (nextSample s) (consumeSample s)

/-- `s` with a row's word of `nbits` bits as the command word the next step accepts (log 3). -/
def State.withFetchWord (s : State) (nbits w : Nat) : State :=
  presentWord (BitVec.ofNat 32 (w % 2 ^ nbits)) s

end Sys2Proof.Machine
end

