-- ==== Sys2Proof/Safety.lean ====
section
/-! DEFINITION. The terms claims are stated in: what a command issues on the transport port, what it leaves
unchanged, what the arrays hold, which environment is ENV0, the invariants of the machine, and when the block is
stuck. -/

namespace Sys2Proof.Machine

open Sys2Proof

/-! ### What a command issues -/

/-- Calls as events on one selector. -/
def onBus (b : BusId) (l : List Call) : List Event := l.map fun c => { bus := b, call := c }

/-- Between `s` and `t` exactly the calls `l` were issued, in this order, on the selector that `t` holds. -/
def Issued (s t : State) (l : List Call) : Prop := t.trace = s.trace ++ onBus t.bus l

/-- The calls of a write frame (spec/30_encoding.md R96). -/
def frameCalls (dev : DevAddr) (bytes : List Byte) (stop : Bool) (status : Byte) : List Call :=
  .begin dev :: (bytes.map .write ++ [.endFrame stop status])

/-- The calls of polls that found no byte, with the times read after each of them. -/
def missedPolls (times : List Nat) : List Call := times.flatMap fun t => [.available 0, .now t]

/-- The calls of a wait that found a byte: polls that missed before the deadline, then one that did not (R62). -/
def WaitHit (l : List Call) : Prop :=
  ∃ t0 times n, l = .now t0 :: (missedPolls times ++ [.available n]) ∧ 1 ≤ n ∧ ∀ t ∈ times, t - t0 < 3000

/-- The calls of a wait that timed out: every poll missed, and the last time read is the first one at the deadline
(R62). -/
def WaitMiss (l : List Call) : Prop :=
  ∃ t0 times t, l = .now t0 :: (missedPolls times ++ [.available 0, .now t]) ∧ (∀ u ∈ times, u - t0 < 3000) ∧
    3000 ≤ t - t0

/-- The device address a call carries. -/
def Call.dev : Call → Option DevAddr
  | .init => none
  | .begin a => some a
  | .write _ => none
  | .endFrame _ _ => none
  | .request a _ => some a
  | .available _ => none
  | .read _ => none
  | .now _ => none
  | .delay _ => none

/-- The kinds of primitives of R243. -/
inductive CallKind where
  | init
  | begin
  | write
  | endFrame
  | request
  | available
  | read
  | now
  | delay
deriving DecidableEq, Repr

/-- The kind of a call. -/
def Call.kind : Call → CallKind
  | .init => .init
  | .begin _ => .begin
  | .write _ => .write
  | .endFrame _ _ => .endFrame
  | .request _ _ => .request
  | .available _ => .available
  | .read _ => .read
  | .now _ => .now
  | .delay _ => .delay

/-- How many calls of a kind are in a list. -/
def countKind (k : CallKind) (l : List Call) : Nat := l.countP fun c => c.kind == k

/-- Whether the last frame was ended without a stop (spec/10_state.md R33): nothing the block does depends on it.
DESIGN CHOICE (log 33), unsafe: the spec does not say what ends it, and here only the next `T.end` does, on whatever
selector, not a read request, a `T.init()`, a re-bind or a reset. -/
def State.leftWithoutStop (s : State) : Bool :=
  match s.log.find? fun e => e.call.kind == .endFrame with
  | some { bus := _, call := .endFrame stop _ } => !stop
  | _ => false

/-! ### What a command leaves unchanged -/

/-- The persistent registers are the same (spec/10_state.md R20). -/
def SamePersistent (s t : State) : Prop :=
  t.bus = s.bus ∧ t.memAddr = s.memAddr ∧ t.regAddr = s.regAddr ∧ t.bound = s.bound

/-- The command latches, the port samples and the platform are the same. -/
def SameInputs (s t : State) : Prop :=
  t.op = s.op ∧ t.cAddr = s.cAddr ∧ t.cData = s.cData ∧ t.cPin1 = s.cPin1 ∧ t.cPin2 = s.cPin2 ∧ t.cEn = s.cEn ∧
    t.cBus = s.cBus ∧ t.host = s.host ∧ t.deadBuses = s.deadBuses

/-- The working registers of WRITEREG are the same (spec/10_state.md R26). -/
def SameWriteRegs (s t : State) : Prop := t.wReg = s.wReg ∧ t.wVal = s.wVal ∧ t.wOk = s.wOk

/-- The working registers of a read request are the same (spec/10_state.md R26). -/
def SameReadRegs (s t : State) : Prop := t.sbyte = s.sbyte ∧ t.t0 = s.t0

/-! ### The chip -/

/-- The byte of the chip's array at an address, where the environment is the reference environment. -/
def State.arrayByte (s : State) (a : Addr) : Option Byte :=
  match s.env with
  | .ref e => some (e.sram.read a.toNat)
  | .scripted _ => none

/-- The byte of the nonvolatile copy at an address, where the environment is the reference environment. -/
def State.copyByte (s : State) (a : Addr) : Option Byte :=
  match s.env with
  | .ref e => some (e.ee.read a.toNat)
  | .scripted _ => none

/-- The chip's STATUS register, where the environment is the reference environment. -/
def State.chipStatus (s : State) : Option Byte :=
  match s.env with
  | .ref e => some e.status
  | .scripted _ => none

/-- Every byte of the array and of the nonvolatile copy is the same. -/
def SameArrays (s t : State) : Prop :=
  (∀ a, t.arrayByte a = s.arrayByte a) ∧ ∀ a, t.copyByte a = s.copyByte a

/-- The environment is ENV0 (spec/20_memory.md R75) with no store or recall running. -/
def RefEnv.isEnv0 (e : RefEnv) : Prop := e.variant = .plain ∧ e.cap = 65536 ∧ e.busyUntil ≤ e.time

/-- A device address at which nothing answers (ENV0-ABSENT, spec/20_memory.md R76). -/
def RefEnv.absent (e : RefEnv) (a : DevAddr) : Prop := a ≠ e.memDev ∧ a ≠ e.regDev

/-! ### Invariants -/

/-- While the block is bound its two device addresses are ones a bind computes (spec/10_state.md R36). -/
def AddressesLegal (s : State) : Prop :=
  s.bound = true → (s.memAddr = 0x50 ∨ s.memAddr = 0x52) ∧ (s.regAddr = 0x18 ∨ s.regAddr = 0x1C)

/-- The sequencer is on the path of the latched command, and past BIND_WR the block is bound
(spec/44_sequencer.md R222, R227). -/
def PhaseLegal (s : State) : Prop :=
  onPath (latched s) s.phase = true ∧ (s.phase.inCommand = true → s.phase ≠ .bindWr → s.bound = true)

/-- The arrays of the reference environment are in canonical form. -/
def ArraysCanonical (s : State) : Prop :=
  match s.env with
  | .ref e => Memory.wf e.sram ∧ Memory.wf e.ee
  | .scripted _ => True

/-- The capacity of the chip is in its range, `1 <= CAP <= 65536` (spec/00_scope.md R6). -/
def CapacityLegal (s : State) : Prop :=
  match s.env with
  | .ref e => 1 ≤ e.cap ∧ e.cap ≤ 65536
  | .scripted _ => True

/-- The invariant of the machine. -/
def StateInv (s : State) : Prop := AddressesLegal s ∧ PhaseLegal s ∧ ArraysCanonical s ∧ CapacityLegal s

/-! ### Safety -/

/-- A step is safe when it does not end in a fault. -/
def SafeStep (s : State) : Prop := ∀ f, step s ≠ .fault f

/-- The block is stuck in its phase: the primitive it issued never returns (spec/93_implementation_defined.md U13). -/
def Stuck (s : State) : Prop := s.phase.inCommand = true ∧ seqStep s = .fault .primitiveNeverReturns

end Sys2Proof.Machine
end

