-- ==== Sys2Proof/Certificates/Slice0/Obligations.lean ====
section
/-! DEFINITION. The statements about the EERAM Adapter. Numbers are the spec's own values, so that a wrong parameter
makes a statement false. "ENV0" is the reference environment of spec/20_memory.md R75; a statement with no environment
hypothesis holds for every environment whatever (`Env.scripted`, log 5). -/

open Sys2Proof Sys2Proof.Machine

/-! ### Encoding (spec/30_encoding.md) -/

/-- Decoding the canonical encoding of a command gives the command back, every operand included (R91, R92, R108). -/
def Obligations.DecodeEncodeRoundTrip : Prop := ∀ i : Instr, decode (encode i) = i

/-- Every word decodes to the command its opcode field names: a defined command exactly for 0x0 to 0xB, a reserved one
for the rest (R92, R110, R112). -/
def Obligations.DecodeFollowsOpcodeField : Prop :=
  ∀ w : CmdWord,
    (decode w).opcode = w.extractLsb' 28 4 ∧
      (wellFormed (decode w) = true ↔ w.extractLsb' 28 4 ≤ 0xB#4) ∧
      ((decode w).isReserved = true ↔ 0xC#4 ≤ w.extractLsb' 28 4)

/-- Two words with the same opcode and the same fields that the opcode uses decode alike: bits 27:26 and unused fields
are ignored, `CW[7:1]` of SET_AUTOSTORE among them (R93, R94). -/
def Obligations.UnusedFieldsAreIgnored : Prop :=
  ∀ w v : CmdWord,
    w.extractLsb' 28 4 = v.extractLsb' 28 4 →
    (w.extractLsb' 28 4 = 0x0#4 →
      w.extractLsb' 8 16 = v.extractLsb' 8 16 ∧ w.getLsbD 24 = v.getLsbD 24 ∧ w.getLsbD 25 = v.getLsbD 25) →
    (w.extractLsb' 28 4 = 0x2#4 → w.extractLsb' 8 16 = v.extractLsb' 8 16) →
    (w.extractLsb' 28 4 = 0x3#4 →
      w.extractLsb' 8 16 = v.extractLsb' 8 16 ∧ w.extractLsb' 0 8 = v.extractLsb' 0 8) →
    (w.extractLsb' 28 4 = 0xB#4 → w.getLsbD 0 = v.getLsbD 0) →
    decode w = decode v

/-- The spec's worked words decode to the commands it names (R111, spec/95_test_vectors.md V9, V10). -/
def Obligations.SpecWordsDecode : Prop :=
  decode 0x20123400 = .read 0x1234 ∧ decode 0x301234AB = .write 0x1234 0xAB ∧
    decode 0x01000000 = .bind 0 true false ∧ decode 0x02000000 = .bind 0 false true ∧
    decode 0x03000700 = .bind 7 true true ∧ decode 0xB0000001 = .setAutostore true ∧
    decode 0xB00000FE = .setAutostore false ∧ decode 0x1FFFFFFF = .bindDefault ∧
    decode 0x5FFFFFFF = .store ∧ decode 0xD1234567 = .reservedD

/-- A word presented on the port is the command the next step runs (R221; log 3). -/
def Obligations.PresentedWordIsRun : Prop :=
  ∀ (s : State) (w : Nat), w < 2 ^ 32 →
    decodeTableWord 32 w = some (decode (BitVec.ofNat 32 w)) ∧
      step (s.withFetchWord 32 w) =
        exec (decode (BitVec.ofNat 32 w))
          (latch (BitVec.ofNat 32 w) { s with phase := .idle, host := s.host.tail })

/-! ### Combinational units -/

/-- The device addresses of a bind: the full table, each pin in one address only (spec/40_bind.md R130). -/
def Obligations.DeviceAddressFormula : Prop :=
  devAddrs false false = (0x50, 0x18) ∧ devAddrs true false = (0x52, 0x18) ∧
    devAddrs false true = (0x50, 0x1C) ∧ devAddrs true true = (0x52, 0x1C) ∧
    ∀ p1 p2, devAddrs p1 p2 =
      (0x50 ||| ((BitVec.ofBool p1).setWidth 7 <<< 1), 0x18 ||| ((BitVec.ofBool p2).setWidth 7 <<< 2))

/-- `CauseOf`: 1 to 1, 2 to 2, 3 to 3 and every value from 4 to 255 to 4 (spec/60_exceptions.md R263). -/
def Obligations.CauseOfMapsEveryStatus : Prop :=
  (causeOf 1).code = 1 ∧ (causeOf 2).code = 2 ∧ (causeOf 3).code = 3 ∧ ∀ st : Byte, 4 ≤ st → (causeOf st).code = 4

/-- The new status byte of SET_AUTOSTORE has bit 1 as asked and every other bit as read (spec/43_status_bits.md
R205). -/
def Obligations.AutostoreByteChangesOnlyBitOne : Prop :=
  ∀ (en : Bool) (b : Byte),
    (autostoreByte en b).getLsbD 1 = en ∧ ∀ k, k ≠ 1 → (autostoreByte en b).getLsbD k = b.getLsbD k

/-! ### The port (spec/44_sequencer.md) -/

/-- A step in IDLE with a command presented latches the fields of the word and is the meaning of the decoded command
(R91, R221). -/
def Obligations.StepRunsAcceptedCommand : Prop :=
  ∀ (s : State) (h : HostIn) (rest : List HostIn),
    s.phase = .idle → s.host = h :: rest → h.reset = false → h.cmdValid = true →
    step s = exec (decode h.cmdWord)
      { s with
        host := rest
        op := h.cmdWord.extractLsb' 28 4
        cPin2 := h.cmdWord.getLsbD 25
        cPin1 := h.cmdWord.getLsbD 24
        cAddr := h.cmdWord.extractLsb' 8 16
        cBus := h.cmdWord.extractLsb' 8 16
        cData := h.cmdWord.extractLsb' 0 8
        cEn := h.cmdWord.getLsbD 0 }

/-- Outside IDLE neither `cmd_valid` nor `cmd_word` makes any difference, to a step or to a tick (R221). -/
def Obligations.CommandWordIgnoredUnlessIdle : Prop :=
  ∀ (s : State) (rest : List HostIn) (r y v v' : Bool) (w w' : CmdWord), s.phase ≠ .idle →
    step { s with host := { reset := r, cmdValid := v, cmdWord := w, rspReady := y } :: rest } =
        step { s with host := { reset := r, cmdValid := v', cmdWord := w', rspReady := y } :: rest } ∧
      tick { s with host := { reset := r, cmdValid := v, cmdWord := w, rspReady := y } :: rest } =
        tick { s with host := { reset := r, cmdValid := v', cmdWord := w', rspReady := y } :: rest }

/-- DONE is left for IDLE exactly when the host takes the response; the response registers keep their values
(R238). -/
def Obligations.ResponseHeldUntilTaken : Prop :=
  ∀ (s : State) (h : HostIn) (rest : List HostIn), s.phase = .done → s.host = h :: rest → h.reset = false →
    step s = .next { s with host := rest, phase := if h.rspReady then .idle else .done }

/-! ### Reset (spec/70_reset_and_hazards.md, spec/10_state.md R34) -/

/-- The `reset` input, in any phase: `bound` = 0, `phase` = IDLE, `rsp_cause` = 0, and no call is issued; the
environment is untouched in IDLE, and unknown, with its clock where it was, in every other phase, DONE among them
(R300, R301, R302). That DONE counts as mid-command, that the unknown environment is a list of unknown answers, and
that its clock stays where it was are the model's choices (log 10). -/
def Obligations.ResetInputEffect : Prop :=
  ∀ (s : State) (h : HostIn) (rest : List HostIn), s.host = h :: rest → h.reset = true →
    ∃ t, step s = .next t ∧ tick s = .next t ∧ t.bound = false ∧ t.phase = .idle ∧ t.rspCause = .none ∧
      t.log = s.log ∧ t.host = rest ∧ t.deadBuses = s.deadBuses ∧
      (s.phase = .idle → t.env = s.env) ∧
      (s.phase ≠ .idle → ∃ answers, t.env = .scripted { answers := answers, time := s.env.time })

/-- The values the spec gives for reset, and the outputs that follow (R34, R242). -/
def Obligations.ResetStateValues : Prop :=
  State.reset.bound = false ∧ State.reset.phase = .idle ∧ State.reset.rspCause = .none ∧
    State.reset.cmdReady = true ∧ State.reset.rspValid = false

/-! ### Invariants -/

/-- The invariant holds right after reset (spec/10_state.md R34, R36). -/
def Obligations.ResetStateMeetsInvariant : Prop := StateInv State.reset

/-- Every step keeps the invariant: legal device addresses while bound, a phase on the latched command's path, arrays
in canonical form, a capacity from 1 to 65536 (spec/00_scope.md R6, spec/10_state.md R36, spec/44_sequencer.md R222,
R227). -/
def Obligations.StepKeepsInvariant : Prop := ∀ s t : State, StateInv s → step s = .next t → StateInv t

/-- The phase machine keeps the invariant too, and under it never leaves a command's path. -/
def Obligations.TickKeepsInvariant : Prop :=
  ∀ s : State, StateInv s → (∀ t, tick s = .next t → StateInv t) ∧ ∀ f, tick s ≠ .fault f

/-! ### Which commands are refused -/

/-- A meaning refuses in exactly these cases: a command that is neither a bind nor reserved while `bound` = 0 (R222,
R272, U1), and a bind to a selector that names no transport (R110, U3; log 18). -/
def Obligations.RefusedExactlyWhen : Prop :=
  ∀ (i : Instr) (s : State) (r : Refusal),
    exec i s = .refused r ↔
      (i.isBind = false ∧ i.isReserved = false ∧ s.bound = false ∧ r = .unbound) ∨
      (∃ b p1 p2, i = .bind b p1 p2 ∧ b ∈ s.deadBuses ∧ r = .noTransport) ∨
      (i = .bindDefault ∧ (0 : BusId) ∈ s.deadBuses ∧ r = .noTransport)

/-! ### The bind commands (spec/40_bind.md) -/

/-- In every environment: a bind that ends has written the handle, both addresses and `bound`, has issued the status
read and nothing else (after the initialization, for BIND_DEFAULT), and answers true exactly when a byte came, whatever
the byte (R133); a failing one has waited at least 3000 ms. -/
def Obligations.BindOutcome : Prop :=
  ∀ (s t : State) (b : BusId) (p1 p2 : Bool) (first : List Call),
    (exec (.bind b p1 p2) s = .next t ∧ first = [] ∨
      exec .bindDefault s = .next t ∧ first = [.init] ∧ b = 0 ∧ p1 = false ∧ p2 = false) →
    t.bus = b ∧ t.memAddr = (if p1 then 0x52 else 0x50) ∧ t.regAddr = (if p2 then 0x1C else 0x18) ∧
      t.bound = true ∧ t.phase = .done ∧ SameInputs s t ∧ SameWriteRegs s t ∧ t.st = s.st ∧
      ((t.rspOk = true ∧ t.rspCause = .none ∧
          ∃ w, WaitHit w ∧ Issued s t (first ++ .request t.regAddr 1 :: (w ++ [.read t.sbyte]))) ∨
        (t.rspOk = false ∧ t.rspCause = .rspTimeout ∧ s.env.time + 3000 ≤ t.env.time ∧
          ∃ w, WaitMiss w ∧ Issued s t (first ++ .request t.regAddr 1 :: w)))

/-- BIND completes in ENV0 with true when the chip answers at the computed register address, whatever the memory
address (R131, R313). -/
def Obligations.BindCompletesInEnv0 : Prop :=
  ∀ (s : State) (e : RefEnv) (b : BusId) (p1 p2 : Bool),
    s.env = .ref e → e.isEnv0 → b ∉ s.deadBuses → e.regDev = (if p2 then 0x1C else 0x18) → e.memDev ≠ e.regDev →
    ∃ t, exec (.bind b p1 p2) s = .next t ∧ t.rspOk = true ∧ t.rspCause = .none ∧ t.phase = .done ∧
      t.bus = b ∧ t.memAddr = (if p1 then 0x52 else 0x50) ∧ t.regAddr = e.regDev ∧ t.bound = true ∧
      Issued s t [.request e.regDev 1, .now e.time, .available 1, .read e.status] ∧
      SameInputs s t ∧ SameWriteRegs s t ∧ t.st = s.st ∧ t.sbyte = e.status ∧ t.t0 = e.time ∧
      SameArrays s t ∧ t.chipStatus = some e.status ∧ t.env.time = e.time

/-- BIND_DEFAULT completes in ENV0 with true when the chip has both pins low; the default transport is initialized
before the probe (R132). -/
def Obligations.BindDefaultCompletesInEnv0 : Prop :=
  ∀ (s : State) (e : RefEnv),
    s.env = .ref e → e.isEnv0 → (0 : BusId) ∉ s.deadBuses → e.regDev = 0x18 → e.memDev ≠ 0x18 →
    ∃ t, exec .bindDefault s = .next t ∧ t.rspOk = true ∧ t.rspCause = .none ∧ t.phase = .done ∧
      t.bus = 0 ∧ t.memAddr = 0x50 ∧ t.regAddr = 0x18 ∧ t.bound = true ∧
      Issued s t [.init, .request 0x18 1, .now e.time, .available 1, .read e.status] ∧
      SameInputs s t ∧ SameWriteRegs s t ∧ t.st = s.st ∧ t.sbyte = e.status ∧ t.t0 = e.time ∧
      SameArrays s t ∧ t.chipStatus = some e.status ∧ t.env.time = e.time

/-- A BIND or BIND_DEFAULT at an address where no chip answers makes exactly 3000 polls in ENV0, takes exactly 3000 ms,
answers false with cause 5, and leaves the registers written; BIND_DEFAULT initializes the transport first (R132, R134,
R136; spec/95_test_vectors.md V2.3, V2.5). -/
def Obligations.BindToAbsentChipTimesOut : Prop :=
  ∀ (i : Instr) (s : State) (e : RefEnv) (b : BusId) (p1 p2 : Bool) (first : List Call),
    (i = .bind b p1 p2 ∧ first = [] ∨ i = .bindDefault ∧ first = [.init] ∧ b = 0 ∧ p1 = false ∧ p2 = false) →
    s.env = .ref e → e.isEnv0 → b ∉ s.deadBuses → e.absent (if p2 then 0x1C else 0x18) →
    ∃ t, exec i s = .next t ∧ t.rspOk = false ∧ t.rspCause = .rspTimeout ∧
      t.bus = b ∧ t.memAddr = (if p1 then 0x52 else 0x50) ∧ t.regAddr = (if p2 then 0x1C else 0x18) ∧
      t.bound = true ∧ t.env.time = e.time + 3000 ∧ SameArrays s t ∧
      Issued s t (first ++ .request t.regAddr 1 :: .now e.time ::
        missedPolls ((List.range 3000).map fun k => e.time + k + 1))

/-! ### READ and WRITE (spec/41_memory_access.md) -/

/-- In every environment a READ that ends has taken one of three paths: the address frame failed and nothing followed;
a byte came and is the answer; the wait timed out. The address goes high byte first to `mem_addr`, with no trailing
stop (R150, R151, R155, R156). -/
def Obligations.ReadOutcome : Prop :=
  ∀ (a : Addr) (s t : State), exec (.read a) s = .next t →
    SamePersistent s t ∧ SameInputs s t ∧ SameWriteRegs s t ∧ t.phase = .done ∧
      ((t.st ≠ 0 ∧ t.rspOk = false ∧ t.rspCause = causeOf t.st ∧
          Issued s t (frameCalls s.memAddr [a.extractLsb' 8 8, a.extractLsb' 0 8] false t.st)) ∨
        (t.st = 0 ∧ t.rspOk = true ∧ t.rspCause = .none ∧ t.rspData = t.sbyte ∧
          ∃ w, WaitHit w ∧
            Issued s t (frameCalls s.memAddr [a.extractLsb' 8 8, a.extractLsb' 0 8] false 0 ++
              .request s.memAddr 1 :: (w ++ [.read t.sbyte]))) ∨
        (t.st = 0 ∧ t.rspOk = false ∧ t.rspCause = .rspTimeout ∧ s.env.time + 3000 ≤ t.env.time ∧
          ∃ w, WaitMiss w ∧
            Issued s t (frameCalls s.memAddr [a.extractLsb' 8 8, a.extractLsb' 0 8] false 0 ++
              .request s.memAddr 1 :: w)))

/-- READ completes in ENV0 with the byte of the array, for every 16-bit address, and changes no byte (R150; V3.1 to
V3.4). -/
def Obligations.ReadCompletesInEnv0 : Prop :=
  ∀ (a : Addr) (s : State) (e : RefEnv),
    s.bound = true → s.env = .ref e → e.isEnv0 → s.memAddr = e.memDev →
    ∃ t, exec (.read a) s = .next t ∧ t.rspOk = true ∧ t.rspCause = .none ∧ s.arrayByte a = some t.rspData ∧
      t.phase = .done ∧
      Issued s t
        [.begin s.memAddr, .write (a.extractLsb' 8 8), .write (a.extractLsb' 0 8), .endFrame false 0,
          .request s.memAddr 1, .now e.time, .available 1, .read t.rspData] ∧
      SamePersistent s t ∧ SameInputs s t ∧ SameWriteRegs s t ∧ t.st = 0 ∧ t.sbyte = t.rspData ∧ t.t0 = e.time ∧
      SameArrays s t ∧ t.chipStatus = some e.status ∧ t.env.time = e.time

/-- READ in ENV0-MUTE, which never makes a byte available, fails with cause 5 after exactly 3000 polls and 3000 ms; no
byte is read (V3.6, R326). The address is one the chip has: ENV0 has them all, and the status of a frame at or above a
smaller capacity is free (log 12). -/
def Obligations.ReadFromMuteTransportTimesOut : Prop :=
  ∀ (a : Addr) (s : State) (e : RefEnv),
    s.bound = true → s.env = .ref e → e.variant = .mute → a.toNat < e.cap → s.memAddr = e.memDev →
    ∃ t, exec (.read a) s = .next t ∧ t.rspOk = false ∧ t.rspCause = .rspTimeout ∧ t.env.time = e.time + 3000 ∧
      SamePersistent s t ∧ SameArrays s t ∧
      Issued s t
        (frameCalls s.memAddr [a.extractLsb' 8 8, a.extractLsb' 0 8] false 0 ++
          .request s.memAddr 1 :: .now e.time :: missedPolls ((List.range 3000).map fun k => e.time + k + 1))

/-- In every environment a WRITE that ends has sent its one frame of three bytes, high address byte first, to
`mem_addr` and has done nothing else; it answers true for completion status 0 and for no other value (R153). -/
def Obligations.WriteOutcome : Prop :=
  ∀ (a : Addr) (v : Byte) (s t : State), exec (.write a v) s = .next t →
    Issued s t (frameCalls s.memAddr [a.extractLsb' 8 8, a.extractLsb' 0 8, v] true t.st) ∧
      (t.rspOk = true ↔ t.st = 0) ∧
      t.rspCause = (if t.st = 0 then .none else causeOf t.st) ∧ t.phase = .done ∧
      SamePersistent s t ∧ SameInputs s t ∧ SameWriteRegs s t ∧ SameReadRegs s t

/-- WRITE completes in ENV0, for every 16-bit address: the byte is stored there and every other byte of the array and
every byte of the nonvolatile copy is unchanged; no time passes (R152; V4.1, R322). -/
def Obligations.WriteCompletesInEnv0 : Prop :=
  ∀ (a : Addr) (v : Byte) (s : State) (e : RefEnv),
    s.bound = true → s.env = .ref e → e.isEnv0 → s.memAddr = e.memDev → Memory.wf e.sram →
    ∃ t, exec (.write a v) s = .next t ∧ t.rspOk = true ∧ t.rspCause = .none ∧ t.phase = .done ∧
      Issued s t
        [.begin s.memAddr, .write (a.extractLsb' 8 8), .write (a.extractLsb' 0 8), .write v, .endFrame true 0] ∧
      t.arrayByte a = some v ∧ (∀ x, x ≠ a → t.arrayByte x = s.arrayByte x) ∧ (∀ x, t.copyByte x = s.copyByte x) ∧
      SamePersistent s t ∧ SameInputs s t ∧ SameWriteRegs s t ∧ SameReadRegs s t ∧ t.st = 0 ∧
      t.chipStatus = some e.status ∧ t.env.time = e.time

/-- WRITE completes in every environment that returns from its five calls, with the status of the fifth as its result
(R152, R153, R98); no delay is made. -/
def Obligations.WriteCompletesInAnyEnvironment : Prop :=
  ∀ (a : Addr) (v : Byte) (s : State) (r1 r2 r3 r4 r5 : Answer) (rest : List Answer) (time : Nat),
    s.bound = true → s.env = .scripted { answers := r1 :: r2 :: r3 :: r4 :: r5 :: rest, time := time } →
    ∃ t, exec (.write a v) s = .next t ∧ t.st = r5.status ∧ t.rspOk = (r5.status == 0) ∧
      t.env = .scripted { answers := rest, time := time + r1.dt + r2.dt + r3.dt + r4.dt + r5.dt } ∧
      Issued s t (frameCalls s.memAddr [a.extractLsb' 8 8, a.extractLsb' 0 8, v] true r5.status)

/-- The round trip: in ENV0 a WRITE followed by a READ of the same address returns the value written, with both
results true (R154, R69). -/
def Obligations.WriteThenReadReturnsValue : Prop :=
  ∀ (a : Addr) (v : Byte) (s : State) (e : RefEnv),
    s.bound = true → s.env = .ref e → e.isEnv0 → s.memAddr = e.memDev → Memory.wf e.sram →
    ∃ t u, exec (.write a v) s = .next t ∧ t.rspOk = true ∧
      exec (.read a) (takeResponse t) = .next u ∧ u.rspOk = true ∧ u.rspData = v ∧ u.rspCause = .none

/-! ### GETSTATUS, STORE, RECALL (spec/42_register_access.md) -/

/-- In every environment a GETSTATUS that ends has issued the status read and nothing else, no register address first;
it answers the byte that came, unmasked, or false after at least 3000 ms (R170, R171, R179). -/
def Obligations.GetStatusOutcome : Prop :=
  ∀ s t : State, exec .getStatus s = .next t →
    SamePersistent s t ∧ SameInputs s t ∧ SameWriteRegs s t ∧ t.st = s.st ∧ t.phase = .done ∧
      ((t.rspOk = true ∧ t.rspCause = .none ∧ t.rspData = t.sbyte ∧
          ∃ w, WaitHit w ∧ Issued s t (.request s.regAddr 1 :: (w ++ [.read t.sbyte]))) ∨
        (t.rspOk = false ∧ t.rspCause = .rspTimeout ∧ s.env.time + 3000 ≤ t.env.time ∧
          ∃ w, WaitMiss w ∧ Issued s t (.request s.regAddr 1 :: w)))

/-- GETSTATUS completes in ENV0 with the raw status byte (R170; V5.1 to V5.3b). -/
def Obligations.GetStatusCompletesInEnv0 : Prop :=
  ∀ (s : State) (e : RefEnv),
    s.bound = true → s.env = .ref e → e.isEnv0 → s.regAddr = e.regDev → e.memDev ≠ e.regDev →
    ∃ t, exec .getStatus s = .next t ∧ t.rspOk = true ∧ t.rspCause = .none ∧ t.rspData = e.status ∧
      t.phase = .done ∧
      Issued s t [.request s.regAddr 1, .now e.time, .available 1, .read e.status] ∧
      SamePersistent s t ∧ SameInputs s t ∧ SameWriteRegs s t ∧ t.st = s.st ∧ t.sbyte = e.status ∧ t.t0 = e.time ∧
      SameArrays s t ∧ t.chipStatus = some e.status ∧ t.env.time = e.time

/-- The boundary of the wait in ENV0-LATE(d): a byte that `d` polls do not see is accepted for `d` below 3000, after
`d` ms, and times out from 3000 on (R62, V5.7, V5.7b). -/
def Obligations.LateByteBoundary : Prop :=
  ∀ (s : State) (e : RefEnv) (d : Nat),
    s.bound = true → s.env = .ref e → e.variant = .late d → s.regAddr = e.regDev → e.memDev ≠ e.regDev →
    ∃ t, exec .getStatus s = .next t ∧
      (d < 3000 → t.rspOk = true ∧ t.rspData = e.status ∧ t.env.time = e.time + d) ∧
      (3000 ≤ d → t.rspOk = false ∧ t.rspCause = .rspTimeout ∧ t.env.time = e.time + 3000)

/-- In every environment a STORE that ends has sent exactly 0x55, 0x33 to `reg_addr` in one frame ended with a stop
(R175), has waited 1 ms after it, and on success, and only then, 25 ms more before it answers. -/
def Obligations.StoreOutcome : Prop :=
  ∀ s t : State, exec .store s = .next t →
    SamePersistent s t ∧ SameInputs s t ∧ SameReadRegs s t ∧ t.wReg = 0x55 ∧ t.wVal = 0x33 ∧
      t.wOk = (t.st == 0) ∧ t.phase = .done ∧
      ((t.st = 0 ∧ t.rspOk = true ∧ t.rspCause = .none ∧ s.env.time + 26 ≤ t.env.time ∧
          Issued s t (frameCalls s.regAddr [0x55, 0x33] true 0 ++ [.delay 1, .delay 25])) ∨
        (t.st ≠ 0 ∧ t.rspOk = false ∧ t.rspCause = causeOf t.st ∧ s.env.time + 1 ≤ t.env.time ∧
          Issued s t (frameCalls s.regAddr [0x55, 0x33] true t.st ++ [.delay 1])))

/-- In every environment a RECALL that ends has sent exactly 0x55, 0xDD to `reg_addr` in one frame ended with a stop
(R177), has waited 1 ms after it, and on success, and only then, 5 ms more before it answers. -/
def Obligations.RecallOutcome : Prop :=
  ∀ s t : State, exec .recallArray s = .next t →
    SamePersistent s t ∧ SameInputs s t ∧ SameReadRegs s t ∧ t.wReg = 0x55 ∧ t.wVal = 0xDD ∧
      t.wOk = (t.st == 0) ∧ t.phase = .done ∧
      ((t.st = 0 ∧ t.rspOk = true ∧ t.rspCause = .none ∧ s.env.time + 6 ≤ t.env.time ∧
          Issued s t (frameCalls s.regAddr [0x55, 0xDD] true 0 ++ [.delay 1, .delay 5])) ∨
        (t.st ≠ 0 ∧ t.rspOk = false ∧ t.rspCause = causeOf t.st ∧ s.env.time + 1 ≤ t.env.time ∧
          Issued s t (frameCalls s.regAddr [0x55, 0xDD] true t.st ++ [.delay 1])))

/-- STORE completes in ENV0 after 26 ms: every byte of the nonvolatile copy is the array's, the array is unchanged
(R174; V6.1). -/
def Obligations.StoreCompletesInEnv0 : Prop :=
  ∀ (s : State) (e : RefEnv),
    s.bound = true → s.env = .ref e → e.isEnv0 → s.regAddr = e.regDev → e.memDev ≠ e.regDev →
    ∃ t, exec .store s = .next t ∧ t.rspOk = true ∧ t.rspCause = .none ∧ t.phase = .done ∧
      Issued s t (frameCalls s.regAddr [0x55, 0x33] true 0 ++ [.delay 1, .delay 25]) ∧
      (∀ x, t.copyByte x = s.arrayByte x) ∧ (∀ x, t.arrayByte x = s.arrayByte x) ∧
      SamePersistent s t ∧ SameInputs s t ∧ SameReadRegs s t ∧ t.st = 0 ∧ t.wReg = 0x55 ∧ t.wVal = 0x33 ∧
      t.wOk = true ∧ t.chipStatus = some e.status ∧ t.env.time = e.time + 26

/-- RECALL completes in ENV0 after 6 ms: every byte of the array is the nonvolatile copy's, the copy is unchanged
(R176; V6.2). -/
def Obligations.RecallCompletesInEnv0 : Prop :=
  ∀ (s : State) (e : RefEnv),
    s.bound = true → s.env = .ref e → e.isEnv0 → s.regAddr = e.regDev → e.memDev ≠ e.regDev →
    ∃ t, exec .recallArray s = .next t ∧ t.rspOk = true ∧ t.rspCause = .none ∧ t.phase = .done ∧
      Issued s t (frameCalls s.regAddr [0x55, 0xDD] true 0 ++ [.delay 1, .delay 5]) ∧
      (∀ x, t.arrayByte x = s.copyByte x) ∧ (∀ x, t.copyByte x = s.copyByte x) ∧
      SamePersistent s t ∧ SameInputs s t ∧ SameReadRegs s t ∧ t.st = 0 ∧ t.wReg = 0x55 ∧ t.wVal = 0xDD ∧
      t.wOk = true ∧ t.chipStatus = some e.status ∧ t.env.time = e.time + 6

/-- In every environment that returns from its calls, a STORE or RECALL whose frame succeeds answers no earlier than
its completion delay after `T.end` returned: 25 ms, 26 with the settling delay, and 5 ms, 6 with it (R325). The fourth
call is `T.end`. -/
def Obligations.StoreAndRecallBlockForTheirDelay : Prop :=
  ∀ (s : State) (r1 r2 r3 r4 r5 r6 : Answer) (rest : List Answer) (time : Nat),
    s.bound = true → s.env = .scripted { answers := r1 :: r2 :: r3 :: r4 :: r5 :: r6 :: rest, time := time } →
    r4.status = 0 →
    (∃ t, exec .store s = .next t ∧ t.rspOk = true ∧
        time + r1.dt + r2.dt + r3.dt + r4.dt + 26 ≤ t.env.time) ∧
      ∃ t, exec .recallArray s = .next t ∧ t.rspOk = true ∧ time + r1.dt + r2.dt + r3.dt + r4.dt + 6 ≤ t.env.time

/-- A STORE or RECALL frame that reaches the chip while an earlier one is running leaves the chip unknown: every later
answer is a free value (R178, R311, U2). The case a run can come to is R311 (a): on a transport whose frames the chip
takes although they report the status `k` (log 19), the first frame starts the chip's 25 or 5 ms and a second one
within them leaves the chip unknown. In plain ENV0 it is the same, from states with a store running. The form "unknown
answers from the same time on" is the model's choice (log 11). -/
def Obligations.ReissueLeavesChipUnknown : Prop :=
  ∀ (e : RefEnv) (k v : Byte), e.txdev = e.regDev → e.memDev ≠ e.regDev → e.txbuf = [0x55, v] →
    (v = 0x33 ∨ v = 0xDD) →
    (e.variant = .takenButFailing k →
      (e.busyUnseen = true →
        e.endFrame = (k, .scripted { answers := Config.anyAnswers (.ref e), time := e.time })) ∧
      (e.busyUnseen = false →
        ∃ f : RefEnv, e.endFrame = (k, .ref f) ∧ f.variant = e.variant ∧ f.time = e.time ∧
          f.busyUntil = e.time + (if v = 0x33 then 25 else 5) ∧ f.busyUnseen = true)) ∧
    (e.variant = .plain → e.time < e.busyUntil →
      e.endFrame.2 = .scripted { answers := Config.anyAnswers (.ref e), time := e.time })

/-! ### The queries and SET_AUTOSTORE (spec/43_status_bits.md) -/

/-- In every environment each of the four queries that ends has issued one status read and nothing else; it answers
the condition on the byte that came, and false, not an error, when the status read fails (R204). -/
def Obligations.QueryOutcome : Prop :=
  ∀ p ∈ [(Instr.isEvent, 0x01#8), (Instr.isAutostore, 0x02#8), (Instr.isWrprot, 0x1C#8), (Instr.isModified, 0x80#8)],
    ∀ s t : State, exec p.1 s = .next t →
      SamePersistent s t ∧ SameInputs s t ∧ SameWriteRegs s t ∧ t.st = s.st ∧ t.phase = .done ∧
        ((t.rspCause = .none ∧ (t.rspOk = true ↔ t.sbyte &&& p.2 ≠ 0) ∧
            ∃ w, WaitHit w ∧ Issued s t (.request s.regAddr 1 :: (w ++ [.read t.sbyte]))) ∨
          (t.rspOk = false ∧ t.rspCause = .rspTimeout ∧ s.env.time + 3000 ≤ t.env.time ∧
            ∃ w, WaitMiss w ∧ Issued s t (.request s.regAddr 1 :: w)))

/-- IS_EVENT, IS_AUTOSTORE, IS_WRPROT and IS_MODIFIED complete in ENV0 with the condition on the chip's STATUS, which
they leave as it is (R200 to R203; V7.1). -/
def Obligations.QueriesCompleteInEnv0 : Prop :=
  ∀ p ∈ [(Instr.isEvent, 0x01#8), (Instr.isAutostore, 0x02#8), (Instr.isWrprot, 0x1C#8), (Instr.isModified, 0x80#8)],
    ∀ (s : State) (e : RefEnv),
      s.bound = true → s.env = .ref e → e.isEnv0 → s.regAddr = e.regDev → e.memDev ≠ e.regDev →
      ∃ t, exec p.1 s = .next t ∧ (t.rspOk = true ↔ e.status &&& p.2 ≠ 0) ∧ t.rspCause = .none ∧ t.phase = .done ∧
        Issued s t [.request s.regAddr 1, .now e.time, .available 1, .read e.status] ∧
        SamePersistent s t ∧ SameInputs s t ∧ SameWriteRegs s t ∧ t.st = s.st ∧ t.sbyte = e.status ∧
        t.t0 = e.time ∧ SameArrays s t ∧ t.chipStatus = some e.status ∧ t.env.time = e.time

/-- In every environment a SET_AUTOSTORE that ends has read the status first; where no byte came it has written
nothing and waited no delay; where a byte came it has written it back to register 0x00 with bit 1 changed, has waited
1 ms whatever the frame's status, and answers that status (R205). -/
def Obligations.SetAutostoreOutcome : Prop :=
  ∀ (en : Bool) (s t : State), exec (.setAutostore en) s = .next t →
    SamePersistent s t ∧ SameInputs s t ∧ t.phase = .done ∧
      ((t.rspOk = false ∧ t.rspCause = .rspTimeout ∧ s.env.time + 3000 ≤ t.env.time ∧ SameWriteRegs s t ∧
          t.st = s.st ∧ ∃ w, WaitMiss w ∧ Issued s t (.request s.regAddr 1 :: w)) ∨
        ((t.rspOk = true ↔ t.st = 0) ∧ t.rspCause = (if t.st = 0 then .none else causeOf t.st) ∧
          s.env.time + 1 ≤ t.env.time ∧ t.wReg = 0x00 ∧ t.wOk = (t.st == 0) ∧
          t.wVal = (if en then t.sbyte ||| 0x02 else t.sbyte &&& 0xFD) ∧
          ∃ w, WaitHit w ∧
            Issued s t (.request s.regAddr 1 ::
              (w ++ .read t.sbyte :: (frameCalls s.regAddr [0x00, t.wVal] true t.st ++ [.delay 1])))))

/-- SET_AUTOSTORE completes in ENV0 after 1 ms: the chip's STATUS is the byte read with bit 1 set or cleared, also
where the bit already had that value (R205; V8.1, V8.2). -/
def Obligations.SetAutostoreCompletesInEnv0 : Prop :=
  ∀ (en : Bool) (s : State) (e : RefEnv),
    s.bound = true → s.env = .ref e → e.isEnv0 → s.regAddr = e.regDev → e.memDev ≠ e.regDev →
    ∃ t, exec (.setAutostore en) s = .next t ∧ t.rspOk = true ∧ t.rspCause = .none ∧ t.phase = .done ∧
      t.wVal = (if en then e.status ||| 0x02 else e.status &&& 0xFD) ∧ t.chipStatus = some t.wVal ∧
      Issued s t
        ([.request s.regAddr 1, .now e.time, .available 1, .read e.status] ++
          frameCalls s.regAddr [0x00, t.wVal] true 0 ++ [.delay 1]) ∧
      SamePersistent s t ∧ SameInputs s t ∧ t.wReg = 0x00 ∧ t.wOk = true ∧ t.st = 0 ∧ t.sbyte = e.status ∧
      t.t0 = e.time ∧ SameArrays s t ∧ t.env.time = e.time + 1

/-- In ENV0 SET_AUTOSTORE followed by IS_AUTOSTORE answers what was set (R207). -/
def Obligations.AutostoreRoundTrip : Prop :=
  ∀ (en : Bool) (s : State) (e : RefEnv),
    s.bound = true → s.env = .ref e → e.isEnv0 → s.regAddr = e.regDev → e.memDev ≠ e.regDev →
    ∃ t u, exec (.setAutostore en) s = .next t ∧ t.rspOk = true ∧
      exec .isAutostore (takeResponse t) = .next u ∧ u.rspOk = en ∧ u.rspCause = .none

/-! ### Failures (spec/60_exceptions.md) -/

/-- Where no chip answers at `reg_addr`, GETSTATUS, the four queries and SET_AUTOSTORE each make exactly 3000 polls in
ENV0, take 3000 ms, answer false with cause 5 and issue nothing after the wait (R264; V5.4, V7.3, V8.3a). -/
def Obligations.AbsentChipReadsTimeOut : Prop :=
  ∀ i ∈ [Instr.getStatus, .isEvent, .isAutostore, .isWrprot, .isModified, .setAutostore true, .setAutostore false],
    ∀ (s : State) (e : RefEnv),
      s.bound = true → s.env = .ref e → e.isEnv0 → e.absent s.regAddr →
      ∃ t, exec i s = .next t ∧ t.rspOk = false ∧ t.rspCause = .rspTimeout ∧ t.env.time = e.time + 3000 ∧
        SamePersistent s t ∧ SameArrays s t ∧ t.chipStatus = some e.status ∧
        Issued s t (.request s.regAddr 1 :: .now e.time ::
          missedPolls ((List.range 3000).map fun k => e.time + k + 1))

/-- On a transport whose every frame ends with a status `k` other than 0 (ENV0-ST(k)), READ, WRITE, STORE, RECALL and
SET_AUTOSTORE (whose status read succeeds) answer false with the cause of `k`; nothing follows the frame but the
settling delay of a register write, and the chip's arrays and STATUS are unchanged (R226, R264, R269; V3.5, V4.3, V6.3,
V6.4, V8.3b, V8.3c). -/
def Obligations.FailingTransportFailsEveryFrame : Prop :=
  ∀ (k : Byte) (a : Addr) (v : Byte) (s : State) (e : RefEnv),
    s.bound = true → s.env = .ref e → e.variant = .failing k → k ≠ 0 →
    (∀ p ∈ [(Instr.read a, frameCalls s.memAddr [a.extractLsb' 8 8, a.extractLsb' 0 8] false k),
        (Instr.write a v, frameCalls s.memAddr [a.extractLsb' 8 8, a.extractLsb' 0 8, v] true k),
        (Instr.store, frameCalls s.regAddr [0x55, 0x33] true k ++ [.delay 1]),
        (Instr.recallArray, frameCalls s.regAddr [0x55, 0xDD] true k ++ [.delay 1])],
      ∃ t, exec p.1 s = .next t ∧ t.rspOk = false ∧ t.rspCause = causeOf k ∧ Issued s t p.2 ∧
        SamePersistent s t ∧ SameArrays s t ∧ t.chipStatus = some e.status) ∧
    ∀ en : Bool, s.regAddr = e.regDev → e.memDev ≠ e.regDev →
      ∃ t, exec (.setAutostore en) s = .next t ∧ t.rspOk = false ∧ t.rspCause = causeOf k ∧
        t.wVal = (if en then e.status ||| 0x02 else e.status &&& 0xFD) ∧
        Issued s t
          ([.request s.regAddr 1, .now e.time, .available 1, .read e.status] ++
            frameCalls s.regAddr [0x00, t.wVal] true k ++ [.delay 1]) ∧
        SamePersistent s t ∧ SameInputs s t ∧ SameArrays s t ∧ t.chipStatus = some e.status ∧
        t.env.time = e.time + 1

/-- In ENV0 a frame that no device takes is an address NACK: READ and WRITE with no chip at `mem_addr`, STORE and RECALL
with none at `reg_addr`, answer false with cause 2, and the chip's arrays and STATUS are unchanged (R75, R263, R313;
V3.10, V4.7, V6.7, V6.8). -/
def Obligations.AbsentChipNacksFrames : Prop :=
  ∀ (a : Addr) (v : Byte) (s : State) (e : RefEnv), s.bound = true → s.env = .ref e → e.isEnv0 →
    ∀ p ∈ [(Instr.read a, s.memAddr, frameCalls s.memAddr [a.extractLsb' 8 8, a.extractLsb' 0 8] false 2),
        (Instr.write a v, s.memAddr, frameCalls s.memAddr [a.extractLsb' 8 8, a.extractLsb' 0 8, v] true 2),
        (Instr.store, s.regAddr, frameCalls s.regAddr [0x55, 0x33] true 2 ++ [.delay 1]),
        (Instr.recallArray, s.regAddr, frameCalls s.regAddr [0x55, 0xDD] true 2 ++ [.delay 1])],
      e.absent p.2.1 →
      ∃ t, exec p.1 s = .next t ∧ t.rspOk = false ∧ t.rspCause.code = 2 ∧ t.st = 2 ∧ Issued s t p.2.2 ∧
        SamePersistent s t ∧ SameArrays s t ∧ t.chipStatus = some e.status

/-- A reserved opcode completes at once, bound or not: `rsp_ok` = 0, cause 6, no call issued and nothing else changed
(spec/30_encoding.md R94). -/
def Obligations.ReservedCommandsComplete : Prop :=
  ∀ i ∈ [Instr.reservedC, .reservedD, .reservedE, .reservedF], ∀ s : State,
    ∃ t, exec i s = .next t ∧ t.rspOk = false ∧ t.rspCause.code = 6 ∧
      t = { s with rspOk := false, rspCause := .illegalCmd, rspData := t.rspData, draws := t.draws, phase := .done }

/-! ### What commands keep and what they issue -/

/-- Only the binds write `mem_addr`, `reg_addr` and `bus`, and a bind overwrites them whatever they held
(spec/10_state.md R35). `bound` likewise. -/
def Obligations.OnlyBindsWriteTheBinding : Prop :=
  (∀ (i : Instr) (s t : State), i.isBind = false → exec i s = .next t → SamePersistent s t) ∧
    (∀ (b : BusId) (p1 p2 : Bool) (s t : State), exec (.bind b p1 p2) s = .next t →
      t.bus = b ∧ (t.memAddr, t.regAddr) = devAddrs p1 p2 ∧ t.bound = true) ∧
    ∀ s t : State, exec .bindDefault s = .next t →
      t.bus = 0 ∧ (t.memAddr, t.regAddr) = devAddrs false false ∧ t.bound = true

/-- The frames of a command go to the device the mapper gives it, and so do its read requests, of one byte each; a
command the mapper gives none has none (spec/30_encoding.md R102). -/
def Obligations.CommandsUseMappedDevices : Prop :=
  ∀ (i : Instr) (s t : State), exec i s = .next t →
    ∃ l, Issued s t l ∧ ∀ c ∈ l,
      (∀ d, c = .begin d → (deviceMap i t).1 = some d) ∧
        ∀ d n, c = .request d n → (deviceMap i t).2 = some d ∧ n = 1

/-- While the device addresses are legal, no call carries a device address other than 0x50, 0x52, 0x18 and 0x1C
(spec/20_memory.md R52). -/
def Obligations.OnlyFourDeviceAddresses : Prop :=
  ∀ (i : Instr) (s t : State), AddressesLegal s → exec i s = .next t →
    ∃ l, Issued s t l ∧ ∀ c ∈ l, ∀ d, c.dev = some d → d = 0x50 ∨ d = 0x52 ∨ d = 0x18 ∨ d = 0x1C

/-- Bounds on the calls of one command (spec/44_sequencer.md R245). -/
def Obligations.PrimitiveCallCounts : Prop :=
  ∀ (i : Instr) (s t : State), exec i s = .next t →
    ∃ l, Issued s t l ∧ countKind .begin l ≤ 1 ∧ countKind .endFrame l = countKind .begin l ∧
      countKind .write l ≤ 3 ∧ countKind .request l ≤ 1 ∧ countKind .read l ≤ countKind .request l ∧
      countKind .init l ≤ 1 ∧ countKind .delay l ≤ 2

/-- The bound on the polls never cuts a wait short: a wait that starts now ends the same with any larger bound
(spec/20_memory.md R62; log 22). -/
def Obligations.PollBoundNeverCutsAWait : Prop :=
  ∀ (s : State) (n : Nat), s.t0 = s.env.time → s.env.pollBound ≤ n → pollLoop n s = pollLoop s.env.pollBound s

/-- The clock does not go back over a command (spec/20_memory.md R63). -/
def Obligations.TimeNeverGoesBack : Prop :=
  ∀ (i : Instr) (s t : State), exec i s = .next t → s.env.time ≤ t.env.time

/-- A wrapping counter of 32 bits measures every interval below 2^32 ms right (spec/00_scope.md R10). -/
def Obligations.WrappedCounterAgrees : Prop :=
  ∀ now t0 : Nat, t0 ≤ now → now - t0 < 2 ^ 32 → wrappedElapsed 32 now t0 = now - t0

/-! ### The phase machine (spec/44_sequencer.md) -/

/-- A command run phase by phase reaches the state its meaning gives: ticks from an accepting IDLE, with no further
input, come to the state of the one step (R222 to R231; D22). -/
def Obligations.TicksReachStep : Prop :=
  ∀ (s t : State) (h : HostIn), s.phase = .idle → s.host = [h] → h.reset = false → step s = .next t →
    ∃ n, tickRun n s = .next t

/-- Where a command's meaning faults because a primitive never returns, the ticks come to a phase of the command in
which the block waits for ever (R316, U13), and where it refuses, the first tick refuses alike. -/
def Obligations.TicksWaitWhereCommandHangs : Prop :=
  ∀ (s : State) (h : HostIn), s.phase = .idle → s.host = [h] → h.reset = false →
    (∀ f, step s = .fault f → f = .primitiveNeverReturns ∧
      ∃ n u, tickRun n s = .next u ∧ Stuck u ∧ tick u = .next u) ∧
    ∀ r, step s = .refused r → tick s = .refused r

/-- A stuck block stays in its phase whatever the host presents, and `reset` brings it back to IDLE (R316). -/
def Obligations.StuckBlockRecoversByReset : Prop :=
  ∀ (s : State) (h : HostIn) (rest : List HostIn), Stuck s → s.host = h :: rest →
    (h.reset = false → tick s = .next { s with host := rest }) ∧
      (h.reset = true → ∃ t, tick s = .next t ∧ t.phase = .idle ∧ t.bound = false)

/-! ### History and completion -/

/-- What a command issues and answers is a function of the persistent registers, the command and the environment: two
states that agree on those end alike, whatever their response, working and latch registers hold
(spec/44_sequencer.md R241, R244). R244 makes the response a function of the values the environment returns; that equal
environments return equal values also for frames and reads at or above `CAP` (log 12) and for a STORE or RECALL, or any
access, inside a running one (log 11) is the model's own choice: the free values there are fixed functions of the
environment's state, with no draw. -/
def Obligations.HistoryDoesNotMatter : Prop :=
  ∀ (i : Instr) (s u : State), SamePersistent s u → u.env = s.env → u.deadBuses = s.deadBuses →
    (∀ t, exec i s = .next t → ∃ v l, exec i u = .next v ∧ Issued s t l ∧ Issued u v l ∧
      v.rspOk = t.rspOk ∧ v.rspCause = t.rspCause ∧ v.env = t.env ∧ SamePersistent t v ∧
      (t.rspOk = true → i = .getStatus ∨ (∃ a, i = .read a) → v.rspData = t.rspData)) ∧
    (∀ f, exec i s = .fault f → exec i u = .fault f) ∧
    ∀ r, exec i s = .refused r → exec i u = .refused r

/-- In ENV0 every command that is not refused completes: no ordinary operand, register value or chip content stops it,
whatever other selectors name no transport (R245, R270). -/
def Obligations.EveryCommandCompletesInEnv0 : Prop :=
  ∀ (i : Instr) (s : State) (e : RefEnv), s.env = .ref e → e.isEnv0 →
    (∀ b p1 p2, i = .bind b p1 p2 → b ∉ s.deadBuses) → (i = .bindDefault → (0 : BusId) ∉ s.deadBuses) →
    (i.isBind = true ∨ i.isReserved = true ∨ s.bound = true) →
    ∃ t, exec i s = .next t ∧ t.phase = .done

/-! ### Where the spec leaves the chip open (R178, R311, R314) -/

/-- R311 (a) at the commands: on a transport whose frames the chip takes although they report a failure `k` (log 19), a
STORE or RECALL answers false with the cause of `k` after 1 ms only, although the chip has run it and is still busy. The
last clause is the model's own choice (log 11): while the chip is busy every frame and every read request leaves it
unknown, also one to an address no device has. R178 speaks of re-issuing STORE or RECALL alone, and R311 and N8 leave
the other accesses open; the form of unknown is log 11's too. -/
def Obligations.UnseenStoreLeavesChipBusy : Prop :=
  ∀ (k : Byte) (s : State) (e : RefEnv),
    s.bound = true → s.env = .ref e → e.variant = .takenButFailing k → k ≠ 0 → e.busyUntil ≤ e.time →
    s.regAddr = e.regDev → e.memDev ≠ e.regDev →
    (∃ t f, exec .store s = .next t ∧ t.rspOk = false ∧ t.rspCause = causeOf k ∧
        Issued s t (frameCalls s.regAddr [0x55, 0x33] true k ++ [.delay 1]) ∧ SamePersistent s t ∧
        (∀ x, t.copyByte x = s.arrayByte x) ∧ (∀ x, t.arrayByte x = s.arrayByte x) ∧
        t.env = .ref f ∧ f.time = e.time + 1 ∧ f.busyUntil = e.time + 25 ∧ f.busyUnseen = true) ∧
      (∃ t f, exec .recallArray s = .next t ∧ t.rspOk = false ∧ t.rspCause = causeOf k ∧
        Issued s t (frameCalls s.regAddr [0x55, 0xDD] true k ++ [.delay 1]) ∧ SamePersistent s t ∧
        (∀ x, t.arrayByte x = s.copyByte x) ∧ (∀ x, t.copyByte x = s.copyByte x) ∧
        t.env = .ref f ∧ f.time = e.time + 1 ∧ f.busyUntil = e.time + 5 ∧ f.busyUnseen = true) ∧
      ∀ f : RefEnv, f.variant = .takenButFailing k → f.busyUnseen = true →
        f.endFrame = (k, .scripted { answers := Config.anyAnswers (.ref f), time := f.time }) ∧
          ∀ a n, (Env.ref f).request a n =
            some (.scripted { answers := Config.anyAnswers (.ref f), time := f.time })

/-- A READ or WRITE at or above the chip's capacity completes too: the block sends the address as it is (R51, R314). A
WRITE succeeds for the status 0 alone; a READ whose frame has another status fails with its cause and issues nothing
more. What the chip answers is free, and that a READ there leaves the array and the nonvolatile copy as they were is
the model's own choice (log 12). -/
def Obligations.BeyondCapacityCompletes : Prop :=
  ∀ (a : Addr) (v : Byte) (s : State) (e : RefEnv),
    s.bound = true → s.env = .ref e → e.variant = .plain → s.memAddr = e.memDev → e.cap ≤ a.toNat →
    (∃ t, exec (.write a v) s = .next t ∧ (t.rspOk = true ↔ t.st = 0) ∧
        Issued s t (frameCalls s.memAddr [a.extractLsb' 8 8, a.extractLsb' 0 8, v] true t.st)) ∧
      ∃ t, exec (.read a) s = .next t ∧ t.phase = .done ∧ SameArrays s t ∧
        (t.st ≠ 0 → t.rspOk = false ∧ t.rspCause = causeOf t.st) ∧
        ∃ l, Issued s t (frameCalls s.memAddr [a.extractLsb' 8 8, a.extractLsb' 0 8] false t.st ++ l) ∧
          (t.st ≠ 0 → l = [])
end

