-- ==== Sys2Proof/Laws/State.lean ====
section
/-! SUPPORT. One lemma per field per named update of the state, true by definition, so that no proof unfolds a record
update. -/

namespace Sys2Proof.Machine

open Sys2Proof

/-! `State.note` -/

@[simp] theorem note_memAddr (c : Call) (e : Env) (s : State) : (s.note c e).memAddr = s.memAddr := rfl
@[simp] theorem note_regAddr (c : Call) (e : Env) (s : State) : (s.note c e).regAddr = s.regAddr := rfl
@[simp] theorem note_bus (c : Call) (e : Env) (s : State) : (s.note c e).bus = s.bus := rfl
@[simp] theorem note_bound (c : Call) (e : Env) (s : State) : (s.note c e).bound = s.bound := rfl
@[simp] theorem note_phase (c : Call) (e : Env) (s : State) : (s.note c e).phase = s.phase := rfl
@[simp] theorem note_op (c : Call) (e : Env) (s : State) : (s.note c e).op = s.op := rfl
@[simp] theorem note_cAddr (c : Call) (e : Env) (s : State) : (s.note c e).cAddr = s.cAddr := rfl
@[simp] theorem note_cData (c : Call) (e : Env) (s : State) : (s.note c e).cData = s.cData := rfl
@[simp] theorem note_cPin1 (c : Call) (e : Env) (s : State) : (s.note c e).cPin1 = s.cPin1 := rfl
@[simp] theorem note_cPin2 (c : Call) (e : Env) (s : State) : (s.note c e).cPin2 = s.cPin2 := rfl
@[simp] theorem note_cEn (c : Call) (e : Env) (s : State) : (s.note c e).cEn = s.cEn := rfl
@[simp] theorem note_cBus (c : Call) (e : Env) (s : State) : (s.note c e).cBus = s.cBus := rfl
@[simp] theorem note_st (c : Call) (e : Env) (s : State) : (s.note c e).st = s.st := rfl
@[simp] theorem note_sbyte (c : Call) (e : Env) (s : State) : (s.note c e).sbyte = s.sbyte := rfl
@[simp] theorem note_t0 (c : Call) (e : Env) (s : State) : (s.note c e).t0 = s.t0 := rfl
@[simp] theorem note_wReg (c : Call) (e : Env) (s : State) : (s.note c e).wReg = s.wReg := rfl
@[simp] theorem note_wVal (c : Call) (e : Env) (s : State) : (s.note c e).wVal = s.wVal := rfl
@[simp] theorem note_wOk (c : Call) (e : Env) (s : State) : (s.note c e).wOk = s.wOk := rfl
@[simp] theorem note_rspOk (c : Call) (e : Env) (s : State) : (s.note c e).rspOk = s.rspOk := rfl
@[simp] theorem note_rspData (c : Call) (e : Env) (s : State) : (s.note c e).rspData = s.rspData := rfl
@[simp] theorem note_rspCause (c : Call) (e : Env) (s : State) : (s.note c e).rspCause = s.rspCause := rfl
@[simp] theorem note_env (c : Call) (e : Env) (s : State) : (s.note c e).env = e := rfl
@[simp] theorem note_deadBuses (c : Call) (e : Env) (s : State) : (s.note c e).deadBuses = s.deadBuses := rfl
@[simp] theorem note_host (c : Call) (e : Env) (s : State) : (s.note c e).host = s.host := rfl
@[simp] theorem note_log (c : Call) (e : Env) (s : State) : (s.note c e).log = { bus := s.bus, call := c } :: s.log := rfl
@[simp] theorem note_draws (c : Call) (e : Env) (s : State) : (s.note c e).draws = s.draws := rfl

/-! `respond` -/

@[simp] theorem respond_memAddr (ok : Bool) (c : Cause) (d : Option Byte) (s : State) : (respond ok c d s).memAddr = s.memAddr := rfl
@[simp] theorem respond_regAddr (ok : Bool) (c : Cause) (d : Option Byte) (s : State) : (respond ok c d s).regAddr = s.regAddr := rfl
@[simp] theorem respond_bus (ok : Bool) (c : Cause) (d : Option Byte) (s : State) : (respond ok c d s).bus = s.bus := rfl
@[simp] theorem respond_bound (ok : Bool) (c : Cause) (d : Option Byte) (s : State) : (respond ok c d s).bound = s.bound := rfl
@[simp] theorem respond_phase (ok : Bool) (c : Cause) (d : Option Byte) (s : State) : (respond ok c d s).phase = .done := rfl
@[simp] theorem respond_op (ok : Bool) (c : Cause) (d : Option Byte) (s : State) : (respond ok c d s).op = s.op := rfl
@[simp] theorem respond_cAddr (ok : Bool) (c : Cause) (d : Option Byte) (s : State) : (respond ok c d s).cAddr = s.cAddr := rfl
@[simp] theorem respond_cData (ok : Bool) (c : Cause) (d : Option Byte) (s : State) : (respond ok c d s).cData = s.cData := rfl
@[simp] theorem respond_cPin1 (ok : Bool) (c : Cause) (d : Option Byte) (s : State) : (respond ok c d s).cPin1 = s.cPin1 := rfl
@[simp] theorem respond_cPin2 (ok : Bool) (c : Cause) (d : Option Byte) (s : State) : (respond ok c d s).cPin2 = s.cPin2 := rfl
@[simp] theorem respond_cEn (ok : Bool) (c : Cause) (d : Option Byte) (s : State) : (respond ok c d s).cEn = s.cEn := rfl
@[simp] theorem respond_cBus (ok : Bool) (c : Cause) (d : Option Byte) (s : State) : (respond ok c d s).cBus = s.cBus := rfl
@[simp] theorem respond_st (ok : Bool) (c : Cause) (d : Option Byte) (s : State) : (respond ok c d s).st = s.st := rfl
@[simp] theorem respond_sbyte (ok : Bool) (c : Cause) (d : Option Byte) (s : State) : (respond ok c d s).sbyte = s.sbyte := rfl
@[simp] theorem respond_t0 (ok : Bool) (c : Cause) (d : Option Byte) (s : State) : (respond ok c d s).t0 = s.t0 := rfl
@[simp] theorem respond_wReg (ok : Bool) (c : Cause) (d : Option Byte) (s : State) : (respond ok c d s).wReg = s.wReg := rfl
@[simp] theorem respond_wVal (ok : Bool) (c : Cause) (d : Option Byte) (s : State) : (respond ok c d s).wVal = s.wVal := rfl
@[simp] theorem respond_wOk (ok : Bool) (c : Cause) (d : Option Byte) (s : State) : (respond ok c d s).wOk = s.wOk := rfl
@[simp] theorem respond_rspOk (ok : Bool) (c : Cause) (d : Option Byte) (s : State) : (respond ok c d s).rspOk = ok := rfl
@[simp] theorem respond_rspData (ok : Bool) (c : Cause) (d : Option Byte) (s : State) : (respond ok c d s).rspData = match d with | some b => b | none => Config.freeByte s.draws := rfl
@[simp] theorem respond_rspCause (ok : Bool) (c : Cause) (d : Option Byte) (s : State) : (respond ok c d s).rspCause = c := rfl
@[simp] theorem respond_env (ok : Bool) (c : Cause) (d : Option Byte) (s : State) : (respond ok c d s).env = s.env := rfl
@[simp] theorem respond_deadBuses (ok : Bool) (c : Cause) (d : Option Byte) (s : State) : (respond ok c d s).deadBuses = s.deadBuses := rfl
@[simp] theorem respond_host (ok : Bool) (c : Cause) (d : Option Byte) (s : State) : (respond ok c d s).host = s.host := rfl
@[simp] theorem respond_log (ok : Bool) (c : Cause) (d : Option Byte) (s : State) : (respond ok c d s).log = s.log := rfl
@[simp] theorem respond_draws (ok : Bool) (c : Cause) (d : Option Byte) (s : State) : (respond ok c d s).draws = s.draws + 1 := rfl

/-! `latch` -/

@[simp] theorem latch_memAddr (w : CmdWord) (s : State) : (latch w s).memAddr = s.memAddr := rfl
@[simp] theorem latch_regAddr (w : CmdWord) (s : State) : (latch w s).regAddr = s.regAddr := rfl
@[simp] theorem latch_bus (w : CmdWord) (s : State) : (latch w s).bus = s.bus := rfl
@[simp] theorem latch_bound (w : CmdWord) (s : State) : (latch w s).bound = s.bound := rfl
@[simp] theorem latch_phase (w : CmdWord) (s : State) : (latch w s).phase = s.phase := rfl
@[simp] theorem latch_op (w : CmdWord) (s : State) : (latch w s).op = (fields w).op := rfl
@[simp] theorem latch_cAddr (w : CmdWord) (s : State) : (latch w s).cAddr = (fields w).addr := rfl
@[simp] theorem latch_cData (w : CmdWord) (s : State) : (latch w s).cData = (fields w).data := rfl
@[simp] theorem latch_cPin1 (w : CmdWord) (s : State) : (latch w s).cPin1 = (fields w).pin1 := rfl
@[simp] theorem latch_cPin2 (w : CmdWord) (s : State) : (latch w s).cPin2 = (fields w).pin2 := rfl
@[simp] theorem latch_cEn (w : CmdWord) (s : State) : (latch w s).cEn = (fields w).en := rfl
@[simp] theorem latch_cBus (w : CmdWord) (s : State) : (latch w s).cBus = (fields w).bus := rfl
@[simp] theorem latch_st (w : CmdWord) (s : State) : (latch w s).st = s.st := rfl
@[simp] theorem latch_sbyte (w : CmdWord) (s : State) : (latch w s).sbyte = s.sbyte := rfl
@[simp] theorem latch_t0 (w : CmdWord) (s : State) : (latch w s).t0 = s.t0 := rfl
@[simp] theorem latch_wReg (w : CmdWord) (s : State) : (latch w s).wReg = s.wReg := rfl
@[simp] theorem latch_wVal (w : CmdWord) (s : State) : (latch w s).wVal = s.wVal := rfl
@[simp] theorem latch_wOk (w : CmdWord) (s : State) : (latch w s).wOk = s.wOk := rfl
@[simp] theorem latch_rspOk (w : CmdWord) (s : State) : (latch w s).rspOk = s.rspOk := rfl
@[simp] theorem latch_rspData (w : CmdWord) (s : State) : (latch w s).rspData = s.rspData := rfl
@[simp] theorem latch_rspCause (w : CmdWord) (s : State) : (latch w s).rspCause = s.rspCause := rfl
@[simp] theorem latch_env (w : CmdWord) (s : State) : (latch w s).env = s.env := rfl
@[simp] theorem latch_deadBuses (w : CmdWord) (s : State) : (latch w s).deadBuses = s.deadBuses := rfl
@[simp] theorem latch_host (w : CmdWord) (s : State) : (latch w s).host = s.host := rfl
@[simp] theorem latch_log (w : CmdWord) (s : State) : (latch w s).log = s.log := rfl
@[simp] theorem latch_draws (w : CmdWord) (s : State) : (latch w s).draws = s.draws := rfl

/-! `bindRegs` -/

@[simp] theorem bindRegs_memAddr (b : BusId) (p1 p2 : Bool) (s : State) : (bindRegs b p1 p2 s).memAddr = (devAddrs p1 p2).1 := rfl
@[simp] theorem bindRegs_regAddr (b : BusId) (p1 p2 : Bool) (s : State) : (bindRegs b p1 p2 s).regAddr = (devAddrs p1 p2).2 := rfl
@[simp] theorem bindRegs_bus (b : BusId) (p1 p2 : Bool) (s : State) : (bindRegs b p1 p2 s).bus = b := rfl
@[simp] theorem bindRegs_bound (b : BusId) (p1 p2 : Bool) (s : State) : (bindRegs b p1 p2 s).bound = true := rfl
@[simp] theorem bindRegs_phase (b : BusId) (p1 p2 : Bool) (s : State) : (bindRegs b p1 p2 s).phase = s.phase := rfl
@[simp] theorem bindRegs_op (b : BusId) (p1 p2 : Bool) (s : State) : (bindRegs b p1 p2 s).op = s.op := rfl
@[simp] theorem bindRegs_cAddr (b : BusId) (p1 p2 : Bool) (s : State) : (bindRegs b p1 p2 s).cAddr = s.cAddr := rfl
@[simp] theorem bindRegs_cData (b : BusId) (p1 p2 : Bool) (s : State) : (bindRegs b p1 p2 s).cData = s.cData := rfl
@[simp] theorem bindRegs_cPin1 (b : BusId) (p1 p2 : Bool) (s : State) : (bindRegs b p1 p2 s).cPin1 = s.cPin1 := rfl
@[simp] theorem bindRegs_cPin2 (b : BusId) (p1 p2 : Bool) (s : State) : (bindRegs b p1 p2 s).cPin2 = s.cPin2 := rfl
@[simp] theorem bindRegs_cEn (b : BusId) (p1 p2 : Bool) (s : State) : (bindRegs b p1 p2 s).cEn = s.cEn := rfl
@[simp] theorem bindRegs_cBus (b : BusId) (p1 p2 : Bool) (s : State) : (bindRegs b p1 p2 s).cBus = s.cBus := rfl
@[simp] theorem bindRegs_st (b : BusId) (p1 p2 : Bool) (s : State) : (bindRegs b p1 p2 s).st = s.st := rfl
@[simp] theorem bindRegs_sbyte (b : BusId) (p1 p2 : Bool) (s : State) : (bindRegs b p1 p2 s).sbyte = s.sbyte := rfl
@[simp] theorem bindRegs_t0 (b : BusId) (p1 p2 : Bool) (s : State) : (bindRegs b p1 p2 s).t0 = s.t0 := rfl
@[simp] theorem bindRegs_wReg (b : BusId) (p1 p2 : Bool) (s : State) : (bindRegs b p1 p2 s).wReg = s.wReg := rfl
@[simp] theorem bindRegs_wVal (b : BusId) (p1 p2 : Bool) (s : State) : (bindRegs b p1 p2 s).wVal = s.wVal := rfl
@[simp] theorem bindRegs_wOk (b : BusId) (p1 p2 : Bool) (s : State) : (bindRegs b p1 p2 s).wOk = s.wOk := rfl
@[simp] theorem bindRegs_rspOk (b : BusId) (p1 p2 : Bool) (s : State) : (bindRegs b p1 p2 s).rspOk = s.rspOk := rfl
@[simp] theorem bindRegs_rspData (b : BusId) (p1 p2 : Bool) (s : State) : (bindRegs b p1 p2 s).rspData = s.rspData := rfl
@[simp] theorem bindRegs_rspCause (b : BusId) (p1 p2 : Bool) (s : State) : (bindRegs b p1 p2 s).rspCause = s.rspCause := rfl
@[simp] theorem bindRegs_env (b : BusId) (p1 p2 : Bool) (s : State) : (bindRegs b p1 p2 s).env = s.env := rfl
@[simp] theorem bindRegs_deadBuses (b : BusId) (p1 p2 : Bool) (s : State) : (bindRegs b p1 p2 s).deadBuses = s.deadBuses := rfl
@[simp] theorem bindRegs_host (b : BusId) (p1 p2 : Bool) (s : State) : (bindRegs b p1 p2 s).host = s.host := rfl
@[simp] theorem bindRegs_log (b : BusId) (p1 p2 : Bool) (s : State) : (bindRegs b p1 p2 s).log = s.log := rfl
@[simp] theorem bindRegs_draws (b : BusId) (p1 p2 : Bool) (s : State) : (bindRegs b p1 p2 s).draws = s.draws := rfl

/-! `takeResponse` -/

@[simp] theorem takeResponse_memAddr (s : State) : (takeResponse s).memAddr = s.memAddr := rfl
@[simp] theorem takeResponse_regAddr (s : State) : (takeResponse s).regAddr = s.regAddr := rfl
@[simp] theorem takeResponse_bus (s : State) : (takeResponse s).bus = s.bus := rfl
@[simp] theorem takeResponse_bound (s : State) : (takeResponse s).bound = s.bound := rfl
@[simp] theorem takeResponse_phase (s : State) : (takeResponse s).phase = .idle := rfl
@[simp] theorem takeResponse_op (s : State) : (takeResponse s).op = s.op := rfl
@[simp] theorem takeResponse_cAddr (s : State) : (takeResponse s).cAddr = s.cAddr := rfl
@[simp] theorem takeResponse_cData (s : State) : (takeResponse s).cData = s.cData := rfl
@[simp] theorem takeResponse_cPin1 (s : State) : (takeResponse s).cPin1 = s.cPin1 := rfl
@[simp] theorem takeResponse_cPin2 (s : State) : (takeResponse s).cPin2 = s.cPin2 := rfl
@[simp] theorem takeResponse_cEn (s : State) : (takeResponse s).cEn = s.cEn := rfl
@[simp] theorem takeResponse_cBus (s : State) : (takeResponse s).cBus = s.cBus := rfl
@[simp] theorem takeResponse_st (s : State) : (takeResponse s).st = s.st := rfl
@[simp] theorem takeResponse_sbyte (s : State) : (takeResponse s).sbyte = s.sbyte := rfl
@[simp] theorem takeResponse_t0 (s : State) : (takeResponse s).t0 = s.t0 := rfl
@[simp] theorem takeResponse_wReg (s : State) : (takeResponse s).wReg = s.wReg := rfl
@[simp] theorem takeResponse_wVal (s : State) : (takeResponse s).wVal = s.wVal := rfl
@[simp] theorem takeResponse_wOk (s : State) : (takeResponse s).wOk = s.wOk := rfl
@[simp] theorem takeResponse_rspOk (s : State) : (takeResponse s).rspOk = s.rspOk := rfl
@[simp] theorem takeResponse_rspData (s : State) : (takeResponse s).rspData = s.rspData := rfl
@[simp] theorem takeResponse_rspCause (s : State) : (takeResponse s).rspCause = s.rspCause := rfl
@[simp] theorem takeResponse_env (s : State) : (takeResponse s).env = s.env := rfl
@[simp] theorem takeResponse_deadBuses (s : State) : (takeResponse s).deadBuses = s.deadBuses := rfl
@[simp] theorem takeResponse_host (s : State) : (takeResponse s).host = s.host := rfl
@[simp] theorem takeResponse_log (s : State) : (takeResponse s).log = s.log := rfl
@[simp] theorem takeResponse_draws (s : State) : (takeResponse s).draws = s.draws := rfl

/-! `loadCommand` -/

@[simp] theorem loadCommand_memAddr (c : ChipCommand) (s : State) : (loadCommand c s).memAddr = s.memAddr := rfl
@[simp] theorem loadCommand_regAddr (c : ChipCommand) (s : State) : (loadCommand c s).regAddr = s.regAddr := rfl
@[simp] theorem loadCommand_bus (c : ChipCommand) (s : State) : (loadCommand c s).bus = s.bus := rfl
@[simp] theorem loadCommand_bound (c : ChipCommand) (s : State) : (loadCommand c s).bound = s.bound := rfl
@[simp] theorem loadCommand_phase (c : ChipCommand) (s : State) : (loadCommand c s).phase = s.phase := rfl
@[simp] theorem loadCommand_op (c : ChipCommand) (s : State) : (loadCommand c s).op = s.op := rfl
@[simp] theorem loadCommand_cAddr (c : ChipCommand) (s : State) : (loadCommand c s).cAddr = s.cAddr := rfl
@[simp] theorem loadCommand_cData (c : ChipCommand) (s : State) : (loadCommand c s).cData = s.cData := rfl
@[simp] theorem loadCommand_cPin1 (c : ChipCommand) (s : State) : (loadCommand c s).cPin1 = s.cPin1 := rfl
@[simp] theorem loadCommand_cPin2 (c : ChipCommand) (s : State) : (loadCommand c s).cPin2 = s.cPin2 := rfl
@[simp] theorem loadCommand_cEn (c : ChipCommand) (s : State) : (loadCommand c s).cEn = s.cEn := rfl
@[simp] theorem loadCommand_cBus (c : ChipCommand) (s : State) : (loadCommand c s).cBus = s.cBus := rfl
@[simp] theorem loadCommand_st (c : ChipCommand) (s : State) : (loadCommand c s).st = s.st := rfl
@[simp] theorem loadCommand_sbyte (c : ChipCommand) (s : State) : (loadCommand c s).sbyte = s.sbyte := rfl
@[simp] theorem loadCommand_t0 (c : ChipCommand) (s : State) : (loadCommand c s).t0 = s.t0 := rfl
@[simp] theorem loadCommand_wReg (c : ChipCommand) (s : State) : (loadCommand c s).wReg = regAddress .command := rfl
@[simp] theorem loadCommand_wVal (c : ChipCommand) (s : State) : (loadCommand c s).wVal = commandByte c := rfl
@[simp] theorem loadCommand_wOk (c : ChipCommand) (s : State) : (loadCommand c s).wOk = s.wOk := rfl
@[simp] theorem loadCommand_rspOk (c : ChipCommand) (s : State) : (loadCommand c s).rspOk = s.rspOk := rfl
@[simp] theorem loadCommand_rspData (c : ChipCommand) (s : State) : (loadCommand c s).rspData = s.rspData := rfl
@[simp] theorem loadCommand_rspCause (c : ChipCommand) (s : State) : (loadCommand c s).rspCause = s.rspCause := rfl
@[simp] theorem loadCommand_env (c : ChipCommand) (s : State) : (loadCommand c s).env = s.env := rfl
@[simp] theorem loadCommand_deadBuses (c : ChipCommand) (s : State) : (loadCommand c s).deadBuses = s.deadBuses := rfl
@[simp] theorem loadCommand_host (c : ChipCommand) (s : State) : (loadCommand c s).host = s.host := rfl
@[simp] theorem loadCommand_log (c : ChipCommand) (s : State) : (loadCommand c s).log = s.log := rfl
@[simp] theorem loadCommand_draws (c : ChipCommand) (s : State) : (loadCommand c s).draws = s.draws := rfl

/-! `consumeSample` -/

@[simp] theorem consumeSample_memAddr (s : State) : (consumeSample s).memAddr = s.memAddr := rfl
@[simp] theorem consumeSample_regAddr (s : State) : (consumeSample s).regAddr = s.regAddr := rfl
@[simp] theorem consumeSample_bus (s : State) : (consumeSample s).bus = s.bus := rfl
@[simp] theorem consumeSample_bound (s : State) : (consumeSample s).bound = s.bound := rfl
@[simp] theorem consumeSample_phase (s : State) : (consumeSample s).phase = s.phase := rfl
@[simp] theorem consumeSample_op (s : State) : (consumeSample s).op = s.op := rfl
@[simp] theorem consumeSample_cAddr (s : State) : (consumeSample s).cAddr = s.cAddr := rfl
@[simp] theorem consumeSample_cData (s : State) : (consumeSample s).cData = s.cData := rfl
@[simp] theorem consumeSample_cPin1 (s : State) : (consumeSample s).cPin1 = s.cPin1 := rfl
@[simp] theorem consumeSample_cPin2 (s : State) : (consumeSample s).cPin2 = s.cPin2 := rfl
@[simp] theorem consumeSample_cEn (s : State) : (consumeSample s).cEn = s.cEn := rfl
@[simp] theorem consumeSample_cBus (s : State) : (consumeSample s).cBus = s.cBus := rfl
@[simp] theorem consumeSample_st (s : State) : (consumeSample s).st = s.st := rfl
@[simp] theorem consumeSample_sbyte (s : State) : (consumeSample s).sbyte = s.sbyte := rfl
@[simp] theorem consumeSample_t0 (s : State) : (consumeSample s).t0 = s.t0 := rfl
@[simp] theorem consumeSample_wReg (s : State) : (consumeSample s).wReg = s.wReg := rfl
@[simp] theorem consumeSample_wVal (s : State) : (consumeSample s).wVal = s.wVal := rfl
@[simp] theorem consumeSample_wOk (s : State) : (consumeSample s).wOk = s.wOk := rfl
@[simp] theorem consumeSample_rspOk (s : State) : (consumeSample s).rspOk = s.rspOk := rfl
@[simp] theorem consumeSample_rspData (s : State) : (consumeSample s).rspData = s.rspData := rfl
@[simp] theorem consumeSample_rspCause (s : State) : (consumeSample s).rspCause = s.rspCause := rfl
@[simp] theorem consumeSample_env (s : State) : (consumeSample s).env = s.env := rfl
@[simp] theorem consumeSample_deadBuses (s : State) : (consumeSample s).deadBuses = s.deadBuses := rfl
@[simp] theorem consumeSample_host (s : State) : (consumeSample s).host = s.host.tail := rfl
@[simp] theorem consumeSample_log (s : State) : (consumeSample s).log = s.log := rfl
@[simp] theorem consumeSample_draws (s : State) : (consumeSample s).draws = s.draws := rfl

/-! The ends of a command are responses -/

@[simp] theorem succeed_eq (ok : Bool) (s : State) : succeed ok s = respond ok .none none s := rfl
@[simp] theorem succeedWith_eq (b : Byte) (s : State) : succeedWith b s = respond true .none (some b) s := rfl
@[simp] theorem fail_eq (c : Cause) (s : State) : fail c s = respond false c none s := rfl

/-! The trace of the port -/

theorem note_trace (c : Call) (e : Env) (s : State) :
    (s.note c e).trace = s.trace ++ [{ bus := s.bus, call := c }] := by
  simp [State.trace]

end Sys2Proof.Machine
end

