-- ==== Sys2Proof/Laws/Memory.lean ====
section
/-! SUPPORT. The laws of the byte arrays: a read after a write, other bytes unchanged, and the canonical form kept by
every operation. -/

namespace Sys2Proof.Machine

open Sys2Proof

theorem Memory.read_nil (a : Nat) : Memory.read [] a = Memory.unlisted := rfl

/-- An address below every listed one is unlisted. -/
theorem Memory.read_of_lt (m : Memory) (a : Nat) (h : ∀ c ∈ m, a < c.1) : m.read a = Memory.unlisted := by
  induction m with
  | nil => rfl
  | cons c rest ih =>
    have hc := h c (by simp)
    simp only [Memory.read]
    rw [if_neg (by omega)]
    exact ih fun d hd => h d (by simp [hd])

theorem Memory.wf_tail {c : Host.Cell} {m : Memory} (h : Memory.wf (c :: m)) : Memory.wf m :=
  ⟨(List.pairwise_cons.mp h.1).2, fun d hd => h.2 d (by simp [hd])⟩

theorem Memory.wf_head_lt {c : Host.Cell} {m : Memory} (h : Memory.wf (c :: m)) : ∀ d ∈ m, c.1 < d.1 :=
  (List.pairwise_cons.mp h.1).1

theorem Memory.wf_cons {c : Host.Cell} {m : Memory} (hm : Memory.wf m) (hlt : ∀ d ∈ m, c.1 < d.1)
    (hc : c.1 < 65536 ∧ c.2 ≠ Memory.unlisted) : Memory.wf (c :: m) :=
  ⟨List.pairwise_cons.mpr ⟨hlt, hm.1⟩, by
    intro d hd
    rcases List.mem_cons.mp hd with rfl | hd
    · exact hc
    · exact hm.2 d hd⟩

/-- Reading any address after a write to a canonical array. -/
theorem Memory.read_write (m : Memory) (a : Nat) (v : Byte) (b : Nat) (h : Memory.wf m) :
    (m.write a v).read b = if b = a then v else m.read b := by
  induction m with
  | nil =>
    by_cases hv : v = Memory.unlisted
    · simp [Memory.write, Memory.read, hv]
    · simp only [Memory.write, hv, if_false, Memory.read]
      by_cases hb : b = a
      · simp [hb]
      · simp [hb, Ne.symm hb]
  | cons c rest ih =>
    obtain ⟨k, w⟩ := c
    have hlt := Memory.wf_head_lt h
    have ih := ih (Memory.wf_tail h)
    simp only [Memory.write]
    by_cases h1 : a < k
    · have hr : Memory.read ((k, w) :: rest) a = Memory.unlisted :=
        Memory.read_of_lt _ _ (by
          intro d hd
          rcases List.mem_cons.mp hd with rfl | hd
          · exact h1
          · exact lt_trans h1 (hlt d hd))
      by_cases hv : v = Memory.unlisted
      · rw [if_pos h1, if_pos hv]
        by_cases hb : b = a
        · rw [if_pos hb, hb, hr, hv]
        · rw [if_neg hb]
      · rw [if_pos h1, if_neg hv]
        by_cases hb : b = a
        · simp [Memory.read, hb]
        · rw [if_neg hb]
          conv_lhs => rw [Memory.read]
          rw [if_neg (Ne.symm hb)]
    · by_cases h2 : a = k
      · subst h2
        by_cases hv : v = Memory.unlisted
        · rw [if_neg h1, if_pos rfl, if_pos hv]
          by_cases hb : b = a
          · rw [if_pos hb, hb, Memory.read_of_lt rest a hlt, hv]
          · rw [if_neg hb]
            simp [Memory.read, Ne.symm hb]
        · rw [if_neg h1, if_pos rfl, if_neg hv]
          by_cases hb : b = a
          · simp [Memory.read, hb]
          · rw [if_neg hb]
            simp [Memory.read, Ne.symm hb]
      · rw [if_neg h1, if_neg h2]
        simp only [Memory.read]
        by_cases hb : k = b
        · rw [if_pos hb, if_neg (by omega), if_pos hb]
        · rw [if_neg hb, ih, if_neg hb]

/-- A cell of a written array is the written one or was there before. -/
theorem Memory.mem_write (m : Memory) (a : Nat) (v : Byte) (c : Host.Cell) (h : c ∈ m.write a v) :
    c ∈ m ∨ (c = (a, v) ∧ v ≠ Memory.unlisted) := by
  induction m with
  | nil =>
    simp only [Memory.write] at h
    split at h
    · simp at h
    · next hv => exact .inr ⟨by simpa using h, hv⟩
  | cons d rest ih =>
    obtain ⟨k, w⟩ := d
    simp only [Memory.write] at h
    split at h
    · split at h
      · exact .inl h
      · next hv =>
        rcases List.mem_cons.mp h with h | h
        · exact .inr ⟨h, hv⟩
        · exact .inl h
    · split at h
      · split at h
        · exact .inl (List.mem_cons_of_mem _ h)
        · next hv =>
          rcases List.mem_cons.mp h with h | h
          · exact .inr ⟨h, hv⟩
          · exact .inl (List.mem_cons_of_mem _ h)
      · rcases List.mem_cons.mp h with h | h
        · exact .inl (by simp [h])
        · rcases ih h with h | h
          · exact .inl (List.mem_cons_of_mem _ h)
          · exact .inr h

/-- A write keeps the canonical form. -/
theorem Memory.write_wf (m : Memory) (a : Nat) (v : Byte) (h : Memory.wf m) (ha : a < 65536) :
    Memory.wf (m.write a v) := by
  induction m with
  | nil =>
    simp only [Memory.write]
    split
    · exact h
    · next hv => exact Memory.wf_cons h (by simp) ⟨ha, hv⟩
  | cons c rest ih =>
    obtain ⟨k, w⟩ := c
    have hlt := Memory.wf_head_lt h
    have htail := Memory.wf_tail h
    simp only [Memory.write]
    split
    · next h1 =>
      split
      · exact h
      · next hv =>
        refine Memory.wf_cons h ?_ ⟨ha, hv⟩
        intro d hd
        rcases List.mem_cons.mp hd with rfl | hd
        · exact h1
        · exact lt_trans h1 (hlt d hd)
    · next h1 =>
      split
      · next h2 =>
        subst h2
        split
        · exact htail
        · next hv => exact Memory.wf_cons htail hlt ⟨ha, hv⟩
      · next h2 =>
        refine Memory.wf_cons (ih htail) ?_ (h.2 (k, w) (by simp))
        intro d hd
        rcases Memory.mem_write rest a v d hd with hd | ⟨rfl, -⟩
        · exact hlt d hd
        · show k < a
          omega

/-- The empty array is canonical. -/
theorem Memory.wf_nil : Memory.wf [] := ⟨List.Pairwise.nil, by simp⟩

end Sys2Proof.Machine
end

