-- ==== Sys2Proof/Laws/Ops.lean ====
section
/-! SUPPORT. For each shared operation one lemma that says once everything it can do when it answers. -/

namespace Sys2Proof.Machine

open Sys2Proof

/-- The deadline test in numbers (R62). -/
theorem deadlinePassed_iff {now t0 : Nat} : deadlinePassed now t0 = true ↔ 3000 ≤ now - t0 := by
  unfold deadlinePassed
  exact decide_eq_true_iff

/-! ### Primitive calls -/

theorem tInit_some {s t : State} : tInit s = some t ↔ ∃ e, s.env.init = some e ∧ t = s.note .init e := by
  simp [tInit, eq_comm]

theorem tBegin_some {a : DevAddr} {s t : State} :
    tBegin a s = some t ↔ ∃ e, s.env.begin a = some e ∧ t = s.note (.begin a) e := by
  simp [tBegin, eq_comm]

theorem tWrite_some {b : Byte} {s t : State} :
    tWrite b s = some t ↔ ∃ e, s.env.write b = some e ∧ t = s.note (.write b) e := by
  simp [tWrite, eq_comm]

theorem tEnd_some {stop : Bool} {s t : State} :
    tEnd stop s = some t ↔
      ∃ st e, s.env.endFrame = some (st, e) ∧ t = { s.note (.endFrame stop st) e with st := st } := by
  simp [tEnd, eq_comm]

theorem tRequest_some {a : DevAddr} {n : Nat} {s t : State} :
    tRequest a n s = some t ↔ ∃ e, s.env.request a n = some e ∧ t = s.note (.request a n) e := by
  simp [tRequest, eq_comm]

theorem tAvailable_some {s t : State} {n : Nat} :
    tAvailable s = some (n, t) ↔ ∃ e, s.env.available = some (n, e) ∧ t = s.note (.available n) e := by
  simp only [tAvailable, Option.map_eq_some_iff, Prod.mk.injEq, Prod.exists]
  constructor
  · rintro ⟨n, e, h, rfl, rfl⟩
    exact ⟨e, h, rfl⟩
  · rintro ⟨e, h, rfl⟩
    exact ⟨n, e, h, rfl, rfl⟩

theorem tRead_some {s t : State} :
    tRead s = some t ↔ ∃ b e, s.env.takeByte = some (b, e) ∧ t = { s.note (.read b) e with sbyte := b } := by
  simp [tRead, eq_comm]

theorem tNow_some {s t : State} {n : Nat} :
    tNow s = some (n, t) ↔ ∃ e, s.env.now = some (n, e) ∧ t = s.note (.now n) e := by
  simp only [tNow, Option.map_eq_some_iff, Prod.mk.injEq, Prod.exists]
  constructor
  · rintro ⟨n, e, h, rfl, rfl⟩
    exact ⟨e, h, rfl⟩
  · rintro ⟨e, h, rfl⟩
    exact ⟨n, e, h, rfl, rfl⟩

theorem tDelay_some {n : Nat} {s t : State} :
    tDelay n s = some t ↔ ∃ e, s.env.delay n = some e ∧ t = s.note (.delay n) e := by
  simp [tDelay, eq_comm]

/-! ### Runs of calls -/

/-- From `s` the calls `l` were issued and lead to `t`: the log holds them and only the environment and the registers
`st`, `sbyte` and `t0` may differ. -/
def RanCalls (s t : State) (l : List Call) : Prop :=
  t = { s with env := t.env, log := t.log, st := t.st, sbyte := t.sbyte, t0 := t.t0 } ∧
    t.log = (onBus s.bus l).reverse ++ s.log

theorem RanCalls.refl (s : State) : RanCalls s s [] := ⟨rfl, by simp [onBus]⟩

theorem RanCalls.bus {s t : State} {l : List Call} (h : RanCalls s t l) : t.bus = s.bus := by rw [h.1]

theorem RanCalls.trans {s t u : State} {l m : List Call} (h : RanCalls s t l) (k : RanCalls t u m) :
    RanCalls s u (l ++ m) := by
  obtain ⟨h1, h2⟩ := h
  obtain ⟨k1, k2⟩ := k
  refine ⟨?_, ?_⟩
  · rw [k1, h1]
  · rw [k2, h2, h1]
    simp [onBus]

theorem RanCalls.issued {s t : State} {l : List Call} (h : RanCalls s t l) : Issued s t l := by
  simp [Issued, State.trace, h.2, h.bus]

theorem RanCalls.note (s : State) (c : Call) (e : Env) : RanCalls s (s.note c e) [c] := ⟨rfl, rfl⟩

/-- The clock after a run of calls (spec/20_memory.md R63): it does not go back. -/
def ClockOk (s t : State) : Prop := s.env.time ≤ t.env.time

theorem RefEnv.request_time (e : RefEnv) (a : DevAddr) (n : Nat) : (RefEnv.request a n e).time = e.time := by
  have hq : ∀ (k : Nat) (e : RefEnv), (RefEnv.queueArray k e).time = e.time := by
    intro k
    induction k with
    | zero => intro e; rfl
    | succ k ih => intro e; rw [RefEnv.queueArray, ih]
  have hqueue : ∀ (e : RefEnv), (RefEnv.queue a n e).time = e.time := by
    intro e
    simp only [RefEnv.queue]
    split
    · rw [hq]
    · split <;> rfl
  simp only [RefEnv.request]
  split <;> simp [hqueue]

theorem RefEnv.available_time (e : RefEnv) :
    e.available.2.time = e.time ∨ (e.available.1 = 0 ∧ e.available.2.time = e.time + 1) := by
  have hp : ∀ e : RefEnv, e.poll.2.time = e.time ∨ (e.poll.1 = 0 ∧ e.poll.2.time = e.time + 1) := by
    intro e
    simp only [RefEnv.poll]
    split
    · exact .inr ⟨rfl, rfl⟩
    · exact .inl rfl
  simp only [RefEnv.available]
  split
  · exact hp e
  · exact hp e
  · exact hp e
  · split
    · exact .inr ⟨rfl, rfl⟩
    · exact hp e
  · exact hp e

theorem RefEnv.storeRun_time (bs : List Byte) (e : RefEnv) : (RefEnv.storeRun bs e).2.time = e.time := by
  induction bs generalizing e with
  | nil => rfl
  | cons b rest ih =>
    simp only [RefEnv.storeRun]
    split
    · rw [ih]
    · rfl

theorem RefEnv.deliver_time (e : RefEnv) : e.deliver.2.time = e.time := by
  simp only [RefEnv.deliver]
  split
  · simp only [RefEnv.deliverArray]
    split
    · rfl
    · rw [RefEnv.storeRun_time]
    · rfl
  · split
    · simp only [RefEnv.deliverRegister, RefEnv.runCommand]
      split
      · split
        · rfl
        · split
          · split
            · split <;> rfl
            · split
              · split <;> rfl
              · rfl
          · rfl
      · rfl
    · rfl

theorem RefEnv.endFrame_time (e : RefEnv) : e.endFrame.2.time = e.time := by
  simp only [RefEnv.endFrame]
  split
  all_goals first | exact RefEnv.deliver_time e | rfl | (split <;> first | exact RefEnv.deliver_time e | rfl)

theorem ScriptEnv.next_time {e f : ScriptEnv} {a : Answer} (h : e.next = some (a, f)) : f.time = e.time + a.dt := by
  cases e with
  | mk answers time =>
    cases answers with
    | nil => simp [ScriptEnv.next] at h
    | cons b rest =>
      simp only [ScriptEnv.next, Option.some.injEq, Prod.mk.injEq] at h
      obtain ⟨rfl, rfl⟩ := h
      rfl

theorem Env.init_time {e f : Env} (h : e.init = some f) : e.time ≤ f.time := by
  cases e with
  | ref e => simp only [Env.init, Option.some.injEq] at h; subst h; rfl
  | scripted e =>
    simp only [Env.init, Option.map_eq_some_iff] at h
    obtain ⟨⟨a, g⟩, hn, rfl⟩ := h
    simp only [Env.time]; have := ScriptEnv.next_time hn; omega

theorem Env.begin_time {a : DevAddr} {e f : Env} (h : e.begin a = some f) : e.time ≤ f.time := by
  cases e with
  | ref e => simp only [Env.begin, Option.some.injEq] at h; subst h; rfl
  | scripted e =>
    simp only [Env.begin, Option.map_eq_some_iff] at h
    obtain ⟨⟨_, g⟩, hn, rfl⟩ := h
    simp only [Env.time]; have := ScriptEnv.next_time hn; omega

theorem Env.write_time {b : Byte} {e f : Env} (h : e.write b = some f) : e.time ≤ f.time := by
  cases e with
  | ref e => simp only [Env.write, Option.some.injEq] at h; subst h; rfl
  | scripted e =>
    simp only [Env.write, Option.map_eq_some_iff] at h
    obtain ⟨⟨_, g⟩, hn, rfl⟩ := h
    simp only [Env.time]; have := ScriptEnv.next_time hn; omega

theorem Env.endFrame_time {e f : Env} {st : Byte} (h : e.endFrame = some (st, f)) : e.time ≤ f.time := by
  cases e with
  | ref e =>
    simp only [Env.endFrame, Option.some.injEq] at h
    have := RefEnv.endFrame_time e
    rw [h] at this
    simp only [Env.time] at this ⊢
    exact this.ge
  | scripted e =>
    simp only [Env.endFrame, Option.map_eq_some_iff, Prod.mk.injEq] at h
    obtain ⟨⟨_, g⟩, hn, -, rfl⟩ := h
    simp only [Env.time]; have := ScriptEnv.next_time hn; omega

theorem Env.request_time {a : DevAddr} {n : Nat} {e f : Env} (h : e.request a n = some f) : e.time ≤ f.time := by
  cases e with
  | ref e =>
    simp only [Env.request, Option.some.injEq] at h
    subst h
    split
    · exact le_refl _
    · simp only [Env.time, RefEnv.request_time]
      exact le_refl _
  | scripted e =>
    simp only [Env.request, Option.map_eq_some_iff] at h
    obtain ⟨⟨_, g⟩, hn, rfl⟩ := h
    simp only [Env.time]; have := ScriptEnv.next_time hn; omega

theorem Env.available_time {e f : Env} {n : Nat} (h : e.available = some (n, f)) : e.time ≤ f.time := by
  cases e with
  | ref e =>
    simp only [Env.available, Option.some.injEq, Prod.mk.injEq] at h
    obtain ⟨-, rfl⟩ := h
    simp only [Env.time]
    rcases RefEnv.available_time e with h | ⟨-, h⟩ <;> omega
  | scripted e =>
    simp only [Env.available, Option.map_eq_some_iff, Prod.mk.injEq] at h
    obtain ⟨⟨_, g⟩, hn, -, rfl⟩ := h
    simp only [Env.time]; have := ScriptEnv.next_time hn; omega

theorem Env.takeByte_time {e f : Env} {b : Byte} (h : e.takeByte = some (b, f)) : e.time ≤ f.time := by
  cases e with
  | ref e =>
    simp only [Env.takeByte, Option.some.injEq, Prod.mk.injEq] at h
    obtain ⟨-, rfl⟩ := h
    simp only [Env.time, RefEnv.takeByte]
    split <;> exact le_refl _
  | scripted e =>
    simp only [Env.takeByte, Option.map_eq_some_iff, Prod.mk.injEq] at h
    obtain ⟨⟨_, g⟩, hn, -, rfl⟩ := h
    simp only [Env.time]; have := ScriptEnv.next_time hn; omega

/-- `Now()` gives the time the environment has after the call (R63). -/
theorem Env.now_time {e f : Env} {n : Nat} (h : e.now = some (n, f)) : e.time ≤ f.time ∧ n = f.time := by
  cases e with
  | ref e =>
    simp only [Env.now, Option.some.injEq, Prod.mk.injEq] at h
    obtain ⟨rfl, rfl⟩ := h
    exact ⟨le_refl _, rfl⟩
  | scripted e =>
    simp only [Env.now, Option.map_eq_some_iff, Prod.mk.injEq] at h
    obtain ⟨⟨_, g⟩, hn, rfl, rfl⟩ := h
    simp only [Env.time, and_true]; have := ScriptEnv.next_time hn; omega

/-- `Delay(n)` takes at least `n` ms (R64). -/
theorem Env.delay_time {k : Nat} {e f : Env} (h : e.delay k = some f) : e.time + k ≤ f.time := by
  cases e with
  | ref e => simp only [Env.delay, Option.some.injEq] at h; subst h; exact le_refl _
  | scripted e =>
    simp only [Env.delay, Option.map_eq_some_iff] at h
    obtain ⟨⟨_, g⟩, hn, rfl⟩ := h
    simp only [Env.time]; have := ScriptEnv.next_time hn; omega

/-! ### Frames -/

/-- The bytes of a frame are issued in order. -/
theorem tWrites_some {bs : List Byte} {s t : State} (h : tWrites bs s = some t) :
    RanCalls s t (bs.map .write) ∧ ClockOk s t ∧ t.st = s.st ∧ t.sbyte = s.sbyte ∧ t.t0 = s.t0 := by
  induction bs generalizing s with
  | nil =>
    simp only [tWrites, Option.some.injEq] at h
    subst h
    exact ⟨RanCalls.refl s, le_refl _, rfl, rfl, rfl⟩
  | cons b rest ih =>
    simp only [tWrites, Option.bind_eq_some_iff] at h
    obtain ⟨u, hu, h⟩ := h
    obtain ⟨e, he, rfl⟩ := tWrite_some.mp hu
    obtain ⟨h1, h2, h3, h4, h5⟩ := ih h
    exact ⟨(RanCalls.note s _ e).trans h1, le_trans (Env.write_time he) h2, h3, h4, h5⟩

/-- A write frame (R96): its calls, its status in `st`, and nothing else but the environment. -/
theorem sendFrame_some {f : Frame} {s t : State} (h : sendFrame f s = some t) :
    RanCalls s t (frameCalls f.dev f.bytes f.stop t.st) ∧ ClockOk s t ∧ t.sbyte = s.sbyte ∧ t.t0 = s.t0 := by
  simp only [sendFrame, Option.bind_eq_bind, Option.bind_eq_some_iff] at h
  obtain ⟨u, hu, v, hv, h⟩ := h
  obtain ⟨e, he, rfl⟩ := tBegin_some.mp hu
  obtain ⟨h1, h2, -, h4, h5⟩ := tWrites_some hv
  obtain ⟨st, e', he', rfl⟩ := tEnd_some.mp h
  refine ⟨?_, ?_, h4, h5⟩
  · have hlast : RanCalls v { v.note (.endFrame f.stop st) e' with st := st } [.endFrame f.stop st] := ⟨rfl, rfl⟩
    exact (RanCalls.note s (.begin f.dev) e).trans (h1.trans hlast)
  · exact le_trans (Env.begin_time he) (le_trans h2 (Env.endFrame_time he'))

/-! ### Waiting for a byte -/

/-- What a poll loop started at `t0` has issued when it ends. -/
theorem pollLoop_some {n : Nat} {s t : State} {ok : Bool} (h : pollLoop n s = some (ok, t)) :
    ∃ times, (∀ u ∈ times, u - s.t0 < 3000) ∧ ClockOk s t ∧ t.t0 = s.t0 ∧ t.st = s.st ∧ t.sbyte = s.sbyte ∧
      ((ok = true ∧ ∃ k, 1 ≤ k ∧ RanCalls s t (missedPolls times ++ [.available k])) ∨
        (ok = false ∧ ∃ u, 3000 ≤ u - s.t0 ∧ u = t.env.time ∧
          RanCalls s t (missedPolls times ++ [.available 0, .now u]))) := by
  induction n generalizing s with
  | zero => simp [pollLoop] at h
  | succ n ih =>
    simp only [pollLoop, Option.bind_eq_bind, Option.bind_eq_some_iff, Prod.exists] at h
    obtain ⟨k, u, hu, h⟩ := h
    obtain ⟨e, he, rfl⟩ := tAvailable_some.mp hu
    split at h
    · next hk =>
      simp only [Option.some.injEq, Prod.mk.injEq] at h
      obtain ⟨rfl, rfl⟩ := h
      refine ⟨[], by simp, Env.available_time he, rfl, rfl, rfl, .inl ⟨rfl, k, hk, ?_⟩⟩
      exact RanCalls.note s _ e
    · next hk =>
      have hk0 : k = 0 := by omega
      subst hk0
      simp only [Option.bind_eq_some_iff, Prod.exists] at h
      obtain ⟨m, v, hv, h⟩ := h
      obtain ⟨e', he', rfl⟩ := tNow_some.mp hv
      obtain ⟨hle, hm⟩ := Env.now_time he'
      have hround : RanCalls s ((s.note (.available 0) e).note (.now m) e') [.available 0, .now m] :=
        (RanCalls.note s (.available 0) e).trans (RanCalls.note _ (.now m) e')
      have hclock : s.env.time ≤ e'.time := le_trans (Env.available_time he) hle
      split at h
      · next hd =>
        simp only [Option.some.injEq, Prod.mk.injEq] at h
        obtain ⟨rfl, rfl⟩ := h
        refine ⟨[], by simp, hclock, rfl, rfl, rfl, .inr ⟨rfl, m, ?_, hm, hround⟩⟩
        exact deadlinePassed_iff.mp hd
      · next hd =>
        obtain ⟨times, ht, hc, h0, h1, h2, hcase⟩ := ih h
        have hlt : m - s.t0 < 3000 := 
          Nat.lt_of_not_le fun h => hd (deadlinePassed_iff.mpr h)
        have hcons : ∀ l, missedPolls (m :: times) ++ l = [.available 0, .now m] ++ (missedPolls times ++ l) := by
          intro l; simp [missedPolls]
        refine ⟨m :: times, ?_, le_trans hclock hc, h0, h1, h2, ?_⟩
        · intro x hx
          rcases List.mem_cons.mp hx with rfl | hx
          · exact hlt
          · exact ht x hx
        · rcases hcase with ⟨rfl, k, hk, hr⟩ | ⟨rfl, u, hu, hut, hr⟩
          · exact .inl ⟨rfl, k, hk, by rw [hcons]; exact hround.trans hr⟩
          · exact .inr ⟨rfl, u, hu, hut, by rw [hcons]; exact hround.trans hr⟩

/-- `AwaitByte()` (R62): the calls it has issued, and that a timeout takes at least the deadline. -/
theorem awaitByte_some {s t : State} {ok : Bool} (h : awaitByte s = some (ok, t)) :
    ClockOk s t ∧ t.st = s.st ∧ t.sbyte = s.sbyte ∧
      ((ok = true ∧ ∃ w, WaitHit w ∧ RanCalls s t w) ∨
        (ok = false ∧ s.env.time + 3000 ≤ t.env.time ∧ ∃ w, WaitMiss w ∧ RanCalls s t w)) := by
  simp only [awaitByte, Option.bind_eq_bind, Option.bind_eq_some_iff, Prod.exists] at h
  obtain ⟨n, u, hu, h⟩ := h
  obtain ⟨e, he, rfl⟩ := tNow_some.mp hu
  obtain ⟨hle, hn⟩ := Env.now_time he
  obtain ⟨times, ht, hc, h0, h1, h2, hcase⟩ := pollLoop_some h
  have hstart : RanCalls s { s.note (.now n) e with t0 := n } [.now n] := ⟨rfl, rfl⟩
  have hc' : e.time ≤ t.env.time := hc
  refine ⟨le_trans hle hc, h1, h2, ?_⟩
  rcases hcase with ⟨rfl, k, hk, hr⟩ | ⟨rfl, v, hv, hvt, hr⟩
  · exact .inl ⟨rfl, _, ⟨n, times, k, rfl, hk, ht⟩, hstart.trans hr⟩
  · refine .inr ⟨rfl, ?_, _, ⟨n, times, v, rfl, ht, hv⟩, hstart.trans hr⟩
    change 3000 ≤ v - n at hv
    omega

/-- A read request (R99): what it issued and, where a byte came, that byte in `sbyte`. -/
theorem readRequest_some {dev : DevAddr} {s t : State} {ok : Bool} (h : readRequest dev s = some (ok, t)) :
    ClockOk s t ∧ t.st = s.st ∧
      ((ok = true ∧ ∃ w, WaitHit w ∧ RanCalls s t (.request dev 1 :: (w ++ [.read t.sbyte]))) ∨
        (ok = false ∧ t.sbyte = s.sbyte ∧ s.env.time + 3000 ≤ t.env.time ∧
          ∃ w, WaitMiss w ∧ RanCalls s t (.request dev 1 :: w))) := by
  simp only [readRequest, Option.bind_eq_bind, Option.bind_eq_some_iff, Prod.exists] at h
  obtain ⟨u, hu, ok', v, hv, h⟩ := h
  obtain ⟨e, he, rfl⟩ := tRequest_some.mp hu
  have hclock := Env.request_time he
  have hreq : RanCalls s (s.note (.request dev 1) e) [.request dev 1] := RanCalls.note s _ e
  obtain ⟨hc, hst, hsb, hcase⟩ := awaitByte_some hv
  rcases hcase with ⟨rfl, w, hw, hr⟩ | ⟨rfl, htime, w, hw, hr⟩
  · simp only [if_true, Option.bind_eq_some_iff] at h
    obtain ⟨x, hx, h⟩ := h
    simp only [Option.some.injEq, Prod.mk.injEq] at h
    obtain ⟨rfl, rfl⟩ := h
    obtain ⟨b, e', he', rfl⟩ := tRead_some.mp hx
    have hread : RanCalls v { v.note (.read b) e' with sbyte := b } [.read b] := ⟨rfl, rfl⟩
    exact ⟨le_trans hclock (le_trans hc (Env.takeByte_time he')), hst,
      .inl ⟨rfl, w, hw, hreq.trans (hr.trans hread)⟩⟩
  · simp only [Bool.false_eq_true, if_false, Option.some.injEq, Prod.mk.injEq] at h
    obtain ⟨rfl, rfl⟩ := h
    refine ⟨le_trans hclock hc, hst, .inr ⟨rfl, hsb, ?_, w, hw, hreq.trans hr⟩⟩
    change e.time + 3000 ≤ v.env.time at htime
    omega

/-- WRITEREG (R172): the frame and, whatever its status, the settling delay after it. -/
theorem writeReg_some {r : LogicalReg} {v : Byte} {s t : State} (h : writeReg r v s = some t) :
    ∃ u, RanCalls { s with wReg := regAddress r, wVal := v } u
        (frameCalls s.regAddr [regAddress r, v] true t.st ++ [.delay 1]) ∧
      t = { u with wOk := statusOk u.st } ∧ u.sbyte = s.sbyte ∧ u.t0 = s.t0 ∧ s.env.time + 1 ≤ t.env.time := by
  simp only [writeReg, Option.bind_eq_bind, Option.bind_eq_some_iff] at h
  obtain ⟨x, hx, y, hy, h⟩ := h
  simp only [Option.some.injEq] at h
  subst h
  obtain ⟨hr, hc, hsb, ht0⟩ := sendFrame_some hx
  obtain ⟨e, he, rfl⟩ := tDelay_some.mp hy
  refine ⟨_, hr.trans (RanCalls.note x (.delay 1) e), rfl, hsb, ht0, ?_⟩
  have hd := Env.delay_time he
  change s.env.time ≤ x.env.time at hc
  simp only [cfg] at hd
  change s.env.time + 1 ≤ e.time
  omega

/-! ### The ends of commands -/

theorem whenBound_next {s t : State} {r : Option State} :
    whenBound s r = .next t ↔ s.bound = true ∧ r = some t := by
  cases hb : s.bound <;> cases r <;> simp [whenBound, ranToEnd, hb]

theorem whenTransport_next {b : BusId} {s t : State} {r : Option State} :
    whenTransport b s r = .next t ↔ b ∉ s.deadBuses ∧ r = some t := by
  by_cases hb : b ∈ s.deadBuses <;> cases r <;> simp [whenTransport, ranToEnd, hb]

end Sys2Proof.Machine
end

