-- ==== Sys2Proof/Laws/Calls.lean ====
section
/-! SUPPORT. What a run of calls leaves unchanged, how it shows in the trace, and the calls of a wait. -/

namespace Sys2Proof.Machine

open Sys2Proof

/-- A run of calls writes none of the persistent registers, latches, port samples and WRITEREG registers. -/
theorem RanCalls.same {s t : State} {l : List Call} (h : RanCalls s t l) :
    SamePersistent s t ∧ SameInputs s t ∧ SameWriteRegs s t ∧ t.draws = s.draws := by
  rw [h.1]
  exact ⟨⟨rfl, rfl, rfl, rfl⟩, ⟨rfl, rfl, rfl, rfl, rfl, rfl, rfl, rfl, rfl⟩, ⟨rfl, rfl, rfl⟩, rfl⟩

/-- The calls of a run that starts after register writes (`s'`) and ends before the response (`u`). -/
theorem issued_of_ranCalls {s s' u t : State} {l : List Call} (hs : s'.log = s.log) (h : RanCalls s' u l)
    (ht : t.log = u.log) (hb : t.bus = u.bus) : Issued s t l := by
  simp only [Issued, State.trace, ht, hb, h.2, h.bus, hs]
  simp

/-- The calls can be read off the newest part of the log. -/
theorem issued_of_log {s t : State} {l : List Call} (h : t.log = (onBus t.bus l).reverse ++ s.log) : Issued s t l := by
  simp [Issued, State.trace, h]

/-! ### The calls of a wait -/

/-- Only times and polls. -/
def IsWait (w : List Call) : Prop := ∀ c ∈ w, (∃ t, c = .now t) ∨ ∃ n, c = .available n

theorem isWait_missedPolls (times : List Nat) : IsWait (missedPolls times) := by
  intro c hc
  simp only [missedPolls, List.mem_flatMap, List.mem_cons, List.not_mem_nil, or_false] at hc
  obtain ⟨t, -, rfl | rfl⟩ := hc
  · exact .inr ⟨_, rfl⟩
  · exact .inl ⟨_, rfl⟩

theorem WaitHit.isWait {w : List Call} (h : WaitHit w) : IsWait w := by
  obtain ⟨t0, times, n, rfl, -⟩ := h
  intro c hc
  simp only [List.mem_cons, List.mem_append, List.not_mem_nil, or_false] at hc
  rcases hc with rfl | hc | rfl
  · exact .inl ⟨_, rfl⟩
  · exact isWait_missedPolls _ _ hc
  · exact .inr ⟨_, rfl⟩

theorem WaitMiss.isWait {w : List Call} (h : WaitMiss w) : IsWait w := by
  obtain ⟨t0, times, n, rfl, -⟩ := h
  intro c hc
  simp only [List.mem_cons, List.mem_append, List.not_mem_nil, or_false] at hc
  rcases hc with rfl | hc | rfl | rfl
  · exact .inl ⟨_, rfl⟩
  · exact isWait_missedPolls _ _ hc
  · exact .inr ⟨_, rfl⟩
  · exact .inl ⟨_, rfl⟩

theorem countKind_append (k : CallKind) (l m : List Call) : countKind k (l ++ m) = countKind k l + countKind k m := by
  simp [countKind]

theorem countKind_cons (k : CallKind) (c : Call) (l : List Call) :
    countKind k (c :: l) = countKind k l + if c.kind = k then 1 else 0 := by
  simp [countKind, List.countP_cons]

/-- A wait has no call of any other kind. -/
theorem IsWait.countKind_eq_zero {w : List Call} (h : IsWait w) {k : CallKind} (h1 : k ≠ .now) (h2 : k ≠ .available) :
    countKind k w = 0 := by
  simp only [countKind, List.countP_eq_zero]
  intro c hc
  rcases h c hc with ⟨t, rfl⟩ | ⟨t, rfl⟩ <;> simp [Call.kind, Ne.symm h1, Ne.symm h2]

/-! ### The poll bound -/

/-- How many more polls a wait can make at most (log 22). -/
def pollsLeft (s : State) : Nat :=
  match s.env with
  | .ref e => s.t0 + 3000 - e.time + 1
  | .scripted e => e.answers.length + 1

theorem ScriptEnv.next_length {e f : ScriptEnv} {a : Answer} (h : e.next = some (a, f)) :
    e.answers.length = f.answers.length + 1 := by
  cases e with
  | mk l t =>
    cases l with
    | nil => simp [ScriptEnv.next] at h
    | cons b l =>
      simp only [ScriptEnv.next, Option.some.injEq, Prod.mk.injEq] at h
      obtain ⟨-, rfl⟩ := h
      rfl

/-- A poll that misses before the deadline leaves fewer polls. -/
theorem pollsLeft_round {s u v : State} {c t : Nat} (ha : tAvailable s = some (c, u)) (hc : ¬ 1 ≤ c)
    (hb : tNow u = some (t, v)) (hd : ¬ deadlinePassed t v.t0 = true) : pollsLeft v + 1 ≤ pollsLeft s := by
  obtain ⟨e, he, rfl⟩ := tAvailable_some.mp ha
  obtain ⟨e', he', rfl⟩ := tNow_some.mp hb
  have hlt : ¬ 3000 ≤ t - s.t0 := fun h => hd (deadlinePassed_iff.mpr h)
  cases hse : s.env with
  | ref r =>
    rw [hse] at he
    simp only [Env.available, Option.some.injEq, Prod.mk.injEq] at he
    obtain ⟨h1, rfl⟩ := he
    simp only [State.note, Env.now, Option.some.injEq, Prod.mk.injEq] at he'
    obtain ⟨h2, rfl⟩ := he'
    have hav : r.available.1 = 0 → r.available.2.time = r.time + 1 := by
      simp only [RefEnv.available, RefEnv.poll]
      cases r.variant <;> cases r.rxq <;> simp <;> split <;> simp
    have h3 := hav (by omega)
    simp only [pollsLeft, State.note, hse]
    omega
  | scripted r =>
    rw [hse] at he
    simp only [Env.available, Option.map_eq_some_iff, Prod.mk.injEq] at he
    obtain ⟨⟨a, g⟩, h1, h2, rfl⟩ := he
    simp only [State.note, Env.now, Option.map_eq_some_iff, Prod.mk.injEq] at he'
    obtain ⟨⟨a', g'⟩, h1', h2', rfl⟩ := he'
    simp only [pollsLeft, State.note, hse]
    have := ScriptEnv.next_length h1
    have := ScriptEnv.next_length h1'
    omega

end Sys2Proof.Machine
end

