-- ==== Sys2Proof/Laws/Env0.lean ====
section
/-! SUPPORT. What the operations answer in the reference environment (spec/20_memory.md R75, R76). -/

namespace Sys2Proof.Machine

open Sys2Proof

/-- The log after the calls `l`. -/
def logOf (s : State) (l : List Call) : List Event := (onBus s.bus l).reverse ++ s.log

theorem deadlinePassed_false {a b : Nat} (h : a < b + 3000) : deadlinePassed a b = false := by
  rw [Bool.eq_false_iff]
  intro h'
  have := deadlinePassed_iff.mp h'
  omega

theorem deadlinePassed_true {a b : Nat} (h : b + 3000 ≤ a) : deadlinePassed a b = true :=
  deadlinePassed_iff.mpr (by omega)

/-- The two bytes of an address give the address (R54, R105). -/
theorem addrHigh_append_addrLow (a : Addr) : addrHigh a ++ addrLow a = a := by
  simp only [addrHigh, addrLow]
  apply BitVec.eq_of_getLsbD_eq
  intro i hi
  rw [BitVec.getLsbD_append]
  by_cases h : i < 8
  · simp [h]
  · simp [h, show i - 8 < 8 by omega, show 8 + (i - 8) = i by omega]

/-! ### Polling -/

/-- A byte is ready: the poll sees it. -/
theorem pollLoop_hit {s : State} {e : RefEnv} {n : Nat} {b : Byte} {rest : List Byte} (h : s.env = .ref e)
    (hv : e.variant = .plain ∨ (∃ d, e.variant = .late d) ∧ e.late = 0) (hq : e.rxq = b :: rest) :
    pollLoop (n + 1) s = some (true, s.note (.available (rest.length + 1)) (.ref e)) := by
  have ha : e.available = (rest.length + 1, e) := by
    rcases hv with hv | ⟨⟨d, hv⟩, hl⟩ <;> simp [RefEnv.available, RefEnv.poll, *]
  simp only [pollLoop, tAvailable, h, Env.available, ha, Option.map_some, Option.bind_eq_bind, Option.bind_some]
  rw [if_pos (by omega)]

/-- A poll that misses before the deadline leaves the rest of the loop. -/
theorem pollLoop_miss {s : State} {e f : RefEnv} {n : Nat} (h : s.env = .ref e) (ha : e.available = (0, f))
    (ht : f.time < s.t0 + 3000) :
    pollLoop (n + 1) s =
      pollLoop n { s with env := .ref f, log := logOf s [.available 0, .now f.time] } := by
  have hd := deadlinePassed_false ht
  simp [pollLoop, tAvailable, h, Env.available, ha, tNow, State.note, Env.now, hd, logOf, onBus]

/-- A poll that misses at the deadline ends the loop. -/
theorem pollLoop_timeout {s : State} {e f : RefEnv} {n : Nat} (h : s.env = .ref e) (ha : e.available = (0, f))
    (ht : s.t0 + 3000 ≤ f.time) :
    pollLoop (n + 1) s =
      some (false, { s with env := .ref f, log := logOf s [.available 0, .now f.time] }) := by
  have hd := deadlinePassed_true ht
  simp [pollLoop, tAvailable, h, Env.available, ha, tNow, State.note, Env.now, hd, logOf, onBus]

/-- With no byte to come, in plain ENV0 and in ENV0-MUTE, each poll takes 1 ms and the loop ends at the deadline. -/
theorem pollLoop_empty (m : Nat) (s : State) (e : RefEnv) (n : Nat) (h : s.env = .ref e)
    (hv : e.variant = .plain ∨ e.variant = .mute) (hq : e.rxq = []) (ht : e.time + (m + 1) = s.t0 + 3000)
    (hn : m < n) :
    pollLoop n s =
      some (false, { s with
        env := .ref { e with time := s.t0 + 3000 }
        log := logOf s (missedPolls ((List.range (m + 1)).map fun k => e.time + k + 1)) }) := by
  induction m generalizing s e n with
  | zero =>
    obtain ⟨n, rfl⟩ : ∃ k, n = k + 1 := ⟨n - 1, by omega⟩
    have ha : e.available = (0, { e with time := e.time + 1 }) := by
      rcases hv with hv | hv <;> simp [RefEnv.available, hv, RefEnv.poll, hq]
    rw [pollLoop_timeout h ha (by simp only; omega)]
    have he : e.time + 1 = s.t0 + 3000 := by omega
    simp [logOf, onBus, missedPolls, he]
  | succ m ih =>
    obtain ⟨n, rfl⟩ : ∃ k, n = k + 1 := ⟨n - 1, by omega⟩
    have ha : e.available = (0, { e with time := e.time + 1 }) := by
      rcases hv with hv | hv <;> simp [RefEnv.available, hv, RefEnv.poll, hq]
    rw [pollLoop_miss h ha (by simp only; omega),
      ih _ { e with time := e.time + 1 } n rfl hv hq (by change e.time + 1 + (m + 1) = s.t0 + 3000; omega) (by omega)]
    simp only [logOf]
    rw [List.range_succ_eq_map (n := m + 1)]
    simp [missedPolls, onBus, List.flatMap_map, Function.comp_def, Nat.add_assoc, Nat.add_comm 1]

/-! ### Read requests -/

/-- A read request up to its wait. -/
theorem readRequest_ref {dev : DevAddr} {s : State} {e f : RefEnv} (h : s.env = .ref e)
    (hb : e.busyUnseen = false) (hr : RefEnv.request dev 1 e = f) :
    readRequest dev s =
      (pollLoop 3001 { s with
        env := .ref f, log := logOf s [.request dev 1, .now f.time], t0 := f.time }).bind fun r =>
          if r.1 then (tRead r.2).bind fun x => some (true, x) else some (false, r.2) := by
  simp [readRequest, tRequest, h, Env.request, hb, hr, State.note, awaitByte, tNow, Env.now, Env.pollBound, cfg, logOf,
    onBus]

/-- The status read in plain ENV0. -/
theorem readRequest_register {dev : DevAddr} {s : State} {e : RefEnv} (h : s.env = .ref e)
    (hv : e.variant = .plain) (hne : e.memDev ≠ e.regDev) (hd : dev = e.regDev) :
    readRequest dev s =
      some (true, { s with
        env := .ref { e with rxq := [] }
        log := logOf s [.request dev 1, .now e.time, .available 1, .read e.status]
        t0 := e.time
        sbyte := e.status }) := by
  subst hd
  rw [readRequest_ref (f := { e with rxq := [e.status] }) h (by simp [RefEnv.busyUnseen, hv])
    (by simp [RefEnv.request, hv, RefEnv.queue, Ne.symm hne])]
  rw [pollLoop_hit (e := { e with rxq := [e.status] }) rfl (.inl hv) rfl]
  simp [tRead, State.note, Env.takeByte, RefEnv.takeByte, logOf, onBus]

/-- The array read in plain ENV0. -/
theorem readRequest_array {dev : DevAddr} {s : State} {e : RefEnv} (h : s.env = .ref e) (hv : e.variant = .plain)
    (hc : e.cap = 65536) (hd : dev = e.memDev) :
    readRequest dev s =
      some (true, { s with
        env := .ref { e with rxq := [], ptr := e.ptr + 1 }
        log := logOf s [.request dev 1, .now e.time, .available 1, .read (e.sram.read e.ptr.toNat)]
        t0 := e.time
        sbyte := e.sram.read e.ptr.toNat }) := by
  subst hd
  have hp : e.ptr.toNat < 65536 := e.ptr.isLt
  rw [readRequest_ref (f := { e with rxq := [e.sram.read e.ptr.toNat], ptr := e.ptr + 1 }) h
    (by simp [RefEnv.busyUnseen, hv])
    (by simp [RefEnv.request, hv, RefEnv.queue, RefEnv.queueArray, RefEnv.arrayByte, hc, hp])]
  rw [pollLoop_hit (e := { e with rxq := [e.sram.read e.ptr.toNat], ptr := e.ptr + 1 }) rfl (.inl hv) rfl]
  simp [tRead, State.note, Env.takeByte, RefEnv.takeByte, logOf, onBus]

/-- A read request that nothing answers, and any read request in ENV0-MUTE. -/
theorem readRequest_absent {dev : DevAddr} {s : State} {e : RefEnv} (h : s.env = .ref e)
    (hv : e.variant = .plain ∧ e.absent dev ∨ e.variant = .mute) :
    readRequest dev s =
      some (false, { s with
        env := .ref { e with rxq := [], time := e.time + 3000 }
        log := logOf s (.request dev 1 :: .now e.time :: missedPolls ((List.range 3000).map fun k => e.time + k + 1))
        t0 := e.time }) := by
  have hr : RefEnv.request dev 1 e = { e with rxq := [] } := by
    rcases hv with ⟨hv, ha⟩ | hv
    · simp only [RefEnv.absent] at ha
      simp [RefEnv.request, hv, RefEnv.queue, ha]
    · simp [RefEnv.request, hv]
  rw [readRequest_ref h (by rcases hv with ⟨hv, -⟩ | hv <;> simp [RefEnv.busyUnseen, hv]) hr, pollLoop_empty 2999 _ _ _ rfl (by simp; tauto) rfl rfl (by omega)]
  simp [logOf, onBus]

/-! ### Frames -/

/-- A write frame in the reference environment: `T.end` on the frame's device and bytes. -/
theorem sendFrame_ref {f : Frame} {s : State} {e : RefEnv} (h : s.env = .ref e) :
    sendFrame f s =
      some { s with
        env := ({ e with txdev := f.dev, txbuf := f.bytes } : RefEnv).endFrame.2
        log := logOf s (frameCalls f.dev f.bytes f.stop
          ({ e with txdev := f.dev, txbuf := f.bytes } : RefEnv).endFrame.1)
        st := ({ e with txdev := f.dev, txbuf := f.bytes } : RefEnv).endFrame.1 } := by
  have hw : ∀ (bs : List Byte) (s : State) (e : RefEnv), s.env = .ref e →
      tWrites bs s = some { s with env := .ref { e with txbuf := e.txbuf ++ bs }, log := logOf s (bs.map .write) } := by
    intro bs
    induction bs with
    | nil => intro s e h; simp [tWrites, logOf, onBus, ← h]
    | cons b rest ih =>
      intro s e h
      simp only [tWrites, tWrite, h, Env.write, Option.map_some, Option.bind_some]
      rw [ih _ _ rfl]
      simp [State.note, logOf, onBus]
  simp only [sendFrame, tBegin, h, Env.begin, Option.map_some, Option.bind_eq_bind, Option.bind_some]
  rw [hw _ _ _ rfl]
  simp [tEnd, Env.endFrame, State.note, logOf, onBus, frameCalls]

/-- An address frame below the capacity sets the chip's address. -/
theorem RefEnv.endFrame_address {e : RefEnv} {hi lo : Byte} (hv : e.variant = .plain ∨ e.variant = .mute)
    (hc : (hi ++ lo).toNat < e.cap) (hb : e.txbuf = [hi, lo]) (hd : e.txdev = e.memDev) :
    e.endFrame = (0, .ref { e with ptr := hi ++ lo }) := by
  rcases hv with hv | hv <;>
    simp only [RefEnv.endFrame, hv, RefEnv.deliver, hd, if_true, RefEnv.deliverArray, hb, RefEnv.addressStatus, hc]

/-- An array write frame stores its byte. -/
theorem RefEnv.endFrame_array {e : RefEnv} {hi lo v : Byte} (hv : e.variant = .plain) (hc : e.cap = 65536)
    (hb : e.txbuf = [hi, lo, v]) (hd : e.txdev = e.memDev) :
    e.endFrame = (0, .ref { e with ptr := hi ++ lo + 1, sram := e.sram.write (hi ++ lo).toNat v }) := by
  have := (hi ++ lo).isLt
  simp only [RefEnv.endFrame, hv, RefEnv.deliver, hd, if_true, RefEnv.deliverArray, hb, RefEnv.storeRun, hc, this]

/-- WRITEREG in the reference environment, from what `T.end` does with its frame. -/
theorem writeReg_ref {r : LogicalReg} {v st : Byte} {s : State} {e f : RefEnv} (h : s.env = .ref e)
    (hend : ({ e with txdev := s.regAddr, txbuf := [regAddress r, v] } : RefEnv).endFrame = (st, .ref f)) :
    writeReg r v s =
      some { s with
        env := .ref { f with time := f.time + 1 }
        wReg := regAddress r
        wVal := v
        st := st
        wOk := statusOk st
        log := logOf s (frameCalls s.regAddr [regAddress r, v] true st ++ [.delay 1]) } := by
  have h1 := sendFrame_ref (f := registerFrame { s with wReg := regAddress r, wVal := v })
    (s := { s with wReg := regAddress r, wVal := v }) h
  simp only [registerFrame] at h1
  rw [hend] at h1
  simp only [writeReg, registerFrame, h1, Option.bind_eq_bind, Option.bind_some, tDelay, Env.delay, Option.map_some,
    State.note, cfg]
  simp [logOf, onBus]

end Sys2Proof.Machine
end

