-- ==== Sys2Proof/Laws/EnvLegal.lean ====
section
/-! SUPPORT. Every operation of the environment keeps the arrays of the chip in canonical form and its
capacity in range. -/

namespace Sys2Proof.Machine

open Sys2Proof

/-- The arrays of an environment are in canonical form, and its capacity is in range. -/
def EnvLegal (e : Env) : Prop :=
  match e with
  | .ref e => Memory.wf e.sram ∧ Memory.wf e.ee ∧ 1 ≤ e.cap ∧ e.cap ≤ 65536
  | .scripted _ => True

/-- The clauses of the invariant about the environment. -/
theorem envLegal_iff (s : State) : ArraysCanonical s ∧ CapacityLegal s ↔ EnvLegal s.env := by
  simp only [ArraysCanonical, CapacityLegal, EnvLegal]
  cases s.env with
  | ref e => exact and_assoc
  | scripted e => exact and_self_iff

/-! ### The reference environment -/

theorem RefEnv.storeRun_legal (bs : List Byte) (e : RefEnv) (h : EnvLegal (.ref e)) :
    EnvLegal (RefEnv.storeRun bs e).2 := by
  induction bs generalizing e with
  | nil => exact h
  | cons b bs ih =>
    simp only [RefEnv.storeRun]
    split
    · exact ih _ ⟨Memory.write_wf _ _ _ h.1 e.ptr.isLt, h.2⟩
    · trivial

theorem RefEnv.deliver_legal (e : RefEnv) (h : EnvLegal (.ref e)) : EnvLegal e.deliver.2 := by
  simp only [RefEnv.deliver]
  split
  · simp only [RefEnv.deliverArray]
    split
    · exact h
    · exact RefEnv.storeRun_legal _ _ h
    · exact h
  · split
    · simp only [RefEnv.deliverRegister, RefEnv.runCommand]
      repeat' split
      all_goals first | exact h | trivial | exact ⟨h.1, h.1, h.2.2⟩ | exact ⟨h.2.1, h.2⟩
    · exact h

theorem RefEnv.endFrame_legal (e : RefEnv) (h : EnvLegal (.ref e)) : EnvLegal e.endFrame.2 := by
  simp only [RefEnv.endFrame]
  split
  all_goals first | exact RefEnv.deliver_legal e h | exact h |
    (split <;> first | exact RefEnv.deliver_legal e h | trivial)

/-- A read request changes no byte and not the capacity. -/
theorem RefEnv.request_keeps (e : RefEnv) (a : DevAddr) (n : Nat) :
    (RefEnv.request a n e).sram = e.sram ∧ (RefEnv.request a n e).ee = e.ee ∧ (RefEnv.request a n e).cap = e.cap := by
  have hq : ∀ (k : Nat) (e : RefEnv),
      (RefEnv.queueArray k e).sram = e.sram ∧ (RefEnv.queueArray k e).ee = e.ee ∧ (RefEnv.queueArray k e).cap = e.cap := by
    intro k
    induction k with
    | zero => intro e; exact ⟨rfl, rfl, rfl⟩
    | succ k ih => intro e; rw [RefEnv.queueArray]; exact ih _
  have hqueue : ∀ e : RefEnv, (RefEnv.queue a n e).sram = e.sram ∧ (RefEnv.queue a n e).ee = e.ee ∧ (RefEnv.queue a n e).cap = e.cap := by
    intro e
    simp only [RefEnv.queue]
    split
    · exact hq _ _
    · split <;> exact ⟨rfl, rfl, rfl⟩
  simp only [RefEnv.request]
  split <;> first | exact hqueue _ | exact ⟨rfl, rfl, rfl⟩

/-- A poll changes no byte and not the capacity. -/
theorem RefEnv.available_keeps (e : RefEnv) : e.available.2.sram = e.sram ∧ e.available.2.ee = e.ee ∧ e.available.2.cap = e.cap := by
  have hp : e.poll.2.sram = e.sram ∧ e.poll.2.ee = e.ee ∧ e.poll.2.cap = e.cap := by
    simp only [RefEnv.poll]
    split <;> exact ⟨rfl, rfl, rfl⟩
  simp only [RefEnv.available]
  split <;> first | exact hp | (split <;> first | exact hp | exact ⟨rfl, rfl, rfl⟩)

/-! ### Primitive calls -/

theorem tInit_legal {s t : State} (h : tInit s = some t) (hw : EnvLegal s.env) :
    EnvLegal t.env := by
  obtain ⟨e, he, rfl⟩ := tInit_some.mp h
  cases hs : s.env with
  | ref r =>
    rw [hs] at he hw
    simp only [Env.init, Option.some.injEq] at he
    subst he
    exact hw
  | scripted r =>
    rw [hs] at he
    simp only [Env.init, Option.map_eq_some_iff] at he
    obtain ⟨_, _, rfl⟩ := he
    trivial

theorem tBegin_legal {a : DevAddr} {s t : State} (h : tBegin a s = some t) (hw : EnvLegal s.env) :
    EnvLegal t.env := by
  obtain ⟨e, he, rfl⟩ := tBegin_some.mp h
  cases hs : s.env with
  | ref r =>
    rw [hs] at he hw
    simp only [Env.begin, Option.some.injEq] at he
    subst he
    exact hw
  | scripted r =>
    rw [hs] at he
    simp only [Env.begin, Option.map_eq_some_iff] at he
    obtain ⟨_, _, rfl⟩ := he
    trivial

theorem tWrite_legal {b : Byte} {s t : State} (h : tWrite b s = some t) (hw : EnvLegal s.env) :
    EnvLegal t.env := by
  obtain ⟨e, he, rfl⟩ := tWrite_some.mp h
  cases hs : s.env with
  | ref r =>
    rw [hs] at he hw
    simp only [Env.write, Option.some.injEq] at he
    subst he
    exact hw
  | scripted r =>
    rw [hs] at he
    simp only [Env.write, Option.map_eq_some_iff] at he
    obtain ⟨_, _, rfl⟩ := he
    trivial

theorem tEnd_legal {stop : Bool} {s t : State} (h : tEnd stop s = some t) (hw : EnvLegal s.env) :
    EnvLegal t.env := by
  obtain ⟨st, e, he, rfl⟩ := tEnd_some.mp h
  cases hs : s.env with
  | ref r =>
    rw [hs] at he hw
    simp only [Env.endFrame, Option.some.injEq] at he
    have := RefEnv.endFrame_legal r hw
    rw [he] at this
    exact this
  | scripted r =>
    rw [hs] at he
    simp only [Env.endFrame, Option.map_eq_some_iff, Prod.mk.injEq] at he
    obtain ⟨_, _, _, rfl⟩ := he
    trivial

theorem tRequest_legal {a : DevAddr} {n : Nat} {s t : State} (h : tRequest a n s = some t)
    (hw : EnvLegal s.env) : EnvLegal t.env := by
  obtain ⟨e, he, rfl⟩ := tRequest_some.mp h
  cases hs : s.env with
  | ref r =>
    rw [hs] at he hw
    simp only [Env.request, Option.some.injEq] at he
    subst he
    simp only [State.note]
    split
    · trivial
    · simp only [EnvLegal, RefEnv.request_keeps]
      exact hw
  | scripted r =>
    rw [hs] at he
    simp only [Env.request, Option.map_eq_some_iff] at he
    obtain ⟨_, _, rfl⟩ := he
    trivial

theorem tAvailable_legal {n : Nat} {s t : State} (h : tAvailable s = some (n, t)) (hw : EnvLegal s.env) :
    EnvLegal t.env := by
  obtain ⟨e, he, rfl⟩ := tAvailable_some.mp h
  cases hs : s.env with
  | ref r =>
    rw [hs] at he hw
    simp only [Env.available, Option.some.injEq, Prod.mk.injEq] at he
    obtain ⟨_, rfl⟩ := he
    simp only [EnvLegal, State.note, RefEnv.available_keeps]
    exact hw
  | scripted r =>
    rw [hs] at he
    simp only [Env.available, Option.map_eq_some_iff, Prod.mk.injEq] at he
    obtain ⟨_, _, _, rfl⟩ := he
    trivial

theorem tRead_legal {s t : State} (h : tRead s = some t) (hw : EnvLegal s.env) :
    EnvLegal t.env := by
  obtain ⟨b, e, he, rfl⟩ := tRead_some.mp h
  cases hs : s.env with
  | ref r =>
    rw [hs] at he hw
    simp only [Env.takeByte, RefEnv.takeByte, Option.some.injEq, Prod.mk.injEq] at he
    obtain ⟨_, rfl⟩ := he
    simp only [State.note]
    split <;> exact hw
  | scripted r =>
    rw [hs] at he
    simp only [Env.takeByte, Option.map_eq_some_iff, Prod.mk.injEq] at he
    obtain ⟨_, _, _, rfl⟩ := he
    trivial

theorem tNow_legal {n : Nat} {s t : State} (h : tNow s = some (n, t)) (hw : EnvLegal s.env) :
    EnvLegal t.env := by
  obtain ⟨e, he, rfl⟩ := tNow_some.mp h
  cases hs : s.env with
  | ref r =>
    rw [hs] at he hw
    simp only [Env.now, Option.some.injEq, Prod.mk.injEq] at he
    obtain ⟨_, rfl⟩ := he
    exact hw
  | scripted r =>
    rw [hs] at he
    simp only [Env.now, Option.map_eq_some_iff, Prod.mk.injEq] at he
    obtain ⟨_, _, _, rfl⟩ := he
    trivial

theorem tDelay_legal {n : Nat} {s t : State} (h : tDelay n s = some t) (hw : EnvLegal s.env) :
    EnvLegal t.env := by
  obtain ⟨e, he, rfl⟩ := tDelay_some.mp h
  cases hs : s.env with
  | ref r =>
    rw [hs] at he hw
    simp only [Env.delay, Option.some.injEq] at he
    subst he
    exact hw
  | scripted r =>
    rw [hs] at he
    simp only [Env.delay, Option.map_eq_some_iff] at he
    obtain ⟨_, _, rfl⟩ := he
    trivial

/-! ### Operations -/

theorem tWrites_legal {bs : List Byte} :
    ∀ {s t : State}, tWrites bs s = some t → EnvLegal s.env → EnvLegal t.env := by
  induction bs with
  | nil => intro s t h hw; simp only [tWrites, Option.some.injEq] at h; subst h; exact hw
  | cons b bs ih =>
    intro s t h hw
    simp only [tWrites, Option.bind_eq_some_iff] at h
    obtain ⟨u, hu, h⟩ := h
    exact ih h (tWrite_legal hu hw)

theorem sendFrame_legal {f : Frame} {s t : State} (h : sendFrame f s = some t) (hw : EnvLegal s.env) :
    EnvLegal t.env := by
  simp only [sendFrame, Option.bind_eq_bind, Option.bind_eq_some_iff] at h
  obtain ⟨u, hu, v, hv, h⟩ := h
  exact tEnd_legal h (tWrites_legal hv (tBegin_legal hu hw))

theorem pollLoop_legal {n : Nat} :
    ∀ {s t : State} {ok : Bool}, pollLoop n s = some (ok, t) → EnvLegal s.env → EnvLegal t.env := by
  induction n with
  | zero => intro s t ok h; simp [pollLoop] at h
  | succ n ih =>
    intro s t ok h hw
    simp only [pollLoop, Option.bind_eq_bind, Option.bind_eq_some_iff, Prod.exists] at h
    obtain ⟨k, u, hu, h⟩ := h
    have hw1 := tAvailable_legal hu hw
    split at h
    · simp only [Option.some.injEq, Prod.mk.injEq] at h; obtain ⟨_, rfl⟩ := h; exact hw1
    · simp only [Option.bind_eq_some_iff, Prod.exists] at h
      obtain ⟨m, v, hv, h⟩ := h
      have hw2 := tNow_legal hv hw1
      split at h
      · simp only [Option.some.injEq, Prod.mk.injEq] at h; obtain ⟨_, rfl⟩ := h; exact hw2
      · exact ih h hw2

theorem readRequest_legal {dev : DevAddr} {s t : State} {ok : Bool} (h : readRequest dev s = some (ok, t))
    (hw : EnvLegal s.env) : EnvLegal t.env := by
  simp only [readRequest, awaitByte, Option.bind_eq_bind, Option.bind_eq_some_iff, Prod.exists] at h
  obtain ⟨u, hu, ok', v, ⟨n, x, hx, hv⟩, h⟩ := h
  have := pollLoop_legal hv (tNow_legal hx (tRequest_legal hu hw) :)
  split at h
  · simp only [Option.bind_eq_some_iff, Option.some.injEq, Prod.mk.injEq] at h
    obtain ⟨y, hy, _, rfl⟩ := h
    exact tRead_legal hy this
  · simp only [Option.some.injEq, Prod.mk.injEq] at h
    obtain ⟨_, rfl⟩ := h; exact this

theorem writeReg_legal {r : LogicalReg} {v : Byte} {s t : State} (h : writeReg r v s = some t)
    (hw : EnvLegal s.env) : EnvLegal t.env := by
  simp only [writeReg, Option.bind_eq_bind, Option.bind_eq_some_iff, Option.some.injEq] at h
  obtain ⟨u, hu, x, hx, rfl⟩ := h
  exact (tDelay_legal hx (sendFrame_legal hu hw :) :)

end Sys2Proof.Machine
end

