-- ==== Sys2Proof/Laws/PerInstr.lean ====
section
/-! SUPPORT. Families of statements made per command. -/

namespace Sys2Proof.Laws

open Sys2Proof

/-- Every word assembled around an opcode has the opcode in bits 31:28 (spec/30_encoding.md R91). -/
theorem assemble_opcode (op : Opcode) (pin2 pin1 : Bool) (mid : BitVec 16) (low : Byte) :
    (assemble op pin2 pin1 mid low).extractLsb' 28 4 = op := by
  apply BitVec.eq_of_getLsbD_eq
  intro i hi
  rw [BitVec.getLsbD_extractLsb', assemble]
  simp only [BitVec.getLsbD_append, hi, decide_true, Bool.true_and]
  rw [if_neg (by omega), if_neg (by omega), if_neg (by omega), if_neg (by omega), if_neg (by omega)]
  congr 1
  omega

/-- The canonical word of a command carries the command's opcode in bits 31:28 (R91, R92, R94). -/
def OpcodeField.Statement (i : Instr) : Prop := (encode i).extractLsb' 28 4 = i.opcode

theorem OpcodeField.bind (bus : BusId) (pin1 pin2 : Bool) : OpcodeField.Statement (Instr.bind bus pin1 pin2) :=
  assemble_opcode _ _ _ _ _

theorem OpcodeField.bindDefault : OpcodeField.Statement Instr.bindDefault :=
  assemble_opcode _ _ _ _ _

theorem OpcodeField.read (addr : Addr) : OpcodeField.Statement (Instr.read addr) :=
  assemble_opcode _ _ _ _ _

theorem OpcodeField.write (addr : Addr) (data : Byte) : OpcodeField.Statement (Instr.write addr data) :=
  assemble_opcode _ _ _ _ _

theorem OpcodeField.getStatus : OpcodeField.Statement Instr.getStatus :=
  assemble_opcode _ _ _ _ _

theorem OpcodeField.store : OpcodeField.Statement Instr.store :=
  assemble_opcode _ _ _ _ _

theorem OpcodeField.recallArray : OpcodeField.Statement Instr.recallArray :=
  assemble_opcode _ _ _ _ _

theorem OpcodeField.isEvent : OpcodeField.Statement Instr.isEvent :=
  assemble_opcode _ _ _ _ _

theorem OpcodeField.isAutostore : OpcodeField.Statement Instr.isAutostore :=
  assemble_opcode _ _ _ _ _

theorem OpcodeField.isWrprot : OpcodeField.Statement Instr.isWrprot :=
  assemble_opcode _ _ _ _ _

theorem OpcodeField.isModified : OpcodeField.Statement Instr.isModified :=
  assemble_opcode _ _ _ _ _

theorem OpcodeField.setAutostore (en : Bool) : OpcodeField.Statement (Instr.setAutostore en) :=
  assemble_opcode _ _ _ _ _

theorem OpcodeField.reservedC : OpcodeField.Statement Instr.reservedC :=
  assemble_opcode _ _ _ _ _

theorem OpcodeField.reservedD : OpcodeField.Statement Instr.reservedD :=
  assemble_opcode _ _ _ _ _

theorem OpcodeField.reservedE : OpcodeField.Statement Instr.reservedE :=
  assemble_opcode _ _ _ _ _

theorem OpcodeField.reservedF : OpcodeField.Statement Instr.reservedF :=
  assemble_opcode _ _ _ _ _

end Sys2Proof.Laws
end

