-- ==== Sys2Proof/Laws/Phases.lean ====
section
/-! SUPPORT. How the sequencer follows the operations: primitives commute with the phase, and a stretch of phases
leads where its operation leads, or to a phase in which the block is stuck. -/

namespace Sys2Proof.Machine

open Sys2Proof

/-! ### Ticks in mid-command -/

/-- In mid-command only `reset` matters among the inputs (spec/44_sequencer.md R221, R239). -/
theorem onSample_inCommand (acc : CmdWord → State → Host.Outcome State Fault Refusal) (h : HostIn) (s : State)
    (hr : h.reset = false) (hp : s.phase.inCommand = true) : onSample acc h s = progress s := by
  simp only [onSample, hr, Bool.false_eq_true, if_false]
  cases h : s.phase <;> first | rfl | (rw [h] at hp; cases hp)

/-- With a quiet host a tick in mid-command is the progress of the command. -/
theorem tick_eq_progress {s : State} (hh : s.host = []) (hc : s.phase.inCommand = true) : tick s = progress s := by
  have : consumeSample s = s := by
    simp [consumeSample, hh]
    rw [← hh]
  simp only [tick, nextSample, hh, this]
  exact onSample_inCommand _ _ _ rfl hc

/-- `s` in the phase `p`. -/
def atPhase (p : Phase) (s : State) : State := { s with phase := p }

/-- Ticks lead from `s` to `t`. -/
def Reaches (s t : State) : Prop := ∃ n, tickRun n s = .next t

theorem Reaches.refl (s : State) : Reaches s s := ⟨0, rfl⟩

theorem Reaches.step {s t u : State} (h : tick s = .next t) (h2 : Reaches t u) : Reaches s u := by
  obtain ⟨n, hn⟩ := h2
  exact ⟨n + 1, by simp [tickRun, h, hn]⟩

/-- Ticks from `u` lead to where an operation ends, and into a phase the block is stuck in where the operation never
returns. -/
def Follows (u : State) (r : Option State) : Prop :=
  match r with
  | some t => Reaches u t
  | none => ∃ v, Reaches u v ∧ Stuck v ∧ tick v = .next v

theorem Follows.step {s t : State} {r : Option State} (h : tick s = .next t) (h2 : Follows t r) : Follows s r := by
  cases r with
  | some t => exact Reaches.step h h2
  | none =>
    obtain ⟨v, h3, h4⟩ := h2
    exact ⟨v, Reaches.step h h3, h4⟩

/-! ### What calls leave unchanged -/

/-- Only the environment, the log and the registers that calls write differ. -/
def CallsOnly (s t : State) : Prop :=
  t = { s with env := t.env, log := t.log, st := t.st, sbyte := t.sbyte, t0 := t.t0 }

theorem CallsOnly.refl (s : State) : CallsOnly s s := rfl

theorem CallsOnly.latched {s t : State} (h : CallsOnly s t) : latched t = latched s := by
  rw [h]
  rfl

theorem CallsOnly.host {s t : State} (h : CallsOnly s t) : t.host = s.host := by rw [h]

theorem CallsOnly.trans {s t u : State} (h : CallsOnly s t) (k : CallsOnly t u) : CallsOnly s u := by
  unfold CallsOnly at *
  rw [k, h]

theorem tInit_callsOnly {s t : State} (h : tInit s = some t) : CallsOnly s t := by
  obtain ⟨e, -, rfl⟩ := tInit_some.mp h
  rfl

theorem tBegin_callsOnly {a : DevAddr} {s t : State} (h : tBegin a s = some t) : CallsOnly s t := by
  obtain ⟨e, -, rfl⟩ := tBegin_some.mp h
  rfl

theorem tWrite_callsOnly {b : Byte} {s t : State} (h : tWrite b s = some t) : CallsOnly s t := by
  obtain ⟨e, -, rfl⟩ := tWrite_some.mp h
  rfl

theorem tEnd_callsOnly {stop : Bool} {s t : State} (h : tEnd stop s = some t) : CallsOnly s t := by
  obtain ⟨_, e, -, rfl⟩ := tEnd_some.mp h
  rfl

theorem tRequest_callsOnly {a : DevAddr} {n : Nat} {s t : State} (h : tRequest a n s = some t) : CallsOnly s t := by
  obtain ⟨e, -, rfl⟩ := tRequest_some.mp h
  rfl

theorem tAvailable_callsOnly {n : Nat} {s t : State} (h : tAvailable s = some (n, t)) : CallsOnly s t := by
  obtain ⟨e, -, rfl⟩ := tAvailable_some.mp h
  rfl

theorem tRead_callsOnly {s t : State} (h : tRead s = some t) : CallsOnly s t := by
  obtain ⟨_, e, -, rfl⟩ := tRead_some.mp h
  rfl

theorem tNow_callsOnly {n : Nat} {s t : State} (h : tNow s = some (n, t)) : CallsOnly s t := by
  obtain ⟨e, -, rfl⟩ := tNow_some.mp h
  rfl

theorem tDelay_callsOnly {n : Nat} {s t : State} (h : tDelay n s = some t) : CallsOnly s t := by
  obtain ⟨e, -, rfl⟩ := tDelay_some.mp h
  rfl

/-! ### Primitives do not see the phase -/

theorem tInit_atPhase (p : Phase) (s : State) : tInit (atPhase p s) = (tInit s).map (atPhase p) := by
  simp only [tInit, Option.map_map]
  rfl

theorem tBegin_atPhase (a : DevAddr) (p : Phase) (s : State) :
    tBegin a (atPhase p s) = (tBegin a s).map (atPhase p) := by
  simp only [tBegin, Option.map_map]
  rfl

theorem tWrite_atPhase (b : Byte) (p : Phase) (s : State) :
    tWrite b (atPhase p s) = (tWrite b s).map (atPhase p) := by
  simp only [tWrite, Option.map_map]
  rfl

theorem tEnd_atPhase (stop : Bool) (p : Phase) (s : State) :
    tEnd stop (atPhase p s) = (tEnd stop s).map (atPhase p) := by
  simp only [tEnd, Option.map_map]
  rfl

theorem tRequest_atPhase (a : DevAddr) (n : Nat) (p : Phase) (s : State) :
    tRequest a n (atPhase p s) = (tRequest a n s).map (atPhase p) := by
  simp only [tRequest, Option.map_map]
  rfl

theorem tAvailable_atPhase (p : Phase) (s : State) :
    tAvailable (atPhase p s) = (tAvailable s).map fun r => (r.1, atPhase p r.2) := by
  simp only [tAvailable, Option.map_map]
  rfl

theorem tRead_atPhase (p : Phase) (s : State) : tRead (atPhase p s) = (tRead s).map (atPhase p) := by
  simp only [tRead, Option.map_map]
  rfl

theorem tNow_atPhase (p : Phase) (s : State) :
    tNow (atPhase p s) = (tNow s).map fun r => (r.1, atPhase p r.2) := by
  simp only [tNow, Option.map_map]
  rfl

theorem tDelay_atPhase (n : Nat) (p : Phase) (s : State) :
    tDelay n (atPhase p s) = (tDelay n s).map (atPhase p) := by
  simp only [tDelay, Option.map_map]
  rfl

theorem frameOf_atPhase (i : Instr) (p : Phase) (s : State) : frameOf i (atPhase p s) = frameOf i s := by
  cases i <;> rfl

/-! ### One phase -/

/-- A phase whose work is the operation `r`: the ticks follow `r` and what comes after it. -/
theorem follows_phase {i : Instr} {p : Phase} {s : State} (r : Option State) (nx k : State → Option State)
    (hi : latched s = i) (hh : s.host = []) (hc : p.inCommand = true) (hon : onPath i p = true)
    (hrun : runPhase i (atPhase p s) = leaveBy (r.map (atPhase p)) nx)
    (hk : ∀ t, r = some t → ∃ w, nx (atPhase p t) = some w ∧ Follows w (k t)) :
    Follows (atPhase p s) (r.bind k) := by
  have hs : seqStep (atPhase p s) = leaveBy (r.map (atPhase p)) nx := by
    rw [← hrun]
    simp only [seqStep]
    have : latched (atPhase p s) = i := hi
    rw [this]
    exact if_pos hon
  have ht := tick_eq_progress (s := atPhase p s) hh hc
  cases r with
  | none =>
    refine ⟨atPhase p s, Reaches.refl _, ⟨hc, hs⟩, ?_⟩
    rw [ht]
    simp only [progress, hs]
    rfl
  | some t =>
    obtain ⟨w, hw, hsim⟩ := hk t rfl
    refine Follows.step (t := w) ?_ hsim
    rw [ht]
    simp only [progress, hs, Option.map_some, leaveBy, hw]

/-- TX_BEGIN. -/
theorem follows_txBegin {i : Instr} {s : State} {f : Frame} (k : State → Option State) (hi : latched s = i)
    (hh : s.host = []) (hf : frameOf i s = some f) (hon : onPath i .txBegin = true)
    (hk : ∀ t, CallsOnly s t → Follows (atPhase .txB0 t) (k t)) :
    Follows (atPhase .txBegin s) ((tBegin f.dev s).bind k) := by
  refine follows_phase _ (thenPhase .txB0) _ hi hh rfl hon ?_ fun t ht => ⟨_, rfl, hk t (tBegin_callsOnly ht)⟩
  change (match frameOf i (atPhase .txBegin s) with | some f => _ | none => _) = _
  rw [frameOf_atPhase, hf]
  exact congrArg (leaveBy · _) (tBegin_atPhase _ _ _)

/-- TX_B0, TX_B1 or TX_B2: byte number `n` of the frame. -/
theorem follows_txByte {i : Instr} {s : State} {f : Frame} {p q : Phase} {n : Nat} {b : Byte}
    (k : State → Option State) (hi : latched s = i) (hh : s.host = []) (hf : frameOf i s = some f)
    (hb : f.bytes[n]? = some b) (hc : p.inCommand = true) (hon : onPath i p = true)
    (hrun : runPhase i (atPhase p s) = sendByte i n q (atPhase p s))
    (hk : ∀ t, CallsOnly s t → Follows (atPhase q t) (k t)) : Follows (atPhase p s) ((tWrite b s).bind k) := by
  refine follows_phase _ (thenPhase q) _ hi hh hc hon ?_ fun t ht => ⟨_, rfl, hk t (tWrite_callsOnly ht)⟩
  rw [hrun]
  simp only [sendByte, frameOf_atPhase, hf, Option.bind_some, hb]
  exact congrArg (leaveBy · _) (tWrite_atPhase _ _ _)

/-- TX_END. -/
theorem follows_txEnd {i : Instr} {s : State} {f : Frame} (k : State → Option State) (hi : latched s = i)
    (hh : s.host = []) (hf : frameOf i s = some f) (hon : onPath i .txEnd = true)
    (hk : ∀ t, CallsOnly s t → ∃ w, afterFrame i (atPhase .txEnd t) = some w ∧ Follows w (k t)) :
    Follows (atPhase .txEnd s) ((tEnd f.stop s).bind k) := by
  refine follows_phase _ (afterFrame i) _ hi hh rfl hon ?_ fun t ht => hk t (tEnd_callsOnly ht)
  change (match frameOf i (atPhase .txEnd s) with | some f => _ | none => _) = _
  rw [frameOf_atPhase, hf]
  exact congrArg (leaveBy · _) (tEnd_atPhase _ _ _)

/-! ### Frames -/

/-- TX_BEGIN to TX_END for a frame of two bytes. -/
theorem follows_frame2 {i : Instr} {s : State} {dev : DevAddr} {b0 b1 : Byte} {stop : Bool}
    (k : State → Option State) (hi : latched s = i) (hh : s.host = [])
    (hf : ∀ t, CallsOnly s t → frameOf i t = some ⟨dev, [b0, b1], stop⟩)
    (hon : ∀ p ∈ [Phase.txBegin, .txB0, .txB1, .txEnd], onPath i p = true)
    (hk : ∀ t, CallsOnly s t → ∃ w, afterFrame i (atPhase .txEnd t) = some w ∧ Follows w (k t)) :
    Follows (atPhase .txBegin s) ((sendFrame ⟨dev, [b0, b1], stop⟩ s).bind k) := by
  have e : (sendFrame ⟨dev, [b0, b1], stop⟩ s).bind k =
      (tBegin dev s).bind fun s => (tWrite b0 s).bind fun s => (tWrite b1 s).bind fun s => (tEnd stop s).bind k := by
    simp [sendFrame, tWrites, Option.bind_assoc]
  rw [e]
  refine follows_txBegin _ hi hh (hf s (CallsOnly.refl s)) (hon _ (by simp)) fun t ht => ?_
  refine follows_txByte (n := 0) _ (ht.latched.trans hi) (ht.host.trans hh) (hf t ht) rfl rfl (hon _ (by simp)) rfl
    fun u hu => ?_
  have su := ht.trans hu
  refine follows_txByte (n := 1) (q := .txEnd) _ (su.latched.trans hi) (su.host.trans hh) (hf u su) rfl rfl
    (hon _ (by simp)) ?_ fun v hv => ?_
  · change sendByte i 1 (afterB1 i (atPhase .txB1 u)) _ = _
    simp only [afterB1, frameOf_atPhase, hf u su]
    rfl
  have sv := su.trans hv
  exact follows_txEnd k (sv.latched.trans hi) (sv.host.trans hh) (hf v sv) (hon _ (by simp)) fun w hw =>
    hk w (sv.trans hw)

/-- TX_BEGIN to TX_END for a frame of three bytes. -/
theorem follows_frame3 {i : Instr} {s : State} {dev : DevAddr} {b0 b1 b2 : Byte} {stop : Bool}
    (k : State → Option State) (hi : latched s = i) (hh : s.host = [])
    (hf : ∀ t, CallsOnly s t → frameOf i t = some ⟨dev, [b0, b1, b2], stop⟩)
    (hon : ∀ p ∈ [Phase.txBegin, .txB0, .txB1, .txB2, .txEnd], onPath i p = true)
    (hk : ∀ t, CallsOnly s t → ∃ w, afterFrame i (atPhase .txEnd t) = some w ∧ Follows w (k t)) :
    Follows (atPhase .txBegin s) ((sendFrame ⟨dev, [b0, b1, b2], stop⟩ s).bind k) := by
  have e : (sendFrame ⟨dev, [b0, b1, b2], stop⟩ s).bind k =
      (tBegin dev s).bind fun s => (tWrite b0 s).bind fun s => (tWrite b1 s).bind fun s =>
        (tWrite b2 s).bind fun s => (tEnd stop s).bind k := by
    simp [sendFrame, tWrites, Option.bind_assoc]
  rw [e]
  refine follows_txBegin _ hi hh (hf s (CallsOnly.refl s)) (hon _ (by simp)) fun t ht => ?_
  refine follows_txByte (n := 0) _ (ht.latched.trans hi) (ht.host.trans hh) (hf t ht) rfl rfl (hon _ (by simp)) rfl
    fun u hu => ?_
  have su := ht.trans hu
  refine follows_txByte (n := 1) (q := .txB2) _ (su.latched.trans hi) (su.host.trans hh) (hf u su) rfl rfl
    (hon _ (by simp)) ?_ fun v hv => ?_
  · change sendByte i 1 (afterB1 i (atPhase .txB1 u)) _ = _
    simp only [afterB1, frameOf_atPhase, hf u su]
    rfl
  have sv := su.trans hv
  refine follows_txByte (n := 2) _ (sv.latched.trans hi) (sv.host.trans hh) (hf v sv) rfl rfl (hon _ (by simp)) rfl
    fun w hw => ?_
  have sw := sv.trans hw
  exact follows_txEnd k (sw.latched.trans hi) (sw.host.trans hh) (hf w sw) (hon _ (by simp)) fun x hx =>
    hk x (sw.trans hx)

/-! ### Waiting for a byte -/

/-- RX_POLL and RX_TIME follow the poll loop, up to a byte or the deadline. -/
theorem follows_poll {i : Instr} (k : Bool × State → Option State) (s0 : State) (hi : latched s0 = i)
    (hh : s0.host = []) (h1 : onPath i .rxPoll = true) (h2 : onPath i .rxTime = true)
    (hhit : ∀ t, CallsOnly s0 t → Follows (atPhase .rxRead t) (k (true, t)))
    (hmiss : ∀ t, CallsOnly s0 t → Follows (fail .rspTimeout t) (k (false, t))) (n : Nat) (s : State)
    (hs : CallsOnly s0 s) (hm : pollsLeft s ≤ n) : Follows (atPhase .rxPoll s) ((pollLoop n s).bind k) := by
  induction n generalizing s with
  | zero =>
    simp only [pollsLeft] at hm
    split at hm <;> omega
  | succ n ih =>
    have hpoll : seqStep (atPhase .rxPoll s) =
        leaveBy ((tAvailable s).map fun r => atPhase (if 1 ≤ r.1 then .rxRead else .rxTime) r.2) some := by
      simp only [seqStep]
      rw [show latched (atPhase .rxPoll s) = i from hs.latched.trans hi]
      refine (if_pos h1).trans ?_
      refine (congrArg (leaveBy · some) (?_ : (tAvailable (atPhase .rxPoll s)).map _ = _))
      rw [tAvailable_atPhase, Option.map_map]
      rfl
    have ht := tick_eq_progress (s := atPhase .rxPoll s) (hs.host.trans hh) rfl
    have e : (pollLoop (n + 1) s).bind k = (tAvailable s).bind fun r =>
        (if 1 ≤ r.1 then some (true, r.2)
          else (tNow r.2).bind fun q =>
            if deadlinePassed q.1 q.2.t0 then some (false, q.2) else pollLoop n q.2).bind k := by
      simp only [pollLoop, Option.bind_eq_bind, Option.bind_assoc]
    rw [e]
    cases ha : tAvailable s with
    | none =>
      rw [ha] at hpoll
      refine ⟨atPhase .rxPoll s, Reaches.refl _, ⟨rfl, hpoll⟩, ?_⟩
      rw [ht]
      simp only [progress, hpoll]
      rfl
    | some r =>
      obtain ⟨c, u⟩ := r
      rw [ha] at hpoll
      have su := hs.trans (tAvailable_callsOnly ha)
      refine Follows.step (t := atPhase (if 1 ≤ c then .rxRead else .rxTime) u)
        (by rw [ht]; simp only [progress, hpoll]; rfl) ?_
      simp only [Option.bind_some]
      by_cases hc : 1 ≤ c
      · simp only [hc, if_true, Option.bind_some]
        exact hhit u su
      · simp only [hc, if_false]
        rw [Option.bind_assoc]
        have htime : seqStep (atPhase .rxTime u) = leaveBy ((tNow u).map fun r =>
            if deadlinePassed r.1 r.2.t0 then fail .rspTimeout r.2 else atPhase .rxPoll r.2) some := by
          simp only [seqStep]
          rw [show latched (atPhase .rxTime u) = i from su.latched.trans hi]
          refine (if_pos h2).trans ?_
          refine (congrArg (leaveBy · some) (?_ : (tNow (atPhase .rxTime u)).map _ = _))
          rw [tNow_atPhase, Option.map_map]
          rfl
        have ht2 := tick_eq_progress (s := atPhase .rxTime u) (su.host.trans hh) rfl
        cases hb : tNow u with
        | none =>
          rw [hb] at htime
          refine ⟨atPhase .rxTime u, Reaches.refl _, ⟨rfl, htime⟩, ?_⟩
          rw [ht2]
          simp only [progress, htime]
          rfl
        | some q =>
          obtain ⟨m, v⟩ := q
          rw [hb] at htime
          have sv := su.trans (tNow_callsOnly hb)
          refine Follows.step (t := if deadlinePassed m v.t0 then fail .rspTimeout v else atPhase .rxPoll v)
            (by rw [ht2]; simp only [progress, htime]; rfl) ?_
          simp only [Option.bind_some]
          by_cases hd : deadlinePassed m v.t0 = true
          · simp only [hd, if_true, Option.bind_some]
            exact hmiss v sv
          · have := pollsLeft_round ha hc hb hd
            simp only [hd]
            exact ih v sv (by omega)

/-- RX_REQ to RX_READ follow the read request. -/
theorem follows_readRequest {i : Instr} {dev : DevAddr} (k : Bool × State → Option State) (s : State)
    (hi : latched s = i) (hh : s.host = []) (hdev : (deviceMap i (atPhase .rxReq s)).2 = some dev)
    (hon : ∀ p ∈ [Phase.rxReq, .rxPoll, .rxTime, .rxRead], onPath i p = true)
    (hhit : ∀ t, CallsOnly s t → ∃ w, afterByte i (atPhase .rxRead t) = some w ∧ Follows w (k (true, t)))
    (hmiss : ∀ t, CallsOnly s t → Follows (fail .rspTimeout t) (k (false, t))) :
    Follows (atPhase .rxReq s) ((readRequest dev s).bind k) := by
  have e : (readRequest dev s).bind k =
      ((tRequest dev 1 s).bind fun s => (tNow s).map fun r => ({ r.2 with t0 := r.1 } : State)).bind fun u =>
        (pollLoop u.env.pollBound u).bind fun r =>
          if r.1 then (tRead r.2).bind fun x => k (true, x) else k (false, r.2) := by
    simp only [readRequest, awaitByte, Option.bind_eq_bind, Option.bind_assoc]
    cases tRequest dev 1 s with
    | none => rfl
    | some u =>
      simp only [Option.bind_some]
      cases tNow u with
      | none => rfl
      | some q =>
        simp only [Option.bind_some, Option.map_some]
        congr 1
        funext r
        obtain ⟨ok, v⟩ := r
        cases ok <;> simp [Option.bind_assoc]
  rw [e]
  refine follows_phase _ (thenPhase .rxPoll) _ hi hh rfl (hon _ (by simp)) ?_ ?_
  · change (match (deviceMap i (atPhase .rxReq s)).2 with | some dev => _ | none => _) = _
    rw [hdev]
    refine congrArg (leaveBy · _) (?_ : (tRequest dev 1 (atPhase .rxReq s)).bind _ = _)
    rw [tRequest_atPhase]
    cases tRequest dev 1 s with
    | none => rfl
    | some u =>
      simp only [Option.map_some, Option.bind_some, tNow_atPhase, Option.map_map]
      rfl
  intro t ht
  simp only [Option.bind_eq_some_iff, Option.map_eq_some_iff, Prod.exists] at ht
  obtain ⟨u, hu, n, v, hv, rfl⟩ := ht
  obtain ⟨e', he', rfl⟩ := tNow_some.mp hv
  have sv : CallsOnly s { u.note (.now n) e' with t0 := n } := (tRequest_callsOnly hu).trans rfl
  refine ⟨_, rfl, ?_⟩
  refine follows_poll _ { u.note (.now n) e' with t0 := n } (sv.latched.trans hi) (sv.host.trans hh)
    (hon _ (by simp)) (hon _ (by simp)) ?_ ?_ _ _ (CallsOnly.refl _) ?_
  · intro t ht
    simp only [if_true]
    have st := sv.trans ht
    refine follows_phase _ (afterByte i) _ (st.latched.trans hi) (st.host.trans hh) rfl (hon _ (by simp)) ?_
      fun x hx => hhit x (st.trans (tRead_callsOnly hx))
    exact congrArg (leaveBy · _) (tRead_atPhase _ _)
  · exact fun t ht => hmiss t (sv.trans ht)
  · have := Env.now_time he'
    simp only [pollsLeft, State.note, Env.pollBound]
    cases e' with
    | ref r =>
      simp only [Env.time] at this
      simp only [cfg]
      omega
    | scripted r => exact le_refl _

/-! ### WRITEREG -/

/-- TX_BEGIN to SETTLE follow WRITEREG. -/
theorem follows_writeReg {i : Instr} {r : LogicalReg} {v : Byte} (k : State → Option State) (s : State)
    (hi : latched s = i) (hh : s.host = []) (hf : ∀ t, frameOf i t = some (registerFrame t))
    (haf : ∀ t, afterFrame i t = some (atPhase .settle t))
    (hon : ∀ p ∈ [Phase.txBegin, .txB0, .txB1, .txEnd, .settle], onPath i p = true)
    (hk : ∀ t, latched t = i → t.host = [] → t.wOk = statusOk t.st →
      Follows (afterSettle i (atPhase .settle t)) (k t)) :
    Follows (atPhase .txBegin { s with wReg := regAddress r, wVal := v }) ((writeReg r v s).bind k) := by
  have e : (writeReg r v s).bind k =
      (sendFrame ⟨s.regAddr, [regAddress r, v], true⟩ { s with wReg := regAddress r, wVal := v }).bind fun s =>
        ((tDelay cfg.tSettle s).map fun s => ({ s with wOk := statusOk s.st } : State)).bind k := by
    simp only [writeReg, registerFrame, Option.bind_eq_bind, Option.bind_assoc]
    congr 1
    funext u
    cases tDelay cfg.tSettle u <;> rfl
  rw [e]
  have hfr : ∀ t, CallsOnly { s with wReg := regAddress r, wVal := v } t →
      frameOf i t = some ⟨s.regAddr, [regAddress r, v], true⟩ := by
    intro t ht
    rw [hf, registerFrame, ht]
  refine follows_frame2 _ hi hh hfr (fun p hp => hon p (by simp at hp ⊢; tauto)) fun t ht => ⟨_, haf _, ?_⟩
  change Follows (atPhase .settle t) _
  refine follows_phase _ (fun s => some (afterSettle i s)) _ (ht.latched.trans hi) (ht.host.trans hh) rfl
    (hon _ (by simp)) ?_ ?_
  · have : runPhase i (atPhase .settle t) =
        leaveBy ((tDelay cfg.tSettle (atPhase .settle t)).map fun s => { s with wOk := statusOk s.st })
          fun s => some (afterSettle i s) := rfl
    rw [this, tDelay_atPhase, Option.map_map, Option.map_map]
    rfl
  · intro u hu
    simp only [Option.map_eq_some_iff] at hu
    obtain ⟨x, hx, rfl⟩ := hu
    have sx := ht.trans (tDelay_callsOnly hx)
    exact ⟨_, rfl, hk _ (sx.latched.trans hi) (sx.host.trans hh) rfl⟩

end Sys2Proof.Machine
end

