-- ==== Sys2Proof/Tests/Slice0.lean ====
section
/-! SUPPORT. Tests. Expected values are the spec's own: the worked words of spec/30_encoding.md R111 and the vectors
of spec/95_test_vectors.md (V1 to V11), named in each comment; a few are worked by hand from the rules named. The
witnesses at the end show for each statement with hypotheses a state and operands that meet them. -/

namespace Sys2Proof.Tests

open Sys2Proof Sys2Proof.Machine

/-! ### WellFormed refuses each ill-formed word (R110) -/

theorem test_wellFormed_refuses_short_word : wordWellFormed 31 0 = false := by decide
theorem test_wellFormed_refuses_long_word : wordWellFormed 33 0 = false := by decide
theorem test_wellFormed_refuses_value_too_large : wordWellFormed 32 0x100000000 = false := by decide
theorem test_wellFormed_takes_word : wordWellFormed 32 0xFFFFFFFF = true := by decide
theorem test_wellFormed_refuses_reserved : wellFormed .reservedC = false ∧ wellFormed .reservedF = false := by decide
theorem test_wellFormed_takes_last_defined : wellFormed (.setAutostore true) = true := by decide

/-! ### The decoder on bit strings that are no words -/

theorem test_decode_refuses_short : decodeBits 31 0 = .error .wrongLength := by decide
theorem test_decode_refuses_large : decodeBits 32 0x100000000 = .error .valueTooLarge := by decide
theorem test_decode_refuses_long_row : decodeTableWord 33 0 = none := by decide

/-! ### Every constructor's word, written out from the fields of R91: op, 00, pin2, pin1, addr or bus, data -/

/-- BIND 0xABCD, pin1 = 1, pin2 = 0 (V10's row with one pin). -/
theorem test_decode_bind :
    decode 0b0000_00_0_1_1010101111001101_00000000 = .bind 0xABCD true false := by decide
/-- R111: `BIND 0, 0, 1`. -/
theorem test_decode_bind_pin2 :
    decode 0b0000_00_1_0_0000000000000000_00000000 = .bind 0 false true := by decide
theorem test_decode_bindDefault :
    decode 0b0001_00_0_0_0000000000000000_00000000 = .bindDefault := by decide
/-- R111: `READ 0x1234`. -/
theorem test_decode_read :
    decode 0b0010_00_0_0_0001001000110100_00000000 = .read 0x1234 := by decide
/-- R111: `WRITE 0x1234, 0xAB`. -/
theorem test_decode_write :
    decode 0b0011_00_0_0_0001001000110100_10101011 = .write 0x1234 0xAB := by decide
theorem test_decode_getStatus :
    decode 0b0100_00_0_0_0000000000000000_00000000 = .getStatus := by decide
theorem test_decode_store :
    decode 0b0101_00_0_0_0000000000000000_00000000 = .store := by decide
theorem test_decode_recall :
    decode 0b0110_00_0_0_0000000000000000_00000000 = .recallArray := by decide
theorem test_decode_isEvent :
    decode 0b0111_00_0_0_0000000000000000_00000000 = .isEvent := by decide
theorem test_decode_isAutostore :
    decode 0b1000_00_0_0_0000000000000000_00000000 = .isAutostore := by decide
theorem test_decode_isWrprot :
    decode 0b1001_00_0_0_0000000000000000_00000000 = .isWrprot := by decide
theorem test_decode_isModified :
    decode 0b1010_00_0_0_0000000000000000_00000000 = .isModified := by decide
/-- R111: `SET_AUTOSTORE 1`. -/
theorem test_decode_setAutostore :
    decode 0b1011_00_0_0_0000000000000000_00000001 = .setAutostore true := by decide
/-- V10: only bit 0 counts. -/
theorem test_decode_setAutostore_bit0 :
    decode 0b1011_00_0_0_0000000000000000_00000010 = .setAutostore false := by decide
theorem test_decode_reserved :
    decode 0b1100_00_0_0_0000000000000000_00000000 = .reservedC ∧
      decode 0b1101_00_0_0_0000000000000000_00000000 = .reservedD ∧
      decode 0b1110_00_0_0_0000000000000000_00000000 = .reservedE ∧
      decode 0b1111_00_0_0_0000000000000000_00000000 = .reservedF := by decide
/-- V10, last row: a READ with every other field set. -/
theorem test_decode_read_ignores_rest : decode 0x2E0001FF = .read 0x0001 := by decide
/-- R111 and V1, the encoder's side. -/
theorem test_encode_words :
    encode (.bind 7 true true) = 0x03000700 ∧ encode (.write 0x1234 0xAB) = 0x301234AB ∧
      encode (.setAutostore true) = 0xB0000001 ∧ encode .bindDefault = 0x10000000 := by decide

/-! ### States of the tests -/

/-- Block state (0, 0x50, 0x18, 1) on an environment: the start of V3 to V9. -/
def boundTo (e : RefEnv) : State :=
  { State.reset with memAddr := 0x50, regAddr := 0x18, bound := true, env := .ref e }

/-- ENV0 with default strapping and a STATUS. -/
def chip (status : Byte) : RefEnv := { RefEnv.env0 with status := status }

/-- ENV0-ABSENT: strapped to addresses no bind computes. -/
def absentChip : RefEnv := { RefEnv.env0 with memDev := 0x51, regDev := 0x19 }

/-- One variant of ENV0. -/
def variantChip (v : Variant) : RefEnv := { RefEnv.env0 with variant := v, status := 0x82, sram := [(0x1234, 0xAB)] }

/-- An environment given by answers that all have the status `st`. -/
def answering (n : Nat) (st : Byte) : State :=
  { State.reset with
    memAddr := 0x50, regAddr := 0x18, bound := true
    env := .scripted { answers := List.replicate n { dt := 2, status := st, count := 1, byte := 0x5A }, time := 10 } }

/-- An environment in which every call takes 3000 ms and no byte ever comes: a wait ends after one poll. -/
def slow (n : Nat) : State :=
  { State.reset with
    memAddr := 0x50, regAddr := 0x18, bound := true
    env := .scripted { answers := List.replicate n { dt := 3000, status := 0, count := 0, byte := 0 }, time := 0 } }

/-- The block bound to an environment whose calls never return. -/
def deaf : State := answering 0 0

/-- The state an outcome leads to. -/
def after : Host.Outcome State Fault Refusal → Option State
  | .next t => some t
  | .fault _ => none
  | .refused _ => none

/-- The state after one step on a presented word. -/
def ran (cw : CmdWord) (s : State) : Option State := after (step (presentWord cw s))

/-- Result, cause code and clock. -/
def result (t : Option State) : Option (Bool × BitVec 3 × Nat) :=
  t.map fun t => (t.rspOk, t.rspCause.code, t.env.time)

/-- The device calls, oldest first, without the calls of `Now` (the convention of spec/95_test_vectors.md). -/
def calls (t : Option State) : Option (List Call) :=
  t.map fun t => (t.trace.map Event.call).filter fun c => c.kind != .now

/-! ### BIND and BIND_DEFAULT (V2) -/

/-- V2.1. -/
theorem test_bind_default_strapping :
    result (ran 0x00000000 State.reset) = some (true, 0, 0) ∧
      calls (ran 0x00000000 State.reset) = some [.request 0x18 1, .available 1, .read 0x00] := by decide
/-- R134 on a clock that runs 3000 ms a call: a failed bind leaves the registers written. -/
theorem test_bind_failed :
    result (ran 0x03000000 (slow 4)) = some (false, 5, 12000) ∧
      (ran 0x03000000 (slow 4)).map (fun t => (t.memAddr, t.regAddr, t.bound)) = some (0x52, 0x1C, true) := by decide
/-- V2.2. -/
theorem test_bindDefault :
    result (ran 0x10000000 State.reset) = some (true, 0, 0) ∧
      calls (ran 0x10000000 State.reset) = some [.init, .request 0x18 1, .available 1, .read 0x00] := by decide
/-- V1: unused fields of BIND_DEFAULT change nothing. -/
theorem test_bindDefault_ignores_fields :
    (ran 0x1FFFFFFF State.reset).map (fun t => (t.bus, t.memAddr, t.regAddr)) = some (0, 0x50, 0x18) := by decide

/-! ### READ (V3) -/

/-- V3.4: the high byte goes first. -/
theorem test_read_high_byte_first :
    calls (ran 0x2000FF00 (boundTo { RefEnv.env0 with sram := [(0x00FF, 0x01), (0xFF00, 0x02)] })) =
        some [.begin 0x50, .write 0x00, .write 0xFF, .endFrame false 0, .request 0x50 1, .available 1, .read 0x01] ∧
      (ran 0x2000FF00 (boundTo { RefEnv.env0 with sram := [(0x00FF, 0x01), (0xFF00, 0x02)] })).map State.rspData =
        some 0x01 := by decide
/-- V3.5 with k = 3: a failed address frame ends the command. -/
theorem test_read_failed_frame :
    result (ran 0x20123400 (boundTo (variantChip (.failing 3)))) = some (false, 3, 0) ∧
      calls (ran 0x20123400 (boundTo (variantChip (.failing 3)))) =
        some [.begin 0x50, .write 0x12, .write 0x34, .endFrame false 3] := by decide

/-! ### WRITE (V4) -/

/-- V4.1. -/
theorem test_write :
    calls (ran 0x301234AB (boundTo RefEnv.env0)) =
        some [.begin 0x50, .write 0x12, .write 0x34, .write 0xAB, .endFrame true 0] ∧
      (ran 0x301234AB (boundTo RefEnv.env0)).bind (·.arrayByte 0x1234) = some 0xAB := by decide
/-- V4.3 with k = 255: any other status is a failure with cause 4. -/
theorem test_write_failed : result (ran 0x301234AB (boundTo (variantChip (.failing 255)))) = some (false, 4, 0) := by
  decide

/-! ### GETSTATUS (V5) -/

/-- V5.3: reserved bits are returned raw. -/
theorem test_getStatus_raw :
    (ran 0x40000000 (boundTo (chip 0x60))).map (fun t => (t.rspOk, t.rspData)) = some (true, 0x60) := by decide
/-- V5.4. -/
theorem test_getStatus_absent :
    result (ran 0x40000000 (boundTo absentChip)) = some (false, 5, 3000) := by decide +kernel

/-! ### STORE and RECALL (V6) -/

/-- V6.1. -/
theorem test_store :
    result (ran 0x50000000 (boundTo RefEnv.env0)) = some (true, 0, 26) ∧
      calls (ran 0x50000000 (boundTo RefEnv.env0)) =
        some [.begin 0x18, .write 0x55, .write 0x33, .endFrame true 0, .delay 1, .delay 25] := by decide
/-- V6.3 with k = 200: no second delay, cause 4. -/
theorem test_store_failed : result (ran 0x50000000 (boundTo (variantChip (.failing 200)))) = some (false, 4, 1) := by
  decide
/-- V6.2: the array becomes the nonvolatile copy. -/
theorem test_recall :
    result (ran 0x60000000 (boundTo { RefEnv.env0 with ee := [(7, 9)] })) = some (true, 0, 6) ∧
      (ran 0x60000000 (boundTo { RefEnv.env0 with ee := [(7, 9)] })).bind (·.arrayByte 7) = some 9 := by decide
/-- V6.8. -/
theorem test_recall_absent :
    result (ran 0x60000000 (boundTo absentChip)) = some (false, 2, 1) := by decide

/-! ### The queries (V7.1) -/

/-- Rows 0xFD and 0xFE. -/
theorem test_isEvent :
    (ran 0x70000000 (boundTo (chip 0xFD))).map State.rspOk = some true ∧
      (ran 0x70000000 (boundTo (chip 0xFE))).map State.rspOk = some false := by decide
/-- Rows 0x7F and 0xFD. -/
theorem test_isAutostore :
    (ran 0x80000000 (boundTo (chip 0x7F))).map State.rspOk = some true ∧
      (ran 0x80000000 (boundTo (chip 0xFD))).map State.rspOk = some false := by decide
/-- Rows 0x10, 0x04 and 0xE3. -/
theorem test_isWrprot :
    (ran 0x90000000 (boundTo (chip 0x10))).map State.rspOk = some true ∧
      (ran 0x90000000 (boundTo (chip 0x04))).map State.rspOk = some true ∧
      (ran 0x90000000 (boundTo (chip 0xE3))).map State.rspOk = some false := by decide
/-- Rows 0x80 and 0x7F. -/
theorem test_isModified :
    (ran 0xA0000000 (boundTo (chip 0x80))).map State.rspOk = some true ∧
      (ran 0xA0000000 (boundTo (chip 0x7F))).map State.rspOk = some false := by decide

/-! ### SET_AUTOSTORE (V8) -/

/-- V8.2a. -/
theorem test_setAutostore :
    result (ran 0xB0000001 (boundTo (chip 0x80))) = some (true, 0, 1) ∧
      calls (ran 0xB0000001 (boundTo (chip 0x80))) =
        some [.request 0x18 1, .available 1, .read 0x80, .begin 0x18, .write 0x00, .write 0x82, .endFrame true 0,
          .delay 1] := by decide
/-- V8.1, last row, and V8.2d. -/
theorem test_setAutostore_clears :
    (ran 0xB0000000 (boundTo (chip 0xFF))).bind State.chipStatus = some 0xFD ∧
      (ran 0xB00000FE (boundTo (chip 0x00))).bind State.chipStatus = some 0x00 := by decide

/-! ### Reserved opcodes (V9), with the block unbound and bound -/

theorem test_reservedC : result (ran 0xC0000000 (boundTo RefEnv.env0)) = some (false, 6, 0) := by decide
theorem test_reservedD : calls (ran 0xD1234567 (boundTo RefEnv.env0)) = some [] := by decide
theorem test_reservedE : result (ran 0xE0000001 (boundTo RefEnv.env0)) = some (false, 6, 0) := by decide
theorem test_reservedF :
    result (ran 0xF0000000 State.reset) = some (false, 6, 0) ∧
      (ran 0xF0000000 State.reset).map State.bound = some false := by decide

/-! ### The port and the phases -/

/-- R222, U1: a READ from reset is refused. -/
theorem test_unbound_refused :
    (match step (presentWord 0x20000000 State.reset) with | .refused r => some r | _ => none) = some .unbound := by
  decide
/-- R227: a WRITE, one phase a tick, is in TX_END after five ticks and in DONE after six. -/
theorem test_ticks_of_write :
    (after (tickRun 6 (presentWord 0x301234AB (boundTo RefEnv.env0)))).map (fun t => (t.phase, t.rspOk)) =
        some (.done, true) ∧
      (after (tickRun 5 (presentWord 0x301234AB (boundTo RefEnv.env0)))).map State.phase = some .txEnd := by decide
/-- R314, U4: the status of a frame for the first address beyond 512 bytes is open, for the last one below it 0. -/
theorem test_status_beyond_capacity :
    (RefEnv.endFrame { chip 0 with cap := 512, txdev := 0x50, txbuf := [0x02, 0x00] }).1 =
        Config.statusBeyondCap { chip 0 with cap := 512, txdev := 0x50, txbuf := [0x02, 0x00], ptr := 0x0200 } ∧
      (RefEnv.endFrame { chip 0 with cap := 512, txdev := 0x50, txbuf := [0x01, 0xFF] }).1 = 0 := ⟨rfl, rfl⟩
/-- R311 case (a) with 91_not_in_source.md N8: a read request to a chip that runs a store the block saw fail gets
answers nothing is known of; the same request after that time is answered. -/
theorem test_request_to_busy_chip :
    Env.request 0x50 1 (.ref { RefEnv.env0 with variant := .takenButFailing 2, time := 1, busyUntil := 25 }) =
        some (Env.unknownFrom (.ref { RefEnv.env0 with variant := .takenButFailing 2, time := 1, busyUntil := 25 }) 1) ∧
      Env.request 0x50 1 (.ref { RefEnv.env0 with variant := .takenButFailing 2, time := 25, busyUntil := 25 }) =
        some (.ref { RefEnv.env0 with
          variant := .takenButFailing 2, time := 25, busyUntil := 25, rxq := [0], ptr := 1 }) := ⟨rfl, rfl⟩

/-- R238: the response taken. -/
theorem test_response_taken :
    (after (step (presentReady { boundTo RefEnv.env0 with phase := .done }))).map State.phase = some .idle := by decide

/-! ### Witnesses for the statements -/

theorem test_witness_UnusedFieldsAreIgnored :
    (0x0D000000 : CmdWord) ≠ 0x01000000 ∧
      (0x0D000000 : CmdWord).extractLsb' 28 4 = (0x01000000 : CmdWord).extractLsb' 28 4 ∧
      (0x0D000000 : CmdWord).extractLsb' 8 16 = (0x01000000 : CmdWord).extractLsb' 8 16 ∧
      (0x0D000000 : CmdWord).getLsbD 24 = (0x01000000 : CmdWord).getLsbD 24 ∧
      (0x0D000000 : CmdWord).getLsbD 25 = (0x01000000 : CmdWord).getLsbD 25 := by decide
theorem test_witness_UnusedFieldsAreIgnored_others :
    (0x2C1234FF : CmdWord).extractLsb' 8 16 = (0x20123400 : CmdWord).extractLsb' 8 16 ∧
      (0x3C1234AB : CmdWord).extractLsb' 0 8 = (0x301234AB : CmdWord).extractLsb' 0 8 ∧
      (0xBFFFFFFF : CmdWord).getLsbD 0 = (0xB0000001 : CmdWord).getLsbD 0 := by decide
theorem test_witness_PresentedWordIsRun : 0 < 2 ^ 32 ∧ 0xFFFFFFFF < 2 ^ 32 := by decide
theorem test_witness_CauseOfMapsEveryStatus : (4 : Byte) ≤ 4 ∧ (4 : Byte) ≤ 255 := by decide
theorem test_witness_AutostoreByteChangesOnlyBitOne : (0 : Nat) ≠ 1 ∧ (2 : Nat) ≠ 1 := by decide

/-- A port sample that presents a word. -/
def presenting (cw : CmdWord) : HostIn := { reset := false, cmdValid := true, cmdWord := cw, rspReady := false }

/-- A port sample with reset. -/
def resetting : HostIn := { reset := true, cmdValid := false, cmdWord := 0, rspReady := false }

/-- The block in ENV0 with one word presented. -/
def presented (cw : CmdWord) (s : State) : State := { s with host := [presenting cw] }

theorem test_witness_StepRunsAcceptedCommand :
    (presented 0x40000000 (boundTo RefEnv.env0)).phase = .idle ∧
      (presented 0x40000000 (boundTo RefEnv.env0)).host = presenting 0x40000000 :: [] ∧
      (presenting 0x40000000).reset = false ∧ (presenting 0x40000000).cmdValid = true := by decide
theorem test_witness_CommandWordIgnoredUnlessIdle :
    ({ boundTo RefEnv.env0 with phase := .done } : State).phase ≠ .idle ∧
      ({ boundTo RefEnv.env0 with phase := .rxPoll } : State).phase ≠ .idle := by decide
/-- Both branches: the response taken and not taken. -/
theorem test_witness_ResponseHeldUntilTaken :
    ({ boundTo RefEnv.env0 with phase := .done, host := [.quiet] } : State).phase = .done ∧
      HostIn.quiet.reset = false ∧ HostIn.quiet.rspReady = false ∧
      ({ HostIn.quiet with rspReady := true } : HostIn).reset = false := by decide
/-- Both clauses, and the value where they meet: reset in IDLE, in mid-command and in DONE. -/
theorem test_witness_ResetInputEffect :
    resetting.reset = true ∧ ({ boundTo RefEnv.env0 with host := [resetting] } : State).host = resetting :: [] ∧
      ({ boundTo RefEnv.env0 with host := [resetting] } : State).phase = .idle ∧
      ({ boundTo RefEnv.env0 with phase := .txB1, host := [resetting] } : State).phase ≠ .idle ∧
      ({ boundTo RefEnv.env0 with phase := .done, host := [resetting] } : State).phase ≠ .idle := by decide
/-- R301: after a reset in DONE nothing is known of the environment; in IDLE it is as it was (R302). -/
theorem test_reset_in_done_and_idle :
    (resetBlock { boundTo RefEnv.env0 with phase := .done }).env = Env.unknownFrom (.ref RefEnv.env0) 0 ∧
      (resetBlock (boundTo RefEnv.env0)).env = .ref RefEnv.env0 := ⟨rfl, rfl⟩

theorem inv_boundTo : StateInv (presented 0x40000000 (boundTo RefEnv.env0)) := by
  unfold StateInv AddressesLegal PhaseLegal
  refine ⟨by decide, by decide, ?_⟩
  exact (⟨⟨by decide, by decide⟩, by decide, by decide⟩ : (Memory.wf [] ∧ Memory.wf []) ∧ 1 ≤ 65536 ∧ 65536 ≤ 65536)
theorem test_witness_StepKeepsInvariant :
    StateInv (presented 0x40000000 (boundTo RefEnv.env0)) ∧
      (after (step (presented 0x40000000 (boundTo RefEnv.env0)))).isSome = true := ⟨inv_boundTo, by decide⟩
theorem test_witness_TickKeepsInvariant :
    StateInv (presented 0x40000000 (boundTo RefEnv.env0)) ∧
      (after (tick (presented 0x40000000 (boundTo RefEnv.env0)))).isSome = true := ⟨inv_boundTo, by decide⟩

/-- Every outcome of the two binds: a byte came, and the wait timed out. -/
theorem test_witness_BindOutcome :
    (after (exec (.bind 5 true false) State.reset)).map State.rspOk = some true ∧
      (after (exec .bindDefault State.reset)).map State.rspOk = some true ∧
      (after (exec (.bind 5 false true) (slow 4))).map State.rspOk = some false ∧
      (after (exec .bindDefault (slow 5))).map State.rspOk = some false := by decide
theorem isEnv0_env0 (st : Byte) : (chip st).isEnv0 := ⟨rfl, rfl, Nat.le_refl 0⟩
theorem test_witness_BindCompletesInEnv0 :
    (boundTo (chip 0)).env = .ref (chip 0) ∧ (chip 0).isEnv0 ∧ (0 : BusId) ∉ (boundTo (chip 0)).deadBuses ∧
      (chip 0).regDev = (if false then 0x1C else 0x18) ∧ (chip 0).memDev ≠ (chip 0).regDev :=
  ⟨rfl, isEnv0_env0 0, by decide, by decide, by decide⟩
theorem test_witness_BindCompletesInEnv0_pin2 :
    ({ RefEnv.env0 with regDev := 0x1C } : RefEnv).isEnv0 ∧
      ({ RefEnv.env0 with regDev := 0x1C } : RefEnv).regDev = (if true then 0x1C else 0x18) ∧
      ({ RefEnv.env0 with regDev := 0x1C } : RefEnv).memDev ≠ 0x1C := ⟨⟨rfl, rfl, by decide⟩, by decide, by decide⟩
theorem test_witness_BindDefaultCompletesInEnv0 :
    (boundTo (chip 0)).env = .ref (chip 0) ∧ (chip 0).isEnv0 ∧ (0 : BusId) ∉ (boundTo (chip 0)).deadBuses ∧
      (chip 0).regDev = 0x18 ∧ (chip 0).memDev ≠ 0x18 := ⟨rfl, isEnv0_env0 0, by decide, by decide, by decide⟩
theorem absent_absentChip : absentChip.isEnv0 ∧ absentChip.absent 0x50 ∧ absentChip.absent 0x18 ∧
    absentChip.absent 0x1C := by
  unfold RefEnv.isEnv0 RefEnv.absent
  decide
/-- For both commands. -/
theorem test_witness_BindToAbsentChipTimesOut :
    (0 : BusId) ∉ (boundTo absentChip).deadBuses ∧ absentChip.absent (if false then 0x1C else 0x18) ∧
    (boundTo absentChip).env = .ref absentChip ∧ absentChip.isEnv0 ∧ (3 : BusId) ∉ (boundTo absentChip).deadBuses ∧
      absentChip.absent (if true then 0x1C else 0x18) :=
  ⟨by decide, absent_absentChip.2.2.1, rfl, absent_absentChip.1, by decide, absent_absentChip.2.2.2⟩

/-- The three paths of a READ: a byte, a failed frame, a timeout. -/
theorem test_witness_ReadOutcome :
    (after (exec (.read 0x1234) (boundTo RefEnv.env0))).map State.rspOk = some true ∧
      (after (exec (.read 0x1234) (boundTo (variantChip (.failing 1))))).map State.st = some 1 ∧
      (after (exec (.read 0x1234) (slow 8))).map State.rspCause = some .rspTimeout := by decide
theorem test_witness_ReadCompletesInEnv0 :
    (boundTo (chip 0)).bound = true ∧ (boundTo (chip 0)).env = .ref (chip 0) ∧ (chip 0).isEnv0 ∧
      (boundTo (chip 0)).memAddr = (chip 0).memDev := ⟨rfl, rfl, isEnv0_env0 0, rfl⟩
theorem test_witness_ReadFromMuteTransportTimesOut :
    (boundTo (variantChip .mute)).bound = true ∧ (boundTo (variantChip .mute)).env = .ref (variantChip .mute) ∧
      (variantChip .mute).variant = .mute ∧ (0xFFFF : Addr).toNat < (variantChip .mute).cap ∧
      (boundTo (variantChip .mute)).memAddr = (variantChip .mute).memDev := by decide
/-- Both results of a WRITE. -/
theorem test_witness_WriteOutcome :
    (after (exec (.write 0x1234 0xAB) (boundTo RefEnv.env0))).map State.st = some 0 ∧
      (after (exec (.write 0x1234 0xAB) (boundTo (variantChip (.failing 1))))).map State.st = some 1 := by decide
theorem test_witness_WriteCompletesInEnv0 :
    (boundTo (variantChip .plain)).bound = true ∧
      (boundTo (variantChip .plain)).env = .ref (variantChip .plain) ∧ (variantChip .plain).isEnv0 ∧
      (boundTo (variantChip .plain)).memAddr = (variantChip .plain).memDev ∧ Memory.wf (variantChip .plain).sram :=
  ⟨rfl, rfl, ⟨rfl, rfl, by decide⟩, rfl, by decide⟩
theorem test_witness_WriteCompletesInAnyEnvironment :
    (answering 5 3).bound = true ∧
      (answering 5 3).env =
        .scripted { answers := List.replicate 5 { dt := 2, status := 3, count := 1, byte := 0x5A }, time := 10 } := by
  decide
theorem test_witness_WriteThenReadReturnsValue :
    (boundTo (variantChip .plain)).bound = true ∧ (variantChip .plain).isEnv0 ∧
      (boundTo (variantChip .plain)).env = .ref (variantChip .plain) ∧
      (boundTo (variantChip .plain)).memAddr = (variantChip .plain).memDev ∧ Memory.wf (variantChip .plain).sram :=
  ⟨rfl, ⟨rfl, rfl, by decide⟩, rfl, rfl, by decide⟩

/-- Both results of GETSTATUS. -/
theorem test_witness_GetStatusOutcome :
    (after (exec .getStatus (boundTo (chip 0x82)))).map State.rspData = some 0x82 ∧
      (after (exec .getStatus (slow 4))).map State.rspOk = some false := by decide
/-- The premises of every statement about a chip that answers at `reg_addr` in ENV0. -/
theorem test_witness_register_in_env0 :
    (boundTo (chip 0x82)).bound = true ∧ (boundTo (chip 0x82)).env = .ref (chip 0x82) ∧ (chip 0x82).isEnv0 ∧
      (boundTo (chip 0x82)).regAddr = (chip 0x82).regDev ∧ (chip 0x82).memDev ≠ (chip 0x82).regDev :=
  ⟨rfl, rfl, isEnv0_env0 _, rfl, by decide⟩
theorem test_witness_GetStatusCompletesInEnv0 :
    (boundTo (chip 0xFF)).bound = true ∧ (boundTo (chip 0xFF)).env = .ref (chip 0xFF) ∧ (chip 0xFF).isEnv0 ∧
      (boundTo (chip 0xFF)).regAddr = (chip 0xFF).regDev ∧ (chip 0xFF).memDev ≠ (chip 0xFF).regDev :=
  ⟨rfl, rfl, isEnv0_env0 _, rfl, by decide⟩
/-- Both clauses at their boundary (V5.7 and V5.7b). -/
theorem test_witness_LateByteBoundary :
    (boundTo (variantChip (.late 2999))).bound = true ∧
      (boundTo (variantChip (.late 2999))).env = .ref (variantChip (.late 2999)) ∧
      (variantChip (.late 2999)).variant = .late 2999 ∧ 2999 < 3000 ∧
      (boundTo (variantChip (.late 3000))).bound = true ∧
      (boundTo (variantChip (.late 3000))).env = .ref (variantChip (.late 3000)) ∧
      (variantChip (.late 3000)).variant = .late 3000 ∧ 3000 ≤ 3000 ∧
      (boundTo (variantChip (.late 3000))).regAddr = 0x18 ∧ (variantChip (.late 3000)).regDev = 0x18 ∧
      (variantChip (.late 3000)).memDev ≠ 0x18 := by decide
/-- Both results of STORE. -/
theorem test_witness_StoreOutcome :
    (after (exec .store (boundTo RefEnv.env0))).map State.st = some 0 ∧
      (after (exec .store (boundTo absentChip))).map State.st = some 2 := by decide
/-- Both results of RECALL. -/
theorem test_witness_RecallOutcome :
    (after (exec .recallArray (boundTo RefEnv.env0))).map State.st = some 0 ∧
      (after (exec .recallArray (boundTo absentChip))).map State.st = some 2 := by decide
theorem test_witness_StoreCompletesInEnv0 :
    (boundTo (chip 1)).bound = true ∧ (boundTo (chip 1)).env = .ref (chip 1) ∧ (chip 1).isEnv0 ∧
      (boundTo (chip 1)).regAddr = (chip 1).regDev ∧ (chip 1).memDev ≠ (chip 1).regDev :=
  ⟨rfl, rfl, isEnv0_env0 _, rfl, by decide⟩
theorem test_witness_RecallCompletesInEnv0 :
    (boundTo (chip 2)).bound = true ∧ (boundTo (chip 2)).env = .ref (chip 2) ∧ (chip 2).isEnv0 ∧
      (boundTo (chip 2)).regAddr = (chip 2).regDev ∧ (chip 2).memDev ≠ (chip 2).regDev :=
  ⟨rfl, rfl, isEnv0_env0 _, rfl, by decide⟩
theorem test_witness_StoreAndRecallBlockForTheirDelay :
    (answering 6 0).bound = true ∧
      (answering 6 0).env =
        .scripted { answers := List.replicate 6 { dt := 2, status := 0, count := 1, byte := 0x5A }, time := 10 } := by
  decide
/-- A chip with a STORE frame open at a time, in a store that ends at 25 ms. -/
def storing (v : Variant) (time : Nat) : RefEnv :=
  { RefEnv.env0 with variant := v, txdev := 0x18, txbuf := [0x55, 0x33], time := time, busyUntil := 25 }

/-- Each clause, at the last ms of the store and right after it. -/
theorem test_witness_ReissueLeavesChipUnknown :
    (storing (.takenButFailing 2) 24).txdev = (storing (.takenButFailing 2) 24).regDev ∧
      (storing (.takenButFailing 2) 24).memDev ≠ (storing (.takenButFailing 2) 24).regDev ∧
      (storing (.takenButFailing 2) 24).txbuf = [0x55, 0x33] ∧ ((0x33 : Byte) = 0x33 ∨ (0x33 : Byte) = 0xDD) ∧
      (storing (.takenButFailing 2) 24).busyUnseen = true ∧ (storing (.takenButFailing 2) 25).busyUnseen = false ∧
      (storing .plain 24).time < (storing .plain 24).busyUntil := by decide
/-- A chip that takes frames whose status is a failure, idle and with a store running. -/
theorem test_witness_UnseenStoreLeavesChipBusy :
    (boundTo (variantChip (.takenButFailing 2))).bound = true ∧
      (boundTo (variantChip (.takenButFailing 2))).env = .ref (variantChip (.takenButFailing 2)) ∧ (2 : Byte) ≠ 0 ∧
      (variantChip (.takenButFailing 2)).busyUntil ≤ (variantChip (.takenButFailing 2)).time ∧
      (boundTo (variantChip (.takenButFailing 2))).regAddr = (variantChip (.takenButFailing 2)).regDev ∧
      (variantChip (.takenButFailing 2)).memDev ≠ (variantChip (.takenButFailing 2)).regDev ∧
      (storing (.takenButFailing 2) 24).busyUnseen = true := by decide
/-- Each query with the condition true and, for the first, with a failed read. -/
theorem test_witness_QueryOutcome :
    (Instr.isEvent, 0x01#8) ∈
        [(Instr.isEvent, 0x01#8), (Instr.isAutostore, 0x02#8), (Instr.isWrprot, 0x1C#8), (Instr.isModified, 0x80#8)] ∧
      (after (exec .isEvent (boundTo (chip 0x01)))).map State.rspOk = some true ∧
      (after (exec .isAutostore (boundTo (chip 0x02)))).map State.rspOk = some true ∧
      (after (exec .isWrprot (boundTo (chip 0x04)))).map State.rspOk = some true ∧
      (after (exec .isModified (boundTo (chip 0x80)))).map State.rspOk = some true ∧
      result (after (exec .isEvent (slow 4))) = some (false, 5, 12000) := by decide
theorem test_witness_QueriesCompleteInEnv0 :
    (Instr.isModified, 0x80#8) ∈
        [(Instr.isEvent, 0x01#8), (Instr.isAutostore, 0x02#8), (Instr.isWrprot, 0x1C#8), (Instr.isModified, 0x80#8)] ∧
      (boundTo (chip 3)).bound = true ∧ (boundTo (chip 3)).env = .ref (chip 3) ∧ (chip 3).isEnv0 ∧
      (boundTo (chip 3)).regAddr = (chip 3).regDev ∧ (chip 3).memDev ≠ (chip 3).regDev :=
  ⟨by decide, rfl, rfl, isEnv0_env0 _, rfl, by decide⟩
/-- The byte written back, a failed frame (V8.3b) and a failed read. -/
theorem test_witness_SetAutostoreOutcome :
    (after (exec (.setAutostore true) (boundTo (chip 0x80)))).map State.wVal = some 0x82 ∧
      result (after (exec (.setAutostore true) (boundTo (variantChip (.failing 3))))) = some (false, 3, 1) ∧
      result (after (exec (.setAutostore true) (slow 4))) = some (false, 5, 12000) := by decide
theorem test_witness_SetAutostoreCompletesInEnv0 :
    (boundTo (chip 4)).bound = true ∧ (boundTo (chip 4)).env = .ref (chip 4) ∧ (chip 4).isEnv0 ∧
      (boundTo (chip 4)).regAddr = (chip 4).regDev ∧ (chip 4).memDev ≠ (chip 4).regDev :=
  ⟨rfl, rfl, isEnv0_env0 _, rfl, by decide⟩
theorem test_witness_AutostoreRoundTrip :
    (boundTo (chip 5)).bound = true ∧ (boundTo (chip 5)).env = .ref (chip 5) ∧ (chip 5).isEnv0 ∧
      (boundTo (chip 5)).regAddr = (chip 5).regDev ∧ (chip 5).memDev ≠ (chip 5).regDev :=
  ⟨rfl, rfl, isEnv0_env0 _, rfl, by decide⟩
theorem test_witness_AbsentChipReadsTimeOut :
    Instr.setAutostore false ∈
        [Instr.getStatus, .isEvent, .isAutostore, .isWrprot, .isModified, .setAutostore true, .setAutostore false] ∧
      (boundTo absentChip).bound = true ∧ (boundTo absentChip).env = .ref absentChip ∧ absentChip.isEnv0 ∧
      absentChip.absent (boundTo absentChip).regAddr :=
  ⟨by decide, rfl, rfl, absent_absentChip.1, absent_absentChip.2.2.1⟩
theorem test_witness_FailingTransportFailsEveryFrame :
    (boundTo (variantChip (.failing 255))).bound = true ∧
      (boundTo (variantChip (.failing 255))).env = .ref (variantChip (.failing 255)) ∧
      (variantChip (.failing 255)).variant = .failing 255 ∧ (255 : Byte) ≠ 0 ∧ (1 : Byte) ≠ 0 ∧
      (boundTo (variantChip (.failing 255))).regAddr = (variantChip (.failing 255)).regDev ∧
      (variantChip (.failing 255)).memDev ≠ (variantChip (.failing 255)).regDev := by decide
theorem test_witness_AbsentChipNacksFrames :
    (boundTo absentChip).bound = true ∧ (boundTo absentChip).env = .ref absentChip ∧ absentChip.isEnv0 ∧
      absentChip.absent (boundTo absentChip).memAddr ∧ absentChip.absent (boundTo absentChip).regAddr :=
  ⟨rfl, rfl, absent_absentChip.1, absent_absentChip.2.1, absent_absentChip.2.2.1⟩
theorem test_witness_ReservedCommandsComplete :
    Instr.reservedF ∈ [Instr.reservedC, .reservedD, .reservedE, .reservedF] := by decide
/-- Each clause: a command that is no bind, BIND and BIND_DEFAULT. -/
theorem test_witness_OnlyBindsWriteTheBinding :
    Instr.isBind .store = false ∧ (after (exec .store (boundTo RefEnv.env0))).isSome = true ∧
      (after (exec (.bind 5 true false) (boundTo RefEnv.env0))).isSome = true ∧
      (after (exec .bindDefault (boundTo RefEnv.env0))).isSome = true := by decide
theorem test_witness_CommandsUseMappedDevices :
    (after (exec (.setAutostore true) (boundTo RefEnv.env0))).isSome = true ∧
      (after (exec (.read 0) (boundTo RefEnv.env0))).isSome = true := by decide
theorem test_witness_OnlyFourDeviceAddresses :
    AddressesLegal (boundTo RefEnv.env0) ∧ (after (exec (.read 0) (boundTo RefEnv.env0))).isSome = true := by
  unfold AddressesLegal
  decide
theorem test_witness_PrimitiveCallCounts : (after (exec .store (boundTo RefEnv.env0))).isSome = true := by decide
/-- The bound itself and one more, with and without a byte. -/
theorem test_witness_PollBoundNeverCutsAWait :
    (boundTo RefEnv.env0).t0 = (boundTo RefEnv.env0).env.time ∧ (boundTo RefEnv.env0).env.pollBound = 3001 ∧
      3001 ≤ 3002 := by decide
theorem test_witness_TimeNeverGoesBack : (after (exec .store (answering 6 0))).map (·.env.time) = some 48 := by decide
/-- The longest interval a 32-bit counter measures. -/
theorem test_witness_WrappedCounterAgrees : 5 ≤ 5 + (2 ^ 32 - 1) ∧ 5 + (2 ^ 32 - 1) - 5 < 2 ^ 32 := by decide
theorem test_witness_TicksReachStep :
    (presented 0x40000000 (boundTo RefEnv.env0)).phase = .idle ∧
      (presented 0x40000000 (boundTo RefEnv.env0)).host = [presenting 0x40000000] ∧
      (presenting 0x40000000).reset = false ∧
      (after (step (presented 0x40000000 (boundTo RefEnv.env0)))).isSome = true := by decide
/-- Both clauses: a call that never returns, and a refusal. -/
theorem test_witness_TicksWaitWhereCommandHangs :
    (presented 0x40000000 deaf).phase = .idle ∧ (presented 0x40000000 deaf).host = [presenting 0x40000000] ∧
      (presenting 0x40000000).reset = false ∧
      (match step (presented 0x40000000 deaf) with | .fault f => some f | _ => none) = some .primitiveNeverReturns ∧
      (match step (presented 0x40000000 State.reset) with | .refused r => some r | _ => none) = some .unbound := by
  decide
/-- Both clauses, with and without reset. -/
theorem test_witness_StuckBlockRecoversByReset :
    Stuck { deaf with op := 4, phase := .rxReq, host := [resetting] } ∧
      Stuck { deaf with op := 4, phase := .rxReq, host := [.quiet] } ∧ HostIn.quiet.reset = false :=
  ⟨⟨by decide, rfl⟩, ⟨by decide, rfl⟩, rfl⟩
/-- Two states with different histories, for an answer, a fault and a refusal. -/
theorem test_witness_HistoryDoesNotMatter :
    SamePersistent (boundTo RefEnv.env0) { boundTo RefEnv.env0 with st := 9, t0 := 7, rspOk := true } ∧
      (after (exec .getStatus (boundTo RefEnv.env0))).isSome = true ∧
      (match exec .getStatus deaf with | .fault f => some f | _ => none) = some .primitiveNeverReturns ∧
      (match exec .getStatus State.reset with | .refused r => some r | _ => none) = some .unbound := by
  unfold SamePersistent
  decide
/-- The block bound to a chip of 512 bytes, and the first address beyond them. -/
theorem test_witness_BeyondCapacityCompletes :
    (boundTo { chip 0 with cap := 512 }).bound = true ∧
      (boundTo { chip 0 with cap := 512 }).env = .ref { chip 0 with cap := 512 } ∧
      (boundTo { chip 0 with cap := 512 }).memAddr = ({ chip 0 with cap := 512 } : RefEnv).memDev ∧
      ({ chip 0 with cap := 512 } : RefEnv).cap ≤ (0x0200 : Addr).toNat := by decide
/-- On a platform where selector 7 names no transport. -/
theorem test_witness_EveryCommandCompletesInEnv0 :
    ({ boundTo (chip 0) with deadBuses := [7] } : State).env = .ref (chip 0) ∧ (chip 0).isEnv0 ∧
      (6 : BusId) ∉ ({ boundTo (chip 0) with deadBuses := [7] } : State).deadBuses ∧
      (0 : BusId) ∉ ({ boundTo (chip 0) with deadBuses := [7] } : State).deadBuses ∧
      (boundTo (chip 0)).bound = true ∧ Instr.isBind .bindDefault = true ∧ Instr.isReserved .reservedC = true :=
  ⟨rfl, isEnv0_env0 0, by decide, by decide, rfl, rfl, rfl⟩

end Sys2Proof.Tests
end

section
/-! The invariant of the machine and the arithmetic of the wrapping counter (spec/00_scope.md R6, R10; spec/10_state.md
R34, R36; spec/44_sequencer.md R222, R227). The invariant is split into a part that does not speak of the phase, which
every operation keeps, and the clause about the phase, which follows from where each phase leads. -/

namespace Sys2Proof.Machine

open Sys2Proof

/-! ### The part of the invariant that does not speak of the phase -/

/-- Legal device addresses while bound, and a legal environment. -/
def BlockLegal (s : State) : Prop := AddressesLegal s ∧ EnvLegal s.env

theorem stateInv_iff (s : State) : StateInv s ↔ BlockLegal s ∧ PhaseLegal s := by
  rw [StateInv, BlockLegal, envLegal_iff]
  tauto

/-- Entering a phase of the latched command keeps the invariant; past BIND_WR the block has to be bound. -/
theorem BlockLegal.stateInv_atPhase {s : State} {p : Phase} (h : BlockLegal s) (hon : onPath (latched s) p = true)
    (hb : p.inCommand = true → p ≠ .bindWr → s.bound = true) : StateInv (atPhase p s) :=
  (stateInv_iff _).mpr ⟨h, hon, hb⟩

/-- IDLE and DONE are on every path and ask for no bind (R227). -/
theorem BlockLegal.stateInv_of_not_inCommand {s : State} (h : BlockLegal s) (hp : s.phase.inCommand = false) :
    StateInv s :=
  (stateInv_iff _).mpr ⟨h, by simp [onPath, hp], by simp [hp]⟩

/-- A command that ends with a response ends in a state that meets the invariant. -/
theorem BlockLegal.respond {s : State} (h : BlockLegal s) (ok : Bool) (c : Cause) (d : Option Byte) :
    StateInv (respond ok c d s) :=
  BlockLegal.stateInv_of_not_inCommand (s := Machine.respond ok c d s) h rfl

theorem BlockLegal.fail {s : State} (h : BlockLegal s) (c : Cause) : StateInv (fail c s) := h.respond _ _ _

theorem BlockLegal.finishByStatus {s : State} (h : BlockLegal s) : StateInv (finishByStatus s) := by
  unfold Machine.finishByStatus
  split
  · exact h.respond _ _ _
  · exact h.fail _

/-- The response to a read request: an answer where a byte came, the timeout where none did. -/
theorem BlockLegal.respondOrTimeout {s : State} (h : BlockLegal s) (came ok : Bool) (d : Option Byte) :
    StateInv (if came then Machine.respond ok .none d s else Machine.fail .rspTimeout s) := by
  split
  · exact h.respond _ _ _
  · exact h.fail _

/-- Whatever the pins, a bind computes one of the four pairs of R36 (spec/40_bind.md R130). -/
theorem devAddrs_legal (p1 p2 : Bool) :
    ((devAddrs p1 p2).1 = 0x50 ∨ (devAddrs p1 p2).1 = 0x52) ∧
      ((devAddrs p1 p2).2 = 0x18 ∨ (devAddrs p1 p2).2 = 0x1C) := by
  cases p1 <;> cases p2 <;> decide

theorem BlockLegal.bindRegs {s : State} (h : BlockLegal s) (b : BusId) (p1 p2 : Bool) :
    BlockLegal (bindRegs b p1 p2 s) :=
  ⟨fun _ => devAddrs_legal p1 p2, h.2⟩

/-- The `reset` input clears `bound`, and leaves the environment as it was or unknown (R300, R301). -/
theorem BlockLegal.resetBlock {s : State} (h : BlockLegal s) : StateInv (resetBlock s) := by
  have henv : EnvLegal (Machine.resetBlock s).env := by
    simp only [Machine.resetBlock]
    split
    · exact h.2
    · trivial
  have haddr : AddressesLegal (Machine.resetBlock s) := fun hb => nomatch hb
  exact BlockLegal.stateInv_of_not_inCommand ⟨haddr, henv⟩ rfl

/-! ### Operations keep it -/

/-- Where the registers of a bind are the same, only the environment has to be looked at. -/
theorem BlockLegal.of_samePersistent {s t : State} (h : BlockLegal s) (hp : SamePersistent s t)
    (he : EnvLegal t.env) : BlockLegal t := by
  obtain ⟨-, hmem, hreg, hbound⟩ := hp
  refine ⟨?_, he⟩
  rw [AddressesLegal, hmem, hreg, hbound]
  exact h.1

theorem sendFrame_blockLegal {f : Frame} {s t : State} (h : sendFrame f s = some t) (hs : BlockLegal s) :
    BlockLegal t :=
  hs.of_samePersistent (sendFrame_some h).1.same.1 (sendFrame_legal h hs.2)

theorem readRequest_blockLegal {dev : DevAddr} {s t : State} {ok : Bool} (h : readRequest dev s = some (ok, t))
    (hs : BlockLegal s) : BlockLegal t := by
  have he := readRequest_legal h hs.2
  obtain ⟨-, -, ⟨-, w, -, hr⟩ | ⟨-, -, -, w, -, hr⟩⟩ := readRequest_some h
  · exact hs.of_samePersistent hr.same.1 he
  · exact hs.of_samePersistent hr.same.1 he

theorem writeReg_blockLegal {r : LogicalReg} {v : Byte} {s t : State} (h : writeReg r v s = some t)
    (hs : BlockLegal s) : BlockLegal t := by
  have he := writeReg_legal h hs.2
  obtain ⟨u, hr, rfl, -⟩ := writeReg_some h
  exact hs.of_samePersistent hr.same.1 he

theorem CallsOnly.samePersistent {s t : State} (h : CallsOnly s t) : SamePersistent s t := by
  rw [h]
  exact ⟨rfl, rfl, rfl, rfl⟩

theorem tInit_blockLegal {s t : State} (h : tInit s = some t) (hs : BlockLegal s) : BlockLegal t :=
  hs.of_samePersistent (tInit_callsOnly h).samePersistent (tInit_legal h hs.2)

theorem tDelay_blockLegal {n : Nat} {s t : State} (h : tDelay n s = some t) (hs : BlockLegal s) : BlockLegal t :=
  hs.of_samePersistent (tDelay_callsOnly h).samePersistent (tDelay_legal h hs.2)

/-! ### Commands run whole -/

/-- The probe of a bind (R131, R133). -/
theorem probe_stateInv {s t : State} (h : probe s = some t) (hs : BlockLegal s) : StateInv t := by
  simp only [probe, statusRead, Option.bind_eq_bind, Option.bind_eq_some_iff, Prod.exists, Option.some.injEq] at h
  obtain ⟨ok, u, hu, rfl⟩ := h
  exact (readRequest_blockLegal hu hs).respondOrTimeout ok _ _

/-- The four queries (R204). -/
theorem query_stateInv {mask : Byte} {s t : State} (h : query mask s = some t) (hs : BlockLegal s) : StateInv t := by
  simp only [query, statusRead, Option.bind_eq_bind, Option.bind_eq_some_iff, Prod.exists, Option.some.injEq] at h
  obtain ⟨ok, u, hu, rfl⟩ := h
  exact (readRequest_blockLegal hu hs).respondOrTimeout ok _ _

/-- STORE and RECALL (R174, R176). -/
theorem runChipCommand_stateInv {c : ChipCommand} {s t : State} (h : runChipCommand c s = some t)
    (hs : BlockLegal s) : StateInv t := by
  simp only [runChipCommand, Option.bind_eq_bind, Option.bind_eq_some_iff] at h
  obtain ⟨u, hu, h⟩ := h
  have hlegal := writeReg_blockLegal hu hs
  split at h
  · simp only [Option.bind_eq_some_iff, Option.some.injEq] at h
    obtain ⟨v, hv, rfl⟩ := h
    exact (tDelay_blockLegal hv hlegal).respond _ _ _
  · simp only [Option.some.injEq] at h
    subst h
    exact hlegal.fail _

theorem execBind_stateInv {b : BusId} {p1 p2 : Bool} {s t : State} (h : execBind b p1 p2 s = .next t)
    (hs : BlockLegal s) : StateInv t :=
  probe_stateInv (whenTransport_next.mp h).2 (hs.bindRegs _ _ _)

theorem execBindDefault_stateInv {s t : State} (h : execBindDefault s = .next t) (hs : BlockLegal s) :
    StateInv t := by
  obtain ⟨u, hu, hprobe⟩ := Option.bind_eq_some_iff.mp (whenTransport_next.mp h).2
  exact probe_stateInv hprobe (tInit_blockLegal hu (hs.bindRegs _ _ _))

theorem execRead_stateInv {a : Addr} {s t : State} (h : execRead a s = .next t) (hs : BlockLegal s) :
    StateInv t := by
  obtain ⟨-, h⟩ := whenBound_next.mp h
  simp only [Option.bind_eq_bind, Option.bind_eq_some_iff] at h
  obtain ⟨u, hu, h⟩ := h
  have hframe := sendFrame_blockLegal hu hs
  split at h
  · simp only [Option.bind_eq_some_iff, Prod.exists, Option.some.injEq] at h
    obtain ⟨ok, v, hv, rfl⟩ := h
    exact (readRequest_blockLegal hv hframe).respondOrTimeout ok _ _
  · simp only [Option.some.injEq] at h
    subst h
    exact hframe.fail _

theorem execWrite_stateInv {a : Addr} {v : Byte} {s t : State} (h : execWrite a v s = .next t)
    (hs : BlockLegal s) : StateInv t := by
  obtain ⟨-, h⟩ := whenBound_next.mp h
  simp only [Option.bind_eq_bind, Option.bind_eq_some_iff, Option.some.injEq] at h
  obtain ⟨u, hu, rfl⟩ := h
  exact (sendFrame_blockLegal hu hs).finishByStatus

theorem execGetStatus_stateInv {s t : State} (h : execGetStatus s = .next t) (hs : BlockLegal s) : StateInv t := by
  obtain ⟨-, h⟩ := whenBound_next.mp h
  simp only [statusRead, Option.bind_eq_bind, Option.bind_eq_some_iff, Prod.exists, Option.some.injEq] at h
  obtain ⟨ok, u, hu, rfl⟩ := h
  exact (readRequest_blockLegal hu hs).respondOrTimeout ok _ _

theorem execSetAutostore_stateInv {en : Bool} {s t : State} (h : execSetAutostore en s = .next t)
    (hs : BlockLegal s) : StateInv t := by
  obtain ⟨-, h⟩ := whenBound_next.mp h
  simp only [statusRead, Option.bind_eq_bind, Option.bind_eq_some_iff, Prod.exists] at h
  obtain ⟨ok, u, hu, h⟩ := h
  have hlegal := readRequest_blockLegal hu hs
  split at h
  · simp only [Option.bind_eq_some_iff, Option.some.injEq] at h
    obtain ⟨v, hv, rfl⟩ := h
    exact (writeReg_blockLegal hv hlegal).finishByStatus
  · simp only [Option.some.injEq] at h
    subst h
    exact hlegal.fail _

/-- A reserved opcode does nothing but answer (R94). -/
theorem illegalCmd_stateInv {s t : State} (hs : BlockLegal s)
    (h : (.next (fail .illegalCmd s) : Host.Outcome State Fault Refusal) = .next t) : StateInv t := by
  cases h
  exact hs.fail _

/-- A command that answers leaves a state that meets the invariant. -/
theorem exec_stateInv {i : Instr} {s t : State} (h : exec i s = .next t) (hs : BlockLegal s) : StateInv t := by
  cases i with
  | bind bus pin1 pin2 => exact execBind_stateInv h hs
  | bindDefault => exact execBindDefault_stateInv h hs
  | read addr => exact execRead_stateInv h hs
  | write addr data => exact execWrite_stateInv h hs
  | getStatus => exact execGetStatus_stateInv h hs
  | store | recallArray => exact runChipCommand_stateInv (whenBound_next.mp h).2 hs
  | isEvent | isAutostore | isWrprot | isModified => exact query_stateInv (whenBound_next.mp h).2 hs
  | setAutostore en => exact execSetAutostore_stateInv h hs
  | reservedC | reservedD | reservedE | reservedF => exact illegalCmd_stateInv hs h

/-! ### The paths of R227 -/

/-- A command with a phase of a write frame on its path sends a frame of at least two bytes, has the frame's other
phases on its path, and TX_B2 exactly for a frame of three bytes (R223). -/
theorem frame_of_onPath {i : Instr} {p : Phase} (s : State) (hon : onPath i p = true)
    (hp : p ∈ [Phase.txBegin, .txB0, .txB1, .txB2, .txEnd]) :
    ∃ f, frameOf i s = some f ∧ 2 ≤ f.bytes.length ∧ (onPath i .txB2 = true ↔ f.bytes.length = 3) ∧
      ∀ q ∈ [Phase.txB0, .txB1, .txEnd], onPath i q = true := by
  simp only [List.mem_cons, List.not_mem_nil, or_false] at hp
  cases i with
  | read a =>
    exact ⟨_, rfl, by simp [addressFrame], by simp [onPath, path, Phase.inCommand, addressFrame],
      by simp [onPath, path]⟩
  | write a v => exact ⟨_, rfl, by simp [arrayFrame], by simp [onPath, path, arrayFrame], by simp [onPath, path]⟩
  | store | recallArray | setAutostore en =>
    exact ⟨_, rfl, by simp [registerFrame], by simp [onPath, path, Phase.inCommand, registerFrame],
      by simp [onPath, path]⟩
  | _ => rcases hp with rfl | rfl | rfl | rfl | rfl <;> exact nomatch hon

/-- A command with a phase of a read request on its path has a device for it and all of the request's phases on its
path (R102, R229). -/
theorem request_of_onPath {i : Instr} {p : Phase} (s : State) (hon : onPath i p = true)
    (hp : p ∈ [Phase.rxReq, .rxPoll, .rxTime, .rxRead]) :
    (∃ dev, (deviceMap i s).2 = some dev) ∧ ∀ q ∈ [Phase.rxReq, .rxPoll, .rxTime, .rxRead], onPath i q = true := by
  simp only [List.mem_cons, List.not_mem_nil, or_false] at hp
  cases i with
  | write _ _ | store | recallArray | reservedC | reservedD | reservedE | reservedF =>
    rcases hp with rfl | rfl | rfl | rfl <;> exact nomatch hon
  | _ => exact ⟨⟨_, rfl⟩, by simp [onPath, path]⟩

/-- Only STORE and RECALL pass CMD_WAIT (R227). -/
theorem chipCommand_of_onPath {i : Instr} (hon : onPath i .cmdWait = true) : ∃ c, chipCommandOf i = some c := by
  cases i with
  | store | recallArray => exact ⟨_, rfl⟩
  | _ => exact nomatch hon

/-! ### A command in progress past BIND_WR -/

/-- The block runs the command `i` and is past its binding. -/
structure Running (i : Instr) (s : State) : Prop where
  legal : BlockLegal s
  latched : latched s = i
  bound : s.bound = true

theorem running_of_stateInv {s : State} (h : StateInv s) (hc : s.phase.inCommand = true) (hp : s.phase ≠ .bindWr) :
    Running (latched s) s := by
  obtain ⟨hlegal, -, hbound⟩ := (stateInv_iff s).mp h
  exact ⟨hlegal, rfl, hbound hc hp⟩

/-- Calls that return leave the command running. -/
theorem Running.calls {i : Instr} {s t : State} (h : Running i s) (hc : CallsOnly s t) (he : EnvLegal t.env) :
    Running i t where
  legal := h.legal.of_samePersistent hc.samePersistent he
  latched := hc.latched.trans h.latched
  bound := hc.samePersistent.2.2.2.trans h.bound

/-- The next phase of a running command may be any phase on its path. -/
theorem Running.atPhase {i : Instr} {s : State} {p : Phase} (h : Running i s) (hon : onPath i p = true) :
    StateInv (atPhase p s) :=
  h.legal.stateInv_atPhase (h.latched ▸ hon) fun _ _ => h.bound

/-! ### What follows a phase is on the path -/

/-- After BIND_WR the block is bound to addresses that a bind computes, and RX_REQ or T_INIT is next (R231). -/
theorem bindWrite_stateInv {i : Instr} {s : State} (h : BlockLegal s) (hi : latched s = i)
    (hon : onPath i .bindWr = true) : ∃ t, bindWrite i s = some t ∧ StateInv t := by
  have enter (b : BusId) (p1 p2 : Bool) {p : Phase} (hp : onPath i p = true) :
      StateInv (atPhase p (bindRegs b p1 p2 s)) :=
    Running.atPhase (i := i) ⟨h.bindRegs b p1 p2, hi, rfl⟩ hp
  cases i with
  | bind b p1 p2 => exact ⟨_, rfl, enter b p1 p2 (p := .rxReq) rfl⟩
  | bindDefault => exact ⟨_, rfl, enter _ _ _ (p := .tInit) rfl⟩
  | _ => exact nomatch hon

theorem afterFrame_stateInv {i : Instr} {s : State} (h : Running i s) (hon : onPath i .txEnd = true) :
    ∃ t, afterFrame i s = some t ∧ StateInv t := by
  cases i with
  | read a =>
    refine ⟨_, rfl, ?_⟩
    split
    · exact h.atPhase (p := .rxReq) rfl
    · exact h.legal.fail _
  | write a v => exact ⟨_, rfl, h.legal.finishByStatus⟩
  | store | recallArray | setAutostore _ => exact ⟨_, rfl, h.atPhase (p := .settle) rfl⟩
  | _ => exact nomatch hon

theorem afterSettle_stateInv {i : Instr} {s : State} (h : Running i s) : StateInv (afterSettle i s) := by
  unfold afterSettle
  split
  · next c hc =>
    have hwait : onPath i .cmdWait = true := by
      cases i with
      | store | recallArray => rfl
      | _ => exact nomatch hc
    split
    · exact h.atPhase hwait
    · exact h.legal.fail _
  · exact h.legal.finishByStatus

theorem afterByte_stateInv {i : Instr} {s : State} (h : Running i s) (hon : onPath i .rxRead = true) :
    ∃ t, afterByte i s = some t ∧ StateInv t := by
  cases i with
  | bind _ _ _ | bindDefault | read _ | getStatus | isEvent | isAutostore | isWrprot | isModified =>
    exact ⟨_, rfl, h.legal.respond _ _ _⟩
  | setAutostore en => exact ⟨_, rfl, h.atPhase (p := .modify) rfl⟩
  | _ => exact nomatch hon

/-! ### One phase -/

/-- One transition of the sequencer as it should be: the invariant holds after it, or a primitive has not returned. -/
def KeepsOrWaits : Host.Outcome State Fault Refusal → Prop
  | .next t => StateInv t
  | .fault f => f = .primitiveNeverReturns
  | .refused _ => False

/-- A phase left when its primitive returns need only be looked at where it does. -/
theorem keepsOrWaits_leaveBy {r : Option State} {next : State → Option State}
    (h : ∀ u, r = some u → ∃ t, next u = some t ∧ StateInv t) : KeepsOrWaits (leaveBy r next) := by
  cases r with
  | none => exact rfl
  | some u =>
    obtain ⟨t, ht, hinv⟩ := h u rfl
    simp only [leaveBy, ht]
    exact hinv

/-- A byte that the frame has is sent, and the next phase of the path entered (R223). -/
theorem keepsOrWaits_sendByte {i : Instr} {s : State} {f : Frame} {k : Nat} {q : Phase} (h : Running i s)
    (hf : frameOf i s = some f) (hk : k < f.bytes.length) (hq : onPath i q = true) :
    KeepsOrWaits (sendByte i k q s) := by
  simp only [sendByte, hf, Option.bind_some, List.getElem?_eq_getElem hk]
  exact keepsOrWaits_leaveBy fun u hu =>
    ⟨_, rfl, (h.calls (tWrite_callsOnly hu) (tWrite_legal hu h.legal.2)).atPhase hq⟩

/-- The fork of TX_B1 by the length of the frame stays on the path (R223). -/
theorem onPath_afterB1 {i : Instr} {s : State} {f : Frame} (hf : frameOf i s = some f)
    (hend : onPath i .txEnd = true) (h3 : onPath i .txB2 = true ↔ f.bytes.length = 3) :
    onPath i (afterB1 i s) = true := by
  simp only [afterB1, hf]
  split
  · next hlen => exact h3.mpr hlen
  · exact hend

/-- SETTLE (R226). -/
theorem keepsOrWaits_settle {i : Instr} {s : State} (h : Running i s) (hp : s.phase = .settle) :
    KeepsOrWaits (runPhase i s) := by
  simp only [runPhase, hp]
  refine keepsOrWaits_leaveBy fun u hu => ?_
  obtain ⟨v, hv, rfl⟩ := Option.map_eq_some_iff.mp hu
  obtain ⟨hlegal, hlatched, hbound⟩ := h.calls (tDelay_callsOnly hv) (tDelay_legal hv h.legal.2)
  exact ⟨_, rfl, afterSettle_stateInv ⟨hlegal, hlatched, hbound⟩⟩

/-- RX_REQ: the request and the start of the wait (R229). -/
theorem keepsOrWaits_rxReq {i : Instr} {s : State} (h : Running i s) (hp : s.phase = .rxReq) {dev : DevAddr}
    (hdev : (deviceMap i s).2 = some dev) (hpoll : onPath i .rxPoll = true) : KeepsOrWaits (runPhase i s) := by
  simp only [runPhase, hp, hdev]
  refine keepsOrWaits_leaveBy fun u hu => ?_
  obtain ⟨v, hv, hu⟩ := Option.bind_eq_some_iff.mp hu
  obtain ⟨⟨n, w⟩, hw, rfl⟩ := Option.map_eq_some_iff.mp hu
  have hrequested := h.calls (tRequest_callsOnly hv) (tRequest_legal hv h.legal.2)
  have htimed := hrequested.calls (tNow_callsOnly hw) (tNow_legal hw hrequested.legal.2)
  have hstarted : Running i { w with t0 := n } := htimed.calls rfl htimed.legal.2
  exact ⟨_, rfl, hstarted.atPhase hpoll⟩

/-- RX_POLL leads to RX_READ or RX_TIME (R229). -/
theorem keepsOrWaits_rxPoll {i : Instr} {s : State} (h : Running i s) (hp : s.phase = .rxPoll)
    (hread : onPath i .rxRead = true) (htime : onPath i .rxTime = true) : KeepsOrWaits (runPhase i s) := by
  simp only [runPhase, hp]
  refine keepsOrWaits_leaveBy fun u hu => ?_
  obtain ⟨⟨n, v⟩, hv, rfl⟩ := Option.map_eq_some_iff.mp hu
  have hpolled := h.calls (tAvailable_callsOnly hv) (tAvailable_legal hv h.legal.2)
  refine ⟨_, rfl, hpolled.atPhase (p := if 1 ≤ n then .rxRead else .rxTime) ?_⟩
  split
  · exact hread
  · exact htime

/-- RX_TIME leads back to RX_POLL, or ends the command at the deadline (R229). -/
theorem keepsOrWaits_rxTime {i : Instr} {s : State} (h : Running i s) (hp : s.phase = .rxTime)
    (hpoll : onPath i .rxPoll = true) : KeepsOrWaits (runPhase i s) := by
  simp only [runPhase, hp]
  refine keepsOrWaits_leaveBy fun u hu => ?_
  obtain ⟨⟨n, v⟩, hv, rfl⟩ := Option.map_eq_some_iff.mp hu
  have htimed := h.calls (tNow_callsOnly hv) (tNow_legal hv h.legal.2)
  refine ⟨_, rfl, ?_⟩
  split
  · exact htimed.legal.fail _
  · exact htimed.atPhase hpoll

/-- The phases of a write frame (R223). -/
theorem keepsOrWaits_framePhase {i : Instr} {s : State} (h : Running i s) (hon : onPath i s.phase = true)
    (hp : s.phase ∈ [Phase.txBegin, .txB0, .txB1, .txB2, .txEnd]) : KeepsOrWaits (runPhase i s) := by
  obtain ⟨f, hf, hlen, h3, hq⟩ := frame_of_onPath s hon hp
  simp only [List.mem_cons, List.not_mem_nil, or_false] at hp
  have hend : onPath i .txEnd = true := hq _ (by simp)
  rcases hp with hp | hp | hp | hp | hp <;> simp only [runPhase, hp]
  · simp only [hf]
    exact keepsOrWaits_leaveBy fun u hu =>
      ⟨_, rfl, (h.calls (tBegin_callsOnly hu) (tBegin_legal hu h.legal.2)).atPhase (hq _ (by simp))⟩
  · exact keepsOrWaits_sendByte h hf (by omega) (hq _ (by simp))
  · exact keepsOrWaits_sendByte h hf (by omega) (onPath_afterB1 hf hend h3)
  · have : f.bytes.length = 3 := h3.mp (hp ▸ hon)
    exact keepsOrWaits_sendByte h hf (by omega) hend
  · simp only [hf]
    exact keepsOrWaits_leaveBy fun u hu =>
      afterFrame_stateInv (h.calls (tEnd_callsOnly hu) (tEnd_legal hu h.legal.2)) hend

/-- The phases of a read request (R229). -/
theorem keepsOrWaits_requestPhase {i : Instr} {s : State} (h : Running i s) (hon : onPath i s.phase = true)
    (hp : s.phase ∈ [Phase.rxReq, .rxPoll, .rxTime, .rxRead]) : KeepsOrWaits (runPhase i s) := by
  obtain ⟨⟨dev, hdev⟩, hq⟩ := request_of_onPath s hon hp
  simp only [List.mem_cons, List.not_mem_nil, or_false] at hp
  have hpoll : onPath i .rxPoll = true := hq _ (by simp)
  have hread : onPath i .rxRead = true := hq _ (by simp)
  rcases hp with hp | hp | hp | hp
  · exact keepsOrWaits_rxReq h hp hdev hpoll
  · exact keepsOrWaits_rxPoll h hp hread (hq _ (by simp))
  · exact keepsOrWaits_rxTime h hp hpoll
  · simp only [runPhase, hp]
    exact keepsOrWaits_leaveBy fun u hu =>
      afterByte_stateInv (h.calls (tRead_callsOnly hu) (tRead_legal hu h.legal.2)) hread

/-- T_INIT leads to RX_REQ (R231). -/
theorem keepsOrWaits_tInit {i : Instr} {s : State} (h : Running i s) (hon : onPath i .tInit = true)
    (hp : s.phase = .tInit) : KeepsOrWaits (runPhase i s) := by
  have hreq : onPath i .rxReq = true := by
    cases i with
    | bindDefault => rfl
    | _ => exact nomatch hon
  simp only [runPhase, hp]
  exact keepsOrWaits_leaveBy fun u hu =>
    ⟨_, rfl, (h.calls (tInit_callsOnly hu) (tInit_legal hu h.legal.2)).atPhase hreq⟩

/-- CMD_WAIT ends the command (R226). -/
theorem keepsOrWaits_cmdWait {i : Instr} {s : State} (h : Running i s) (hon : onPath i .cmdWait = true)
    (hp : s.phase = .cmdWait) : KeepsOrWaits (runPhase i s) := by
  obtain ⟨c, hc⟩ := chipCommand_of_onPath hon
  simp only [runPhase, hp, hc]
  exact keepsOrWaits_leaveBy fun u hu => ⟨_, rfl, (tDelay_blockLegal hu h.legal).respond _ _ _⟩

/-- MODIFY leads to TX_BEGIN (R230). -/
theorem keepsOrWaits_modify {i : Instr} {s : State} (h : Running i s) (hon : onPath i .modify = true)
    (hp : s.phase = .modify) : KeepsOrWaits (runPhase i s) := by
  have hbegin : onPath i .txBegin = true := by
    cases i with
    | setAutostore _ => rfl
    | _ => exact nomatch hon
  obtain ⟨hlegal, hlatched, hbound⟩ := h
  simp only [runPhase, hp]
  exact Running.atPhase (s := { s with wReg := regAddress .status, wVal := autostoreByte s.cEn s.sbyte })
    ⟨hlegal, hlatched, hbound⟩ hbegin

/-- The work of any phase on the path, past BIND_WR. -/
theorem runPhase_keepsOrWaits {i : Instr} {s : State} (h : Running i s) (hon : onPath i s.phase = true)
    (hc : s.phase.inCommand = true) (hp : s.phase ≠ .bindWr) : KeepsOrWaits (runPhase i s) := by
  cases hphase : s.phase with
  | idle | done => simp [hphase, Phase.inCommand] at hc
  | bindWr => exact absurd hphase hp
  | tInit => exact keepsOrWaits_tInit h (hphase ▸ hon) hphase
  | txBegin | txB0 | txB1 | txB2 | txEnd => exact keepsOrWaits_framePhase h hon (by simp [hphase])
  | settle => exact keepsOrWaits_settle h hphase
  | cmdWait => exact keepsOrWaits_cmdWait h (hphase ▸ hon) hphase
  | rxReq | rxPoll | rxTime | rxRead => exact keepsOrWaits_requestPhase h hon (by simp [hphase])
  | modify => exact keepsOrWaits_modify h (hphase ▸ hon) hphase

/-- Under the invariant a transition of the sequencer keeps it and never leaves the command's path (R222, R227). -/
theorem seqStep_keepsOrWaits {s : State} (h : StateInv s) (hc : s.phase.inCommand = true) :
    KeepsOrWaits (seqStep s) := by
  obtain ⟨hlegal, hon, -⟩ := (stateInv_iff s).mp h
  simp only [seqStep, hon, if_true]
  by_cases hp : s.phase = .bindWr
  · simp only [runPhase, hp]
    refine keepsOrWaits_leaveBy fun u hu => ?_
    cases hu
    exact bindWrite_stateInv hlegal rfl (hp ▸ hon)
  · exact runPhase_keepsOrWaits (running_of_stateInv h hc hp) hon hc hp

/-! ### One sample -/

/-- An outcome that keeps the invariant and is no fault. -/
def Keeps : Host.Outcome State Fault Refusal → Prop
  | .next t => StateInv t
  | .fault _ => False
  | .refused _ => True

/-- A command in progress: a primitive that has not returned leaves the block where it is (R316). -/
theorem progress_keeps {s : State} (h : StateInv s) (hc : s.phase.inCommand = true) : Keeps (progress s) := by
  have hkeeps := seqStep_keepsOrWaits h hc
  unfold progress
  cases hstep : seqStep s with
  | next t => rwa [hstep] at hkeeps
  | fault f =>
    rw [hstep] at hkeeps
    obtain rfl : f = .primitiveNeverReturns := hkeeps
    exact h
  | refused r => trivial

/-- What one sample can do, whatever "accept" means: reset, accept, stay, take the response, or go on. -/
theorem onSample_cases (acc : CmdWord → State → Host.Outcome State Fault Refusal) (h : HostIn) (s : State) :
    onSample acc h s = .next (resetBlock s) ∨ onSample acc h s = acc h.cmdWord s ∨ onSample acc h s = .next s ∨
      onSample acc h s = .next (takeResponse s) ∨ (s.phase.inCommand = true ∧ onSample acc h s = progress s) := by
  cases hr : h.reset with
  | true => exact .inl (if_pos hr)
  | false =>
    cases hp : s.phase with
    | idle =>
      cases hv : h.cmdValid <;> simp [onSample, hr, hp, hv]
    | done => cases hy : h.rspReady <;> simp [onSample, hr, hp, hy]
    | _ => exact .inr (.inr (.inr (.inr ⟨rfl, onSample_inCommand acc h s hr (by rw [hp]; rfl)⟩)))

/-- Using up a sample changes nothing the invariant speaks of. -/
theorem consumeSample_stateInv {s : State} (h : StateInv s) : StateInv (consumeSample s) := h

/-- A sample keeps the invariant if accepting a command does. -/
theorem onSample_stateInv {acc : CmdWord → State → Host.Outcome State Fault Refusal} {h : HostIn} {s t : State}
    (hs : StateInv s) (hacc : ∀ w t, acc w s = .next t → StateInv t) (ht : onSample acc h s = .next t) :
    StateInv t := by
  have hlegal := ((stateInv_iff s).mp hs).1
  rcases onSample_cases acc h s with e | e | e | e | ⟨hc, e⟩ <;> rw [e] at ht
  · cases ht
    exact hlegal.resetBlock
  · exact hacc _ _ ht
  · cases ht
    exact hs
  · cases ht
    exact BlockLegal.stateInv_of_not_inCommand (s := takeResponse s) hlegal rfl
  · have hkeeps := progress_keeps hs hc
    rwa [ht] at hkeeps

/-- A sample ends in no fault if accepting a command does not. -/
theorem onSample_ne_fault {acc : CmdWord → State → Host.Outcome State Fault Refusal} {h : HostIn} {s : State}
    (hs : StateInv s) (hacc : ∀ w f, acc w s ≠ .fault f) (f : Fault) : onSample acc h s ≠ .fault f := by
  intro ht
  rcases onSample_cases acc h s with e | e | e | e | ⟨hc, e⟩ <;> rw [e] at ht
  · cases ht
  · exact hacc _ _ ht
  · cases ht
  · cases ht
  · have hkeeps := progress_keeps hs hc
    rw [ht] at hkeeps
    exact hkeeps

/-! ### Dispatch -/

theorem start_keeps {i : Instr} {p : Phase} {s : State} (h : BlockLegal s) (hi : latched s = i)
    (hon : onPath i p = true) : Keeps (start p s) := by
  unfold start
  split
  · next hb => exact Running.atPhase ⟨h, hi, hb⟩ hon
  · trivial

theorem startBind_keeps {b : BusId} {s : State} (h : BlockLegal s) (hon : onPath (latched s) .bindWr = true) :
    Keeps (startBind b s) := by
  unfold startBind
  split
  · trivial
  · exact h.stateInv_atPhase hon fun _ hp => absurd rfl hp

/-- Dispatch leads to the first phase of the latched command, to a response, or refuses (R222). -/
theorem dispatch_keeps {s : State} (h : BlockLegal s) : Keeps (dispatch s) := by
  unfold dispatch
  cases hi : latched s with
  | bind _ _ _ | bindDefault => exact startBind_keeps h (by rw [hi]; rfl)
  | read _ | write _ _ | getStatus | isEvent | isAutostore | isWrprot | isModified | setAutostore _ =>
    exact start_keeps h hi rfl
  | store => exact start_keeps (s := loadCommand .store s) h hi rfl
  | recallArray => exact start_keeps (s := loadCommand .recallArray s) h hi rfl
  | reservedC | reservedD | reservedE | reservedF => exact h.fail _

/-! ### The statements -/

/-- Settles O15: every answer of a sample keeps the invariant, since a command run whole ends with a response. -/
theorem stepKeepsInvariant : Obligations.StepKeepsInvariant := by
  intro s t hs ht
  have hs' := consumeSample_stateInv hs
  exact onSample_stateInv hs' (fun w u hu => exec_stateInv (s := latch w (consumeSample s)) hu
    ((stateInv_iff _).mp hs').1) ht

/-- Settles O16: dispatch and every phase lead along the latched command's path. -/
theorem tickKeepsInvariant : Obligations.TickKeepsInvariant := by
  intro s hs
  have hs' := consumeSample_stateInv hs
  have hacc (w : CmdWord) : Keeps (acceptPhase w (consumeSample s)) :=
    dispatch_keeps (s := latch w (consumeSample s)) ((stateInv_iff _).mp hs').1
  constructor
  · refine fun t => onSample_stateInv hs' fun w u hu => ?_
    have hkeeps := hacc w
    rwa [hu] at hkeeps
  · refine fun f => onSample_ne_fault hs' (fun w g hg => ?_) f
    have hkeeps := hacc w
    rwa [hg] at hkeeps

/-- Settles O14: after reset the block is unbound and in IDLE, and its environment is ENV0 with empty arrays. -/
theorem resetStateMeetsInvariant : Obligations.ResetStateMeetsInvariant := by
  have haddr : AddressesLegal State.reset := fun hb => nomatch hb
  have henv : EnvLegal State.reset.env := ⟨Memory.wf_nil, Memory.wf_nil, by decide, by decide⟩
  exact BlockLegal.stateInv_of_not_inCommand ⟨haddr, henv⟩ rfl

/-- Settles O53: below 2^32 ms the two counters differ by the interval modulo 2^32, which is the interval. -/
theorem wrappedCounterAgrees : Obligations.WrappedCounterAgrees := by
  intro now t0 hle hlt
  simp only [wrappedElapsed]
  omega

end Sys2Proof.Machine
end

section
/-! Which commands write the registers of the binding, and what reset does (spec/10_state.md R34, R35;
spec/44_sequencer.md R242; spec/70_reset_and_hazards.md R300 to R302). The calls on the port and the response leave the
four registers of the binding alone, so a command changes them only by `bindRegs`. -/

namespace Sys2Proof.Machine

open Sys2Proof

/-! ### The binding along a command -/

theorem SamePersistent.trans {s t u : State} (h : SamePersistent s t) (k : SamePersistent t u) :
    SamePersistent s u := by
  obtain ⟨hbus, hmem, hreg, hbound⟩ := h
  obtain ⟨kbus, kmem, kreg, kbound⟩ := k
  exact ⟨kbus.trans hbus, kmem.trans hmem, kreg.trans hreg, kbound.trans hbound⟩

theorem sendFrame_samePersistent {f : Frame} {s t : State} (h : sendFrame f s = some t) : SamePersistent s t :=
  (sendFrame_some h).1.same.1

theorem readRequest_samePersistent {dev : DevAddr} {s t : State} {ok : Bool}
    (h : readRequest dev s = some (ok, t)) : SamePersistent s t := by
  obtain ⟨-, -, ⟨-, w, -, hr⟩ | ⟨-, -, -, w, -, hr⟩⟩ := readRequest_some h
  · exact hr.same.1
  · exact hr.same.1

/-- WRITEREG writes `w_reg`, `w_val` and `w_ok` besides its calls, none of which belongs to the binding (R172). -/
theorem writeReg_samePersistent {r : LogicalReg} {v : Byte} {s t : State} (h : writeReg r v s = some t) :
    SamePersistent s t := by
  obtain ⟨u, hr, rfl, -⟩ := writeReg_some h
  exact hr.same.1

theorem respond_samePersistent (ok : Bool) (c : Cause) (d : Option Byte) (s : State) :
    SamePersistent s (respond ok c d s) := ⟨rfl, rfl, rfl, rfl⟩

theorem fail_samePersistent (c : Cause) (s : State) : SamePersistent s (fail c s) := respond_samePersistent _ _ _ _

theorem finishByStatus_samePersistent (s : State) : SamePersistent s (finishByStatus s) := by
  unfold finishByStatus
  split
  · exact respond_samePersistent _ _ _ _
  · exact fail_samePersistent _ _

/-- A read request whose result is the response, as the commands that read end (R133, R150, R170, R204): `ok` and `data`
say what is answered where a byte came. -/
theorem readThenRespond_samePersistent {dev : DevAddr} {s t : State} (ok : State → Bool) (data : State → Option Byte)
    (h : ((readRequest dev s).bind fun r =>
      some (if r.1 then respond (ok r.2) .none (data r.2) r.2 else fail .rspTimeout r.2)) = some t) :
    SamePersistent s t := by
  simp only [Option.bind_eq_some_iff, Prod.exists, Option.some.injEq] at h
  obtain ⟨came, u, hu, rfl⟩ := h
  refine (readRequest_samePersistent hu).trans ?_
  split
  · exact respond_samePersistent _ _ _ _
  · exact fail_samePersistent _ _

theorem probe_samePersistent {s t : State} (h : probe s = some t) : SamePersistent s t :=
  readThenRespond_samePersistent (fun _ => true) (fun _ => none) h

theorem query_samePersistent {mask : Byte} {s t : State} (h : query mask s = some t) : SamePersistent s t :=
  readThenRespond_samePersistent (fun u => testMask mask u.sbyte) (fun _ => none) h

theorem runChipCommand_samePersistent {c : ChipCommand} {s t : State} (h : runChipCommand c s = some t) :
    SamePersistent s t := by
  simp only [runChipCommand, Option.bind_eq_bind, Option.bind_eq_some_iff] at h
  obtain ⟨u, hu, h⟩ := h
  refine (writeReg_samePersistent hu).trans ?_
  split at h
  · simp only [Option.bind_eq_some_iff, Option.some.injEq] at h
    obtain ⟨v, hv, rfl⟩ := h
    exact (tDelay_callsOnly hv).samePersistent.trans (respond_samePersistent _ _ _ _)
  · cases h
    exact fail_samePersistent _ _

theorem execRead_samePersistent {a : Addr} {s t : State} (h : execRead a s = .next t) : SamePersistent s t := by
  obtain ⟨-, h⟩ := whenBound_next.mp h
  obtain ⟨u, hu, h⟩ := Option.bind_eq_some_iff.mp h
  refine (sendFrame_samePersistent hu).trans ?_
  split at h
  · exact readThenRespond_samePersistent (fun _ => true) (fun v => some v.sbyte) h
  · cases h
    exact fail_samePersistent _ _

theorem execWrite_samePersistent {a : Addr} {v : Byte} {s t : State} (h : execWrite a v s = .next t) :
    SamePersistent s t := by
  obtain ⟨-, h⟩ := whenBound_next.mp h
  obtain ⟨u, hu, h⟩ := Option.bind_eq_some_iff.mp h
  cases h
  exact (sendFrame_samePersistent hu).trans (finishByStatus_samePersistent u)

theorem execGetStatus_samePersistent {s t : State} (h : execGetStatus s = .next t) : SamePersistent s t :=
  readThenRespond_samePersistent (fun _ => true) (fun u => some u.sbyte) (whenBound_next.mp h).2

theorem execSetAutostore_samePersistent {en : Bool} {s t : State} (h : execSetAutostore en s = .next t) :
    SamePersistent s t := by
  obtain ⟨-, h⟩ := whenBound_next.mp h
  obtain ⟨⟨ok, u⟩, hu, h⟩ := Option.bind_eq_some_iff.mp h
  refine (readRequest_samePersistent hu).trans ?_
  cases ok with
  | true =>
    obtain ⟨v, hv, h⟩ := Option.bind_eq_some_iff.mp h
    cases h
    exact (writeReg_samePersistent hv).trans (finishByStatus_samePersistent v)
  | false =>
    cases h
    exact fail_samePersistent _ _

/-- A command that is no bind leaves the binding as it was. -/
theorem exec_samePersistent {i : Instr} {s t : State} (hi : i.isBind = false) (h : exec i s = .next t) :
    SamePersistent s t := by
  cases i with
  | bind _ _ _ | bindDefault => exact nomatch hi
  | read a => exact execRead_samePersistent h
  | write a v => exact execWrite_samePersistent h
  | getStatus => exact execGetStatus_samePersistent h
  | store | recallArray => exact runChipCommand_samePersistent (whenBound_next.mp h).2
  | isEvent | isAutostore | isWrprot | isModified => exact query_samePersistent (whenBound_next.mp h).2
  | setAutostore en => exact execSetAutostore_samePersistent h
  | reservedC | reservedD | reservedE | reservedF =>
    cases h
    exact fail_samePersistent _ _

/-- What a bind wrote is still there where nothing after it writes the binding. -/
theorem binding_of_bindRegs {b : BusId} {p1 p2 : Bool} {s t : State} (h : SamePersistent (bindRegs b p1 p2 s) t) :
    t.bus = b ∧ (t.memAddr, t.regAddr) = devAddrs p1 p2 ∧ t.bound = true := by
  obtain ⟨hbus, hmem, hreg, hbound⟩ := h
  exact ⟨hbus, Prod.ext hmem hreg, hbound⟩

/-- The probe of BIND keeps what its register writes left (R131, R134). -/
theorem execBind_samePersistent {b : BusId} {p1 p2 : Bool} {s t : State} (h : execBind b p1 p2 s = .next t) :
    SamePersistent (bindRegs b p1 p2 s) t :=
  probe_samePersistent (whenTransport_next.mp h).2

/-- `T.init()` and the probe of BIND_DEFAULT keep what its register writes left (R132, R134). -/
theorem execBindDefault_samePersistent {s t : State} (h : execBindDefault s = .next t) :
    SamePersistent (bindRegs cfg.defaultBus false false s) t := by
  obtain ⟨u, hu, hprobe⟩ := Option.bind_eq_some_iff.mp (whenTransport_next.mp h).2
  exact (tInit_callsOnly hu).samePersistent.trans (probe_samePersistent hprobe)

/-! ### Reset and the outputs -/

theorem nextSample_of_host {s : State} {h : HostIn} {rest : List HostIn} (hs : s.host = h :: rest) :
    nextSample s = h := by
  simp only [nextSample, hs]

/-- `reset` comes before everything else in a sample, whatever the phase (R300, R301). -/
theorem onSample_reset (acc : CmdWord → State → Host.Outcome State Fault Refusal) {h : HostIn} (s : State)
    (hr : h.reset = true) : onSample acc h s = .next (resetBlock s) :=
  if_pos hr

/-- A reset in IDLE does not touch the environment (R302). -/
theorem resetBlock_env_of_idle {s : State} (hp : s.phase = .idle) : (resetBlock s).env = s.env := if_pos hp

/-- A reset in any other phase leaves the environment unknown (R301, log 10). -/
theorem resetBlock_env_of_ne_idle {s : State} (hp : s.phase ≠ .idle) :
    (resetBlock s).env = s.env.unknownFrom s.env.time := if_neg hp

theorem cmdReady_iff (s : State) : s.cmdReady = true ↔ s.phase = .idle := beq_iff_eq

theorem rspValid_iff (s : State) : s.rspValid = true ↔ s.phase = .done := beq_iff_eq

/-! ### The statements -/

/-- Settles O47: a command that is no bind issues calls and responds, and what a bind does after its register writes
leaves them. -/
theorem onlyBindsWriteTheBinding : Obligations.OnlyBindsWriteTheBinding :=
  ⟨fun _ _ _ hi h => exec_samePersistent hi h, fun _ _ _ _ _ h => binding_of_bindRegs (execBind_samePersistent h),
    fun _ _ h => binding_of_bindRegs (execBindDefault_samePersistent h)⟩

/-- Settles O12: a sample with `reset` is `resetBlock` at both grains, and its environment depends on the phase
alone. -/
theorem resetInputEffect : Obligations.ResetInputEffect := by
  intro s h rest hs hr
  have hnext := nextSample_of_host hs
  have hstep : step s = .next (resetBlock (consumeSample s)) := onSample_reset _ _ (hnext ▸ hr)
  have htick : tick s = .next (resetBlock (consumeSample s)) := onSample_reset _ _ (hnext ▸ hr)
  have hhost : (consumeSample s).host = rest := by rw [consumeSample_host, hs, List.tail_cons]
  exact ⟨_, hstep, htick, rfl, rfl, rfl, rfl, hhost, rfl, resetBlock_env_of_idle (s := consumeSample s),
    fun hp => ⟨_, resetBlock_env_of_ne_idle (s := consumeSample s) hp⟩⟩

/-- Settles O13: the outputs follow from `phase` = IDLE (R242). -/
theorem resetStateValues : Obligations.ResetStateValues := by
  have hphase : State.reset.phase = .idle := rfl
  have hvalid : State.reset.rspValid ≠ true := by
    rw [Ne, rspValid_iff, hphase]
    exact Phase.noConfusion
  exact ⟨rfl, hphase, rfl, (cmdReady_iff _).mpr hphase, Bool.eq_false_iff.mpr hvalid⟩

end Sys2Proof.Machine
end

section
/-! What every command does on the port, in any environment: the calls go to the device addresses the block holds, and
the clock does not go back (spec/20_memory.md R52, R63); and the bound on the polls of a wait (R62). One relation says
it of a stretch of a command; each operation and each command is one more stretch. -/

namespace Sys2Proof.Machine

open Sys2Proof

/-! ### A stretch of a command -/

/-- A device address that the block holds from a bind. -/
def HeldAddress (s : State) (d : DevAddr) : Prop := s.bound = true ∧ (d = s.memAddr ∨ d = s.regAddr)

/-- From `s` to `t` the binding stayed as it was, the clock did not go back, and the calls issued carry no device
address but the ones held. -/
structure OnHeldDevices (s t : State) : Prop where
  binding : SamePersistent s t
  clock : ClockOk s t
  calls : ∃ l, t.log = (onBus s.bus l).reverse ++ s.log ∧ ∀ c ∈ l, ∀ d, c.dev = some d → HeldAddress s d

theorem HeldAddress.of_samePersistent {s t : State} {d : DevAddr} (h : SamePersistent s t) (hd : HeldAddress t d) :
    HeldAddress s d := by
  obtain ⟨-, hmem, hreg, hbound⟩ := h
  rwa [HeldAddress, hmem, hreg, hbound] at hd

/-- While the device addresses are legal, R52 lists every address held. -/
theorem HeldAddress.cases {s : State} {d : DevAddr} (hd : HeldAddress s d) (hs : AddressesLegal s) :
    d = 0x50 ∨ d = 0x52 ∨ d = 0x18 ∨ d = 0x1C := by
  obtain ⟨hbound, hdev⟩ := hd
  obtain ⟨hmem, hreg⟩ := hs hbound
  rcases hdev with rfl | rfl
  · rcases hmem with h | h <;> simp [h]
  · rcases hreg with h | h <;> simp [h]

/-- No call at all: register writes outside the binding. -/
theorem OnHeldDevices.of_log_eq {s t : State} (hp : SamePersistent s t) (he : t.env = s.env) (hl : t.log = s.log) :
    OnHeldDevices s t :=
  ⟨hp, by rw [ClockOk, he], [], by simpa [onBus] using hl, by simp⟩

theorem OnHeldDevices.bound {s t : State} (h : OnHeldDevices s t) (hb : s.bound = true) : t.bound = true := by
  obtain ⟨-, -, -, hbound⟩ := h.binding
  exact hbound.trans hb

theorem OnHeldDevices.trans {s t u : State} (h : OnHeldDevices s t) (k : OnHeldDevices t u) : OnHeldDevices s u := by
  obtain ⟨hp, hc, l, hl, hd⟩ := h
  obtain ⟨kp, kc, m, km, kd⟩ := k
  refine ⟨hp.trans kp, le_trans hc kc, l ++ m, ?_, fun c hcall d hdev => ?_⟩
  · rw [km, hl, hp.1]
    simp [onBus]
  · rcases List.mem_append.mp hcall with hmem | hmem
    · exact hd c hmem d hdev
    · exact (kd c hmem d hdev).of_samePersistent hp

theorem OnHeldDevices.of_ranCalls {s t : State} {l : List Call} (h : RanCalls s t l) (hc : ClockOk s t)
    (hd : ∀ c ∈ l, ∀ d, c.dev = some d → HeldAddress s d) : OnHeldDevices s t :=
  ⟨h.same.1, hc, l, h.2, hd⟩

/-- What was issued, with the devices it went to, for a command that wrote its binding first or not at all. -/
theorem OnHeldDevices.issued {s s' t : State} (h : OnHeldDevices s' t) (hs : s'.log = s.log) :
    ∃ l, Issued s t l ∧ ∀ c ∈ l, ∀ d, c.dev = some d → HeldAddress s' d := by
  obtain ⟨hp, -, l, hl, hd⟩ := h
  exact ⟨l, issued_of_log (by rw [hl, hp.1, hs]), hd⟩

/-! ### Operations -/

/-- The one device address of a frame is that of its `T.begin` (R96). -/
theorem dev_of_mem_frameCalls {c : Call} {dev d : DevAddr} {bytes : List Byte} {stop : Bool} {st : Byte}
    (hc : c ∈ frameCalls dev bytes stop st) (hd : c.dev = some d) : d = dev := by
  simp only [frameCalls, List.mem_cons, List.mem_append, List.mem_map, List.not_mem_nil, or_false] at hc
  rcases hc with rfl | ⟨b, -, rfl⟩ | rfl <;> simp_all [Call.dev]

/-- Polls and times carry no device address. -/
theorem IsWait.dev_eq_none {w : List Call} (h : IsWait w) : ∀ c ∈ w, c.dev = none := by
  intro c hc
  rcases h c hc with ⟨t, rfl⟩ | ⟨n, rfl⟩ <;> rfl

/-- The one device address of a read request is that of its `T.request` (R99). -/
theorem dev_of_mem_request {c : Call} {dev d : DevAddr} {l : List Call} (hl : ∀ c ∈ l, c.dev = none)
    (hc : c ∈ .request dev 1 :: l) (hd : c.dev = some d) : d = dev := by
  rcases List.mem_cons.mp hc with rfl | hc
  · exact (Option.some.inj hd).symm
  · rw [hl c hc] at hd
    cases hd

theorem sendFrame_onHeldDevices {f : Frame} {s t : State} (h : sendFrame f s = some t) (hf : HeldAddress s f.dev) :
    OnHeldDevices s t := by
  obtain ⟨hr, hc, -⟩ := sendFrame_some h
  exact .of_ranCalls hr hc fun c hcall d hd => dev_of_mem_frameCalls hcall hd ▸ hf

theorem readRequest_onHeldDevices {dev : DevAddr} {s t : State} {ok : Bool} (h : readRequest dev s = some (ok, t))
    (hf : HeldAddress s dev) : OnHeldDevices s t := by
  obtain ⟨hc, -, ⟨-, w, hw, hr⟩ | ⟨-, -, -, w, hw, hr⟩⟩ := readRequest_some h
  · have hnone : ∀ c ∈ w ++ [.read t.sbyte], c.dev = none :=
      List.forall_mem_append.mpr ⟨hw.isWait.dev_eq_none, List.forall_mem_singleton.mpr rfl⟩
    exact .of_ranCalls hr hc fun c hcall d hd => dev_of_mem_request hnone hcall hd ▸ hf
  · exact .of_ranCalls hr hc fun c hcall d hd => dev_of_mem_request hw.isWait.dev_eq_none hcall hd ▸ hf

theorem tDelay_onHeldDevices {n : Nat} {s t : State} (h : tDelay n s = some t) : OnHeldDevices s t := by
  obtain ⟨e, he, rfl⟩ := tDelay_some.mp h
  have hclock := Env.delay_time he
  exact .of_ranCalls (RanCalls.note s _ e) (show s.env.time ≤ e.time by omega) (by simp [Call.dev])

theorem tInit_onHeldDevices {s t : State} (h : tInit s = some t) : OnHeldDevices s t := by
  obtain ⟨e, he, rfl⟩ := tInit_some.mp h
  exact .of_ranCalls (RanCalls.note s _ e) (Env.init_time he) (by simp [Call.dev])

/-- WRITEREG is a frame to `reg_addr` and a delay (R172). -/
theorem writeReg_onHeldDevices {r : LogicalReg} {v : Byte} {s t : State} (h : writeReg r v s = some t)
    (hb : s.bound = true) : OnHeldDevices s t := by
  simp only [writeReg, Option.bind_eq_bind, Option.bind_eq_some_iff, Option.some.injEq] at h
  obtain ⟨x, hx, y, hy, rfl⟩ := h
  have hload : OnHeldDevices s { s with wReg := regAddress r, wVal := v } := .of_log_eq ⟨rfl, rfl, rfl, rfl⟩ rfl rfl
  have hframe := sendFrame_onHeldDevices hx ⟨hb, .inr rfl⟩
  have hok : OnHeldDevices y { y with wOk := statusOk y.st } := .of_log_eq ⟨rfl, rfl, rfl, rfl⟩ rfl rfl
  exact hload.trans (hframe.trans ((tDelay_onHeldDevices hy).trans hok))

theorem respond_onHeldDevices (ok : Bool) (c : Cause) (d : Option Byte) (s : State) :
    OnHeldDevices s (respond ok c d s) :=
  .of_log_eq (respond_samePersistent _ _ _ _) rfl rfl

theorem finishByStatus_onHeldDevices (s : State) : OnHeldDevices s (finishByStatus s) := by
  unfold finishByStatus
  split <;> exact respond_onHeldDevices _ _ _ _

/-- A read request whose result is the response, as in `readThenRespond_samePersistent`. -/
theorem readThenRespond_onHeldDevices {dev : DevAddr} {s t : State} (ok : State → Bool) (data : State → Option Byte)
    (h : ((readRequest dev s).bind fun r =>
      some (if r.1 then respond (ok r.2) .none (data r.2) r.2 else fail .rspTimeout r.2)) = some t)
    (hf : HeldAddress s dev) : OnHeldDevices s t := by
  simp only [Option.bind_eq_some_iff, Prod.exists, Option.some.injEq] at h
  obtain ⟨came, u, hu, rfl⟩ := h
  refine (readRequest_onHeldDevices hu hf).trans ?_
  split <;> exact respond_onHeldDevices _ _ _ _

/-! ### Commands -/

theorem probe_onHeldDevices {s t : State} (h : probe s = some t) (hb : s.bound = true) : OnHeldDevices s t :=
  readThenRespond_onHeldDevices (fun _ => true) (fun _ => none) h ⟨hb, .inr rfl⟩

theorem query_onHeldDevices {mask : Byte} {s t : State} (h : query mask s = some t) (hb : s.bound = true) :
    OnHeldDevices s t :=
  readThenRespond_onHeldDevices (fun u => testMask mask u.sbyte) (fun _ => none) h ⟨hb, .inr rfl⟩

theorem runChipCommand_onHeldDevices {c : ChipCommand} {s t : State} (h : runChipCommand c s = some t)
    (hb : s.bound = true) : OnHeldDevices s t := by
  simp only [runChipCommand, Option.bind_eq_bind, Option.bind_eq_some_iff] at h
  obtain ⟨u, hu, h⟩ := h
  refine (writeReg_onHeldDevices hu hb).trans ?_
  split at h
  · simp only [Option.bind_eq_some_iff, Option.some.injEq] at h
    obtain ⟨v, hv, rfl⟩ := h
    exact (tDelay_onHeldDevices hv).trans (respond_onHeldDevices _ _ _ _)
  · cases h
    exact respond_onHeldDevices _ _ _ _

theorem execRead_onHeldDevices {a : Addr} {s t : State} (h : execRead a s = .next t) : OnHeldDevices s t := by
  obtain ⟨hb, h⟩ := whenBound_next.mp h
  obtain ⟨u, hu, h⟩ := Option.bind_eq_some_iff.mp h
  have hframe : OnHeldDevices s u := sendFrame_onHeldDevices hu ⟨hb, .inl rfl⟩
  refine hframe.trans ?_
  split at h
  · exact readThenRespond_onHeldDevices (fun _ => true) (fun v => some v.sbyte) h ⟨hframe.bound hb, .inl rfl⟩
  · cases h
    exact respond_onHeldDevices _ _ _ _

theorem execWrite_onHeldDevices {a : Addr} {v : Byte} {s t : State} (h : execWrite a v s = .next t) :
    OnHeldDevices s t := by
  obtain ⟨hb, h⟩ := whenBound_next.mp h
  obtain ⟨u, hu, h⟩ := Option.bind_eq_some_iff.mp h
  cases h
  exact (sendFrame_onHeldDevices hu ⟨hb, .inl rfl⟩).trans (finishByStatus_onHeldDevices u)

theorem execGetStatus_onHeldDevices {s t : State} (h : execGetStatus s = .next t) : OnHeldDevices s t := by
  obtain ⟨hb, h⟩ := whenBound_next.mp h
  exact readThenRespond_onHeldDevices (fun _ => true) (fun u => some u.sbyte) h ⟨hb, .inr rfl⟩

theorem execSetAutostore_onHeldDevices {en : Bool} {s t : State} (h : execSetAutostore en s = .next t) :
    OnHeldDevices s t := by
  obtain ⟨hb, h⟩ := whenBound_next.mp h
  obtain ⟨⟨ok, u⟩, hu, h⟩ := Option.bind_eq_some_iff.mp h
  have hread : OnHeldDevices s u := readRequest_onHeldDevices hu ⟨hb, .inr rfl⟩
  refine hread.trans ?_
  cases ok with
  | true =>
    obtain ⟨v, hv, h⟩ := Option.bind_eq_some_iff.mp h
    cases h
    exact (writeReg_onHeldDevices hv (hread.bound hb)).trans (finishByStatus_onHeldDevices v)
  | false =>
    cases h
    exact respond_onHeldDevices _ _ _ _

/-- A command that is no bind is one stretch from where it starts. -/
theorem exec_onHeldDevices {i : Instr} {s t : State} (hi : i.isBind = false) (h : exec i s = .next t) :
    OnHeldDevices s t := by
  cases i with
  | bind _ _ _ | bindDefault => exact nomatch hi
  | read a => exact execRead_onHeldDevices h
  | write a v => exact execWrite_onHeldDevices h
  | getStatus => exact execGetStatus_onHeldDevices h
  | store | recallArray =>
    obtain ⟨hb, h⟩ := whenBound_next.mp h
    exact runChipCommand_onHeldDevices h hb
  | isEvent | isAutostore | isWrprot | isModified =>
    obtain ⟨hb, h⟩ := whenBound_next.mp h
    exact query_onHeldDevices h hb
  | setAutostore en => exact execSetAutostore_onHeldDevices h
  | reservedC | reservedD | reservedE | reservedF =>
    cases h
    exact respond_onHeldDevices _ _ _ _

/-- A bind is one stretch from the state its four register writes leave (R131, R132). -/
theorem execBind_onHeldDevices {b : BusId} {p1 p2 : Bool} {s t : State} (h : execBind b p1 p2 s = .next t) :
    OnHeldDevices (bindRegs b p1 p2 s) t :=
  probe_onHeldDevices (whenTransport_next.mp h).2 rfl

theorem execBindDefault_onHeldDevices {s t : State} (h : execBindDefault s = .next t) :
    OnHeldDevices (bindRegs cfg.defaultBus false false s) t := by
  obtain ⟨u, hu, hprobe⟩ := Option.bind_eq_some_iff.mp (whenTransport_next.mp h).2
  have hinit := tInit_onHeldDevices hu
  exact hinit.trans (probe_onHeldDevices hprobe (hinit.bound rfl))

/-- Every command is a stretch from where it starts, or from what the register writes of a bind leave: there the log and
the environment are as they were, and the addresses legal (R36). -/
theorem exec_stretch {i : Instr} {s t : State} (h : exec i s = .next t) :
    ∃ s', s'.log = s.log ∧ s'.env = s.env ∧ (AddressesLegal s → AddressesLegal s') ∧ OnHeldDevices s' t := by
  cases hi : i.isBind with
  | false => exact ⟨s, rfl, rfl, id, exec_onHeldDevices hi h⟩
  | true =>
    cases i with
    | bind b p1 p2 =>
      exact ⟨bindRegs b p1 p2 s, rfl, rfl, fun _ _ => devAddrs_legal p1 p2, execBind_onHeldDevices h⟩
    | bindDefault =>
      exact ⟨bindRegs cfg.defaultBus false false s, rfl, rfl, fun _ _ => devAddrs_legal false false,
        execBindDefault_onHeldDevices h⟩
    | _ => exact nomatch hi

/-! ### The bound on the polls -/

theorem pollsLeft_pos (s : State) : 0 < pollsLeft s := by
  unfold pollsLeft
  split <;> exact Nat.succ_pos _

/-- A bound of `n + 1` polls matters only after a poll that misses before the deadline, which leaves fewer to make. -/
theorem pollLoop_succ_congr {m n : Nat} {s : State}
    (h : ∀ v, pollsLeft v + 1 ≤ pollsLeft s → pollLoop n v = pollLoop m v) :
    pollLoop (n + 1) s = pollLoop (m + 1) s := by
  simp only [pollLoop]
  refine Option.bind_congr fun ⟨count, u⟩ hu => ?_
  split
  · rfl
  · next hmiss =>
    refine Option.bind_congr fun ⟨now, v⟩ hv => ?_
    split
    · rfl
    · next hdeadline => exact h v (pollsLeft_round hu hmiss hv hdeadline)

/-- Two bounds that both leave room for every poll the wait can make give the same wait (R62). -/
theorem pollLoop_eq_of_pollsLeft_le {m n : Nat} {s : State} (hm : pollsLeft s ≤ m) (hn : pollsLeft s ≤ n) :
    pollLoop n s = pollLoop m s := by
  induction n generalizing m s with
  | zero => exact absurd (pollsLeft_pos s) (Nat.not_lt.mpr hn)
  | succ n ih =>
    cases m with
    | zero => exact absurd (pollsLeft_pos s) (Nat.not_lt.mpr hm)
    | succ m => exact pollLoop_succ_congr fun v hv => ih (by omega) (by omega)

/-- A wait that starts now has the bound of log 22 left: 3001 polls in the reference environment, one more than the
answers in any other. -/
theorem pollsLeft_eq_pollBound {s : State} (h : s.t0 = s.env.time) : pollsLeft s = s.env.pollBound := by
  cases henv : s.env with
  | ref e => simp [pollsLeft, henv, h, Env.time, Env.pollBound, cfg]
  | scripted e => simp [pollsLeft, henv, Env.pollBound]

/-! ### The statements -/

/-- Settles O49: every device address called is one that is held, and a bind computes legal ones. -/
theorem onlyFourDeviceAddresses : Obligations.OnlyFourDeviceAddresses := by
  intro i s t hs h
  obtain ⟨s', hlog, -, hlegal, hrun⟩ := exec_stretch h
  obtain ⟨l, hissued, hdev⟩ := hrun.issued hlog
  exact ⟨l, hissued, fun c hc d hd => (hdev c hc d hd).cases (hlegal hs)⟩

/-- Settles O51: a wait that starts now can make exactly as many polls as its bound. -/
theorem pollBoundNeverCutsAWait : Obligations.PollBoundNeverCutsAWait := by
  intro s n h hn
  have hleft := pollsLeft_eq_pollBound h
  exact pollLoop_eq_of_pollsLeft_le hleft.le (hleft.trans_le hn)

/-- Settles O52: each stretch of a command keeps the clock from going back, and register writes take no time. -/
theorem timeNeverGoesBack : Obligations.TimeNeverGoesBack := by
  intro i s t h
  obtain ⟨s', -, henv, -, hrun⟩ := exec_stretch h
  exact henv ▸ hrun.clock

end Sys2Proof.Machine
end

section
/-! Commands against a reference environment that does not do what it is asked (spec/20_memory.md R75, R76): frames
that fail, a transport that stays mute or is late with its byte, and addresses the chip does not have (R51, R314). -/

namespace Sys2Proof.Machine

open Sys2Proof

/-! ### Frames and what the chip keeps -/

theorem sameArrays_of_ref {s t : State} {e f : RefEnv} (hs : s.env = .ref e) (ht : t.env = .ref f)
    (hsram : f.sram = e.sram) (hee : f.ee = e.ee) : SameArrays s t := by
  simp [SameArrays, State.arrayByte, State.copyByte, hs, ht, hsram, hee]

theorem chipStatus_of_ref {s : State} {e : RefEnv} (hs : s.env = .ref e) : s.chipStatus = some e.status := by
  simp [State.chipStatus, hs]

/-- A frame as a run of calls, from what `T.end` does with it. -/
theorem sendFrame_of_endFrame {f : Frame} {s : State} {e g : RefEnv} {st : Byte} (h : s.env = .ref e)
    (hend : ({ e with txdev := f.dev, txbuf := f.bytes } : RefEnv).endFrame = (st, .ref g)) :
    ∃ t, sendFrame f s = some t ∧ t.env = .ref g ∧ t.st = st ∧ RanCalls s t (frameCalls f.dev f.bytes f.stop st) := by
  have hsend := sendFrame_ref (f := f) h
  rw [hend] at hsend
  exact ⟨_, hsend, rfl, rfl, rfl, rfl⟩

/-! ### Commands from their parts -/

theorem statusOk_eq_false {k : Byte} (hk : k ≠ 0) : statusOk k = false := beq_false_of_ne hk

theorem finishByStatus_eq (s : State) : finishByStatus s = respond (statusOk s.st) (causeOf s.st) none s := by
  by_cases h : s.st = 0
  · simp [finishByStatus, statusOk, causeOf, h]
  · simp [finishByStatus, statusOk_eq_false h]

theorem finishByStatus_of_ne_zero {s : State} (h : s.st ≠ 0) : finishByStatus s = fail (causeOf s.st) s := by
  rw [finishByStatus_eq, statusOk_eq_false h, fail_eq]

/-- The response to a read request. -/
def answer (ok : Bool) (s : State) : State :=
  respond ok (if ok then .none else .rspTimeout) (if ok then some s.sbyte else none) s

theorem answer_eq (ok : Bool) (s : State) :
    answer ok s = if ok then succeedWith s.sbyte s else fail .rspTimeout s := by
  cases ok <;> rfl

section
variable {s u v : State} {ok : Bool} (hb : s.bound = true)
include hb

theorem execRead_of_failed_frame {a : Addr} (hu : sendFrame (addressFrame a s) s = some u) (hst : u.st ≠ 0) :
    exec (.read a) s = .next (fail (causeOf u.st) u) :=
  whenBound_next.mpr ⟨hb, by simp [hu, statusOk_eq_false hst]⟩

theorem execRead_of_readRequest {a : Addr} (hu : sendFrame (addressFrame a s) s = some u) (hst : u.st = 0)
    (hv : readRequest u.memAddr u = some (ok, v)) : exec (.read a) s = .next (answer ok v) :=
  whenBound_next.mpr ⟨hb, by simp [hu, hst, statusOk, hv, answer_eq]⟩

theorem execWrite_of_sendFrame {a : Addr} {b : Byte} (hu : sendFrame (arrayFrame a b s) s = some u) :
    exec (.write a b) s = .next (finishByStatus u) :=
  whenBound_next.mpr ⟨hb, by simp [hu]⟩

theorem execGetStatus_of_readRequest (hv : readRequest s.regAddr s = some (ok, v)) :
    exec .getStatus s = .next (answer ok v) :=
  whenBound_next.mpr ⟨hb, by simp [statusRead, hv, answer_eq]⟩

theorem execSetAutostore_of_writeReg {en : Bool} (hu : readRequest s.regAddr s = some (true, u))
    (hv : writeReg .status (autostoreByte en u.sbyte) u = some v) :
    exec (.setAutostore en) s = .next (finishByStatus v) :=
  whenBound_next.mpr ⟨hb, by simp [statusRead, hu, hv]⟩

end

/-! ### Frames that fail -/

/-- Every frame to `dev` ends with the status `k` and has no other effect. -/
def RefEnv.Rejects (e : RefEnv) (dev : DevAddr) (k : Byte) : Prop :=
  ∀ bytes, ({ e with txdev := dev, txbuf := bytes } : RefEnv).endFrame =
    (k, .ref { e with txdev := dev, txbuf := bytes })

/-- ENV0-ST(k) rejects every frame (R76). -/
theorem RefEnv.rejects_of_failing {e : RefEnv} {k : Byte} (hv : e.variant = .failing k) (dev : DevAddr) :
    e.Rejects dev k := by
  intro bytes
  simp only [RefEnv.endFrame, hv]

/-- ENV0 answers a frame that no device takes with an address NACK (R75). -/
theorem RefEnv.rejects_of_absent {e : RefEnv} {dev : DevAddr} (hv : e.variant = .plain) (ha : e.absent dev) :
    e.Rejects dev 2 := by
  intro bytes
  obtain ⟨hmem, hreg⟩ := ha
  simp only [RefEnv.endFrame, hv, RefEnv.deliver, if_neg hmem, if_neg hreg]

/-- After the calls `l`, the last frame of them failed with `k`, on a chip that kept its contents. -/
structure FrameFailed (k : Byte) (l : List Call) (s t : State) : Prop where
  st : t.st = k
  issued : Issued s t l
  binding : SamePersistent s t
  arrays : SameArrays s t
  chipStatus : t.chipStatus = s.chipStatus

theorem sendFrame_of_rejects {f : Frame} {s : State} {e : RefEnv} {k : Byte} (h : s.env = .ref e)
    (hr : e.Rejects f.dev k) :
    ∃ t, sendFrame f s = some t ∧ FrameFailed k (frameCalls f.dev f.bytes f.stop k) s t := by
  obtain ⟨t, ht, henv, hst, hran⟩ := sendFrame_of_endFrame h (hr f.bytes)
  exact ⟨t, ht, hst, hran.issued, hran.same.1, sameArrays_of_ref h henv rfl rfl,
    by rw [chipStatus_of_ref h, chipStatus_of_ref henv]⟩

/-- WRITEREG delays after a frame that failed too (R172). -/
theorem writeReg_of_rejects {r : LogicalReg} {v : Byte} {s : State} {e : RefEnv} {k : Byte} (h : s.env = .ref e)
    (hr : e.Rejects s.regAddr k) (hk : k ≠ 0) :
    ∃ t, writeReg r v s = some t ∧ t.wOk = false ∧
      FrameFailed k (frameCalls s.regAddr [regAddress r, v] true k ++ [.delay 1]) s t :=
  ⟨_, writeReg_ref h (hr _), statusOk_eq_false hk, rfl, issued_of_log rfl, ⟨rfl, rfl, rfl, rfl⟩,
    sameArrays_of_ref h rfl rfl rfl, by rw [chipStatus_of_ref h]; rfl⟩

section
variable {s : State} {e : RefEnv} {k : Byte} (hb : s.bound = true) (h : s.env = .ref e) (hk : k ≠ 0)
include hb h hk

/-- READ stops after its address frame (R150). -/
theorem execRead_of_rejects (hr : e.Rejects s.memAddr k) (a : Addr) :
    ∃ t, exec (.read a) s = .next (fail (causeOf k) t) ∧
      FrameFailed k (frameCalls s.memAddr [addrHigh a, addrLow a] false k) s t := by
  obtain ⟨t, ht, hfailed⟩ := sendFrame_of_rejects (f := addressFrame a s) h hr
  have hexec := execRead_of_failed_frame hb ht (hfailed.st ▸ hk)
  rw [hfailed.st] at hexec
  exact ⟨t, hexec, hfailed⟩

/-- WRITE answers the status of its frame (R153). -/
theorem execWrite_of_rejects (hr : e.Rejects s.memAddr k) (a : Addr) (v : Byte) :
    ∃ t, exec (.write a v) s = .next (fail (causeOf k) t) ∧
      FrameFailed k (frameCalls s.memAddr [addrHigh a, addrLow a, v] true k) s t := by
  obtain ⟨t, ht, hfailed⟩ := sendFrame_of_rejects (f := arrayFrame a v s) h hr
  have hexec := execWrite_of_sendFrame hb ht
  rw [finishByStatus_of_ne_zero (hfailed.st ▸ hk), hfailed.st] at hexec
  exact ⟨t, hexec, hfailed⟩

/-- STORE and RECALL wait for the settling delay and not for the completion delay (R174, R176). -/
theorem runChipCommand_of_rejects (hr : e.Rejects s.regAddr k) (c : ChipCommand) :
    ∃ t, whenBound s (runChipCommand c s) = .next (fail (causeOf k) t) ∧
      FrameFailed k (frameCalls s.regAddr [regAddress .command, commandByte c] true k ++ [.delay 1]) s t := by
  obtain ⟨t, ht, hok, hfailed⟩ := writeReg_of_rejects (r := .command) (v := commandByte c) h hr hk
  refine ⟨t, whenBound_next.mpr ⟨hb, ?_⟩, hfailed⟩
  simp [runChipCommand, ht, hok, hfailed.st]

end

/-- The four commands that send a frame first, with the device it goes to and the calls made when it fails with `k`. -/
def frameFirst (s : State) (a : Addr) (v k : Byte) : List (Instr × DevAddr × List Call) :=
  [(.read a, s.memAddr, frameCalls s.memAddr [a.extractLsb' 8 8, a.extractLsb' 0 8] false k),
    (.write a v, s.memAddr, frameCalls s.memAddr [a.extractLsb' 8 8, a.extractLsb' 0 8, v] true k),
    (.store, s.regAddr, frameCalls s.regAddr [0x55, 0x33] true k ++ [.delay 1]),
    (.recallArray, s.regAddr, frameCalls s.regAddr [0x55, 0xDD] true k ++ [.delay 1])]

/-- Each of them fails with the cause of the status when its frame is rejected. -/
theorem frameFirst_of_rejects {s : State} {e : RefEnv} {a : Addr} {v k : Byte} (hb : s.bound = true)
    (h : s.env = .ref e) (hk : k ≠ 0) :
    ∀ p ∈ frameFirst s a v k, e.Rejects p.2.1 k →
      ∃ t, exec p.1 s = .next (fail (causeOf k) t) ∧ FrameFailed k p.2.2 s t := by
  simp only [frameFirst, List.forall_mem_cons]
  refine ⟨fun hr => ?_, fun hr => ?_, fun hr => ?_, fun hr => ?_, by simp⟩
  · exact execRead_of_rejects hb h hk hr a
  · exact execWrite_of_rejects hb h hk hr a v
  · exact runChipCommand_of_rejects hb h hk hr .store
  · exact runChipCommand_of_rejects hb h hk hr .recallArray

/-! ### Waits -/

/-- A poll that finds a byte ends the wait. -/
theorem pollLoop_ready {s : State} {e : RefEnv} {n c : Nat} (h : s.env = .ref e) (ha : e.available = (c + 1, e)) :
    pollLoop (n + 1) s = some (true, s.note (.available (c + 1)) (.ref e)) := by
  simp [pollLoop, tAvailable, h, Env.available, ha]

/-- A read request whose byte the first poll finds. -/
theorem readRequest_ready {dev : DevAddr} {s : State} {e f : RefEnv} {b : Byte} {rest : List Byte}
    (h : s.env = .ref e) (hu : e.busyUnseen = false) (hr : RefEnv.request dev 1 e = f) (hq : f.rxq = b :: rest)
    (ha : f.available = (rest.length + 1, f)) :
    readRequest dev s =
      some (true, { s with
        env := .ref { f with rxq := rest }
        log := logOf s [.request dev 1, .now f.time, .available (rest.length + 1), .read b]
        t0 := f.time
        sbyte := b }) := by
  rw [readRequest_ref h hu hr, pollLoop_ready rfl ha]
  simp [tRead, State.note, Env.takeByte, RefEnv.takeByte, hq, logOf, onBus]

/-- A read request that times out after 3000 polls, as a run of calls. -/
theorem readRequest_absent_ranCalls {dev : DevAddr} {s : State} {e : RefEnv} (h : s.env = .ref e)
    (hv : e.variant = .plain ∧ e.absent dev ∨ e.variant = .mute) :
    ∃ t, readRequest dev s = some (false, t) ∧ t.env = .ref { e with rxq := [], time := e.time + 3000 } ∧
      RanCalls s t (.request dev 1 :: .now e.time ::
        missedPolls ((List.range 3000).map fun k => e.time + k + 1)) :=
  ⟨_, readRequest_absent h hv, rfl, rfl, rfl⟩

/-- A poll of ENV0-LATE(d) that misses (R76). -/
theorem RefEnv.available_of_late {e : RefEnv} {d : Nat} (hv : e.variant = .late d) (hl : 0 < e.late) :
    e.available = (0, { e with late := e.late - 1, time := e.time + 1 }) := by
  simp only [RefEnv.available, hv, if_pos hl]

/-- Polls of ENV0-LATE(d) that miss before the deadline, 1 ms each. -/
theorem pollLoop_late_misses {m n d : Nat} {s : State} {e : RefEnv} (h : s.env = .ref e) (hv : e.variant = .late d)
    (hm : m ≤ e.late) (ht : e.time + m < s.t0 + 3000) :
    pollLoop (n + m) s =
      pollLoop n { s with
        env := .ref { e with late := e.late - m, time := e.time + m }
        log := logOf s (missedPolls ((List.range m).map fun k => e.time + k + 1)) } := by
  induction m generalizing n with
  | zero => simp [logOf, onBus, missedPolls, ← h]
  | succ m ih =>
    have ha := RefEnv.available_of_late (e := { e with late := e.late - m, time := e.time + m }) hv
      (Nat.sub_pos_of_lt hm)
    rw [show n + (m + 1) = n + 1 + m by omega, ih (by omega) (by omega)]
    refine Eq.trans (pollLoop_miss rfl ha ht) ?_
    simp [logOf, onBus, missedPolls, List.range_succ, Nat.add_assoc, Nat.sub_sub]

/-- The last of them, at the deadline, ends the wait. -/
theorem pollLoop_late_timeout {m n d : Nat} {s : State} {e : RefEnv} (h : s.env = .ref e) (hv : e.variant = .late d)
    (hm : m < e.late) (ht : e.time + (m + 1) = s.t0 + 3000) :
    pollLoop (n + 1 + m) s =
      some (false, { s with
        env := .ref { e with late := e.late - (m + 1), time := e.time + (m + 1) }
        log := logOf s (missedPolls ((List.range (m + 1)).map fun k => e.time + k + 1)) }) := by
  have ha := RefEnv.available_of_late (e := { e with late := e.late - m, time := e.time + m }) hv
    (Nat.sub_pos_of_lt hm)
  rw [pollLoop_late_misses h hv hm.le (by omega)]
  refine Eq.trans (pollLoop_timeout rfl ha ht.ge) ?_
  simp [logOf, onBus, missedPolls, List.range_succ, Nat.add_assoc, Nat.sub_sub]

section
variable {dev : DevAddr} {s : State} {e : RefEnv} {d : Nat} (h : s.env = .ref e) (hv : e.variant = .late d)
  (hne : e.memDev ≠ e.regDev) (hdev : dev = e.regDev)
include h hv hne hdev

/-- The status read of ENV0-LATE(d) waits with its byte queued and `d` polls that will not see it. -/
theorem readRequest_late :
    readRequest dev s =
      (pollLoop 3001 { s with
        env := .ref { e with rxq := [e.status], late := d }
        log := logOf s [.request dev 1, .now e.time]
        t0 := e.time }).bind fun r =>
          if r.1 then (tRead r.2).bind fun x => some (true, x) else some (false, r.2) :=
  readRequest_ref h (by simp [RefEnv.busyUnseen, hv])
    (by simp [RefEnv.request, hv, RefEnv.queue, hdev, Ne.symm hne])

theorem readRequest_late_hit (hd : d < 3000) :
    readRequest dev s =
      some (true, { s with
        env := .ref { e with rxq := [], late := 0, time := e.time + d }
        log := logOf s (.request dev 1 :: .now e.time ::
          (missedPolls ((List.range d).map fun k => e.time + k + 1) ++ [.available 1, .read e.status]))
        t0 := e.time
        sbyte := e.status }) := by
  rw [readRequest_late h hv hne hdev, show 3001 = 3000 - d + 1 + d by omega,
    pollLoop_late_misses (e := { e with rxq := [e.status], late := d }) rfl hv le_rfl (Nat.add_lt_add_left hd e.time),
    pollLoop_ready rfl (by simp [RefEnv.available, hv, RefEnv.poll]; rfl)]
  simp [tRead, State.note, Env.takeByte, RefEnv.takeByte, logOf, onBus]

theorem readRequest_late_timeout (hd : 3000 ≤ d) :
    readRequest dev s =
      some (false, { s with
        env := .ref { e with rxq := [e.status], late := d - 3000, time := e.time + 3000 }
        log := logOf s (.request dev 1 :: .now e.time ::
          missedPolls ((List.range 3000).map fun k => e.time + k + 1))
        t0 := e.time }) := by
  rw [readRequest_late h hv hne hdev, show 3001 = 1 + 1 + 2999 from rfl,
    pollLoop_late_timeout (e := { e with rxq := [e.status], late := d }) rfl hv hd rfl]
  simp [logOf, onBus]

end

/-- In plain ENV0 a read request ends, at the first poll or at the deadline, and leaves the arrays as they were,
whatever device it is for. -/
theorem readRequest_plain {dev : DevAddr} {s : State} {e : RefEnv} (h : s.env = .ref e) (hv : e.variant = .plain) :
    ∃ ok t f, readRequest dev s = some (ok, t) ∧ t.env = .ref f ∧ f.sram = e.sram ∧ f.ee = e.ee := by
  have hu : e.busyUnseen = false := by simp [RefEnv.busyUnseen, hv]
  obtain ⟨hsram, hee, -⟩ := RefEnv.request_keeps e dev 1
  have hplain : (RefEnv.request dev 1 e).variant = .plain := by
    simp only [RefEnv.request, hv, RefEnv.queue, RefEnv.queueArray]
    split
    · rfl
    · split <;> rfl
  cases hq : (RefEnv.request dev 1 e).rxq with
  | nil =>
    have hpoll := readRequest_ref (dev := dev) h hu rfl
    rw [pollLoop_empty 2999 _ _ _ rfl (.inl hplain) hq rfl (by omega)] at hpoll
    exact ⟨_, _, _, hpoll, rfl, hsram, hee⟩
  | cons b rest =>
    have ha : (RefEnv.request dev 1 e).available = (rest.length + 1, RefEnv.request dev 1 e) := by
      simp [RefEnv.available, hplain, RefEnv.poll, hq]
    exact ⟨_, _, _, readRequest_ready h hu rfl hq ha, rfl, hsram, hee⟩

/-- The calls of a read request that ended. -/
theorem readRequest_ranCalls {dev : DevAddr} {s t : State} {ok : Bool} (h : readRequest dev s = some (ok, t)) :
    ∃ l, RanCalls s t l := by
  obtain ⟨-, -, ⟨-, w, -, hr⟩ | ⟨-, -, -, w, -, hr⟩⟩ := readRequest_some h
  · exact ⟨_, hr⟩
  · exact ⟨_, hr⟩

/-- An address frame in plain ENV0 sets the chip's address, whatever its status (log 12). -/
theorem RefEnv.endFrame_address_plain {e : RefEnv} {hi lo : Byte} (hv : e.variant = .plain) (hb : e.txbuf = [hi, lo])
    (hd : e.txdev = e.memDev) :
    e.endFrame = (RefEnv.addressStatus { e with ptr := hi ++ lo }, .ref { e with ptr := hi ++ lo }) := by
  simp only [RefEnv.endFrame, hv, RefEnv.deliver, if_pos hd, RefEnv.deliverArray, hb]

/-! ### Whole commands -/

/-- Bit 1 is set, or cleared by the mask of the other bits (R205). -/
theorem autostoreByte_eq (en : Bool) (b : Byte) : autostoreByte en b = if en then b ||| 0x02 else b &&& 0xFD := by
  cases en <;> rfl

/-- In ENV0-ST(k) SET_AUTOSTORE reads the status, and the frame that writes it back fails (R205, R264). -/
theorem execSetAutostore_failing {k : Byte} {s : State} {e : RefEnv} (hb : s.bound = true) (h : s.env = .ref e)
    (hv : e.variant = .failing k) (hk : k ≠ 0) (hdev : s.regAddr = e.regDev) (hne : e.memDev ≠ e.regDev) (en : Bool) :
    exec (.setAutostore en) s =
      .next (fail (causeOf k) { s with
        env := .ref { e with
          rxq := [], txdev := s.regAddr, txbuf := [0x00, autostoreByte en e.status], time := e.time + 1 }
        log := logOf s ([.request s.regAddr 1, .now e.time, .available 1, .read e.status] ++
          frameCalls s.regAddr [0x00, autostoreByte en e.status] true k ++ [.delay 1])
        t0 := e.time
        sbyte := e.status
        st := k
        wReg := 0x00
        wVal := autostoreByte en e.status
        wOk := false }) := by
  have hread := readRequest_ready (dev := s.regAddr) (f := { e with rxq := [e.status] }) h
    (by simp [RefEnv.busyUnseen, hv]) (by simp [RefEnv.request, hv, RefEnv.queue, hdev, Ne.symm hne]) rfl
    (by simp [RefEnv.available, hv, RefEnv.poll])
  have hrejects := RefEnv.rejects_of_failing (e := { e with rxq := [] }) hv s.regAddr
  rw [execSetAutostore_of_writeReg hb hread (writeReg_ref rfl (hrejects _)), finishByStatus_of_ne_zero hk]
  simp [statusOk_eq_false hk, logOf, onBus, regAddress, cfg]

/-- A WRITE in the reference environment completes, whatever the address. -/
theorem execWrite_ref_completes {a : Addr} {v : Byte} {s : State} {e : RefEnv} (hb : s.bound = true)
    (h : s.env = .ref e) :
    ∃ t, exec (.write a v) s = .next t ∧ (t.rspOk = true ↔ t.st = 0) ∧
      Issued s t (frameCalls s.memAddr [addrHigh a, addrLow a, v] true t.st) := by
  have hsend := sendFrame_ref (f := arrayFrame a v s) h
  obtain ⟨hr, -⟩ := sendFrame_some hsend
  refine ⟨_, execWrite_of_sendFrame hb hsend, ?_⟩
  rw [finishByStatus_eq]
  exact ⟨beq_iff_eq, hr.issued⟩

/-- A READ in plain ENV0 completes, whatever the address and whatever the status of its address frame. -/
theorem execRead_plain_completes {a : Addr} {s : State} {e : RefEnv} (hb : s.bound = true) (h : s.env = .ref e)
    (hv : e.variant = .plain) (hdev : s.memAddr = e.memDev) :
    ∃ t, exec (.read a) s = .next t ∧ t.phase = .done ∧ SameArrays s t ∧
      (t.st ≠ 0 → t.rspOk = false ∧ t.rspCause = causeOf t.st) ∧
      ∃ l, Issued s t (frameCalls s.memAddr [addrHigh a, addrLow a] false t.st ++ l) ∧ (t.st ≠ 0 → l = []) := by
  have hend := RefEnv.endFrame_address_plain (e := { e with txdev := s.memAddr, txbuf := [addrHigh a, addrLow a] })
    hv rfl hdev
  obtain ⟨u, hu, henv, hst, hframe⟩ := sendFrame_of_endFrame (f := addressFrame a s) h hend
  rw [← hst] at hframe
  by_cases hzero : u.st = 0
  · obtain ⟨ok, t, f, hread, hf, hsram, hee⟩ := readRequest_plain (dev := u.memAddr) henv hv
    obtain ⟨l, hwait⟩ := readRequest_ranCalls hread
    obtain ⟨-, hkeep, -⟩ := readRequest_some hread
    have hst0 : t.st = 0 := hkeep.trans hzero
    exact ⟨answer ok t, execRead_of_readRequest hb hu hzero hread, rfl, sameArrays_of_ref h hf hsram hee,
      fun hne => absurd hst0 hne, l, hkeep ▸ (hframe.trans hwait).issued, fun hne => absurd hst0 hne⟩
  · refine ⟨_, execRead_of_failed_frame hb hu hzero, rfl, sameArrays_of_ref h henv rfl rfl, fun _ => ⟨rfl, rfl⟩, [],
      ?_, fun _ => rfl⟩
    exact (List.append_nil _).symm ▸ hframe.issued

/-! ### The statements -/

/-- Settles O31: a poll takes 1 ms, so the poll after `d` misses is before the deadline exactly for `d` below 3000. -/
theorem lateByteBoundary : Obligations.LateByteBoundary := by
  intro s e d hb h hv hdev hne
  rcases Nat.lt_or_ge d 3000 with hd | hd
  · exact ⟨_, execGetStatus_of_readRequest hb (readRequest_late_hit h hv hne hdev hd), fun _ => ⟨rfl, rfl, rfl⟩,
      fun hd' => absurd hd (Nat.not_lt.mpr hd')⟩
  · exact ⟨_, execGetStatus_of_readRequest hb (readRequest_late_timeout h hv hne hdev hd),
      fun hd' => absurd hd' (Nat.not_lt.mpr hd), fun _ => ⟨rfl, rfl, rfl⟩⟩

/-- Settles O24: the address frame succeeds below the capacity, and the wait after it times out. -/
theorem readFromMuteTransportTimesOut : Obligations.ReadFromMuteTransportTimesOut := by
  intro a s e hb h hv hc hdev
  have hend := RefEnv.endFrame_address (e := { e with txdev := s.memAddr, txbuf := [addrHigh a, addrLow a] })
    (.inr hv) (by rwa [addrHigh_append_addrLow]) rfl hdev
  obtain ⟨u, hu, henv, hst, hframe⟩ := sendFrame_of_endFrame (f := addressFrame a s) h hend
  obtain ⟨⟨-, hmem, -⟩, -⟩ := hframe.same
  obtain ⟨t, ht, htenv, hwait⟩ := readRequest_absent_ranCalls (dev := u.memAddr) henv (.inr hv)
  have hrun := hframe.trans hwait
  rw [hmem] at hrun
  exact ⟨answer false t, execRead_of_readRequest hb hu hst ht, rfl, rfl, congrArg Env.time htenv, hrun.same.1,
    sameArrays_of_ref h htenv rfl rfl, hrun.issued⟩

/-- Settles O45: ENV0 rejects a frame for an absent device with status 2. -/
theorem absentChipNacksFrames : Obligations.AbsentChipNacksFrames := by
  intro a v s e hb h henv0 p hp habsent
  obtain ⟨hv, -, -⟩ := henv0
  obtain ⟨t, ht, hfailed⟩ :=
    frameFirst_of_rejects (a := a) (v := v) (k := 2) hb h (by decide) p hp (RefEnv.rejects_of_absent hv habsent)
  exact ⟨_, ht, rfl, rfl, hfailed.st, hfailed.issued, hfailed.binding, hfailed.arrays,
    hfailed.chipStatus.trans (chipStatus_of_ref h)⟩

/-- Settles O44: ENV0-ST(k) rejects every frame, and its status reads are those of ENV0. -/
theorem failingTransportFailsEveryFrame : Obligations.FailingTransportFailsEveryFrame := by
  intro k a v s e hb h hv hk
  refine ⟨fun p hp => ?_, fun en hdev hne => ?_⟩
  · have hmem : p ∈ (frameFirst s a v k).map fun q => (q.1, q.2.2) := hp
    obtain ⟨q, hq, rfl⟩ := List.mem_map.mp hmem
    obtain ⟨t, ht, hfailed⟩ := frameFirst_of_rejects hb h hk q hq (RefEnv.rejects_of_failing hv _)
    exact ⟨_, ht, rfl, rfl, hfailed.issued, hfailed.binding, hfailed.arrays,
      hfailed.chipStatus.trans (chipStatus_of_ref h)⟩
  · exact ⟨_, execSetAutostore_failing hb h hv hk hdev hne en, rfl, rfl, autostoreByte_eq en e.status,
      issued_of_log rfl, ⟨rfl, rfl, rfl, rfl⟩, ⟨rfl, rfl, rfl, rfl, rfl, rfl, rfl, rfl, rfl⟩,
      sameArrays_of_ref h rfl rfl rfl, rfl, rfl⟩

/-- Settles O60: both commands complete at any address, so at those beyond the capacity too. -/
theorem beyondCapacityCompletes : Obligations.BeyondCapacityCompletes :=
  fun _ _ _ _ hb h hv hdev _ => ⟨execWrite_ref_completes hb h, execRead_plain_completes hb h hv hdev⟩

end Sys2Proof.Machine
end

section
/-! The decoder against the encoder (spec/30_encoding.md R91 to R94, R108, R111). A word assembled from fields has those
fields, and the latched fields decide the command through the opcode alone and the operands that opcode uses. -/

namespace Sys2Proof

/-! ### The fields of an assembled word -/

/-- The decoder finds every field where the encoder put it (R91); `c_addr` and `c_bus` are the same bits. -/
theorem fields_assemble (op : Opcode) (pin2 pin1 : Bool) (mid : BitVec 16) (low : Byte) :
    fields (assemble op pin2 pin1 mid low) =
      { op := op, pin2 := pin2, pin1 := pin1, addr := mid, bus := mid, data := low, en := low.getLsbD 0 } := by
  have hop : (assemble op pin2 pin1 mid low).extractLsb' 28 4 = op := Laws.assemble_opcode _ _ _ _ _
  have hmid : (assemble op pin2 pin1 mid low).extractLsb' 8 16 = mid := by
    rw [assemble, BitVec.extractLsb'_append_eq_of_le (by decide), BitVec.extractLsb'_append_eq_right]
  have hlow : (assemble op pin2 pin1 mid low).extractLsb' 0 8 = low := BitVec.extractLsb'_append_eq_right
  have hpin2 : (assemble op pin2 pin1 mid low).getLsbD 25 = pin2 := by
    simp only [assemble, BitVec.getLsbD_append, BitVec.getLsbD_ofBool]
    simp
  have hpin1 : (assemble op pin2 pin1 mid low).getLsbD 24 = pin1 := by
    simp only [assemble, BitVec.getLsbD_append, BitVec.getLsbD_ofBool]
    simp
  have hen : (assemble op pin2 pin1 mid low).getLsbD 0 = low.getLsbD 0 := by
    rw [assemble, BitVec.getLsbD_append, if_pos (by decide)]
  simp only [fields, hop, hmid, hlow, hpin2, hpin1, hen]

/-! ### The command of latched fields -/

/-- Each of the sixteen opcodes selects the command that carries it (R92, R94). -/
theorem opcode_ofFields (f : Fields) : (ofFields f).opcode = f.op := by
  obtain ⟨⟨⟨n, hn⟩⟩, _⟩ := f
  interval_cases n <;> rfl

/-- Fields of one opcode that agree where that opcode reads them stand for one command (R93). -/
theorem ofFields_congr {f g : Fields} (hop : f.op = g.op)
    (hbind : f.op = 0x0#4 → f.bus = g.bus ∧ f.pin1 = g.pin1 ∧ f.pin2 = g.pin2)
    (hread : f.op = 0x2#4 → f.addr = g.addr)
    (hwrite : f.op = 0x3#4 → f.addr = g.addr ∧ f.data = g.data)
    (hset : f.op = 0xB#4 → f.en = g.en) : ofFields f = ofFields g := by
  have hnum {k : Nat} (h : f.op.toNat = k) : f.op = BitVec.ofNat 4 k := by
    rw [← h, BitVec.ofNat_toNat, BitVec.setWidth_eq]
  unfold ofFields
  rw [← hop]
  -- The opcodes with operands are 0x0, 0x2, 0x3 and 0xB.
  split
  case h_1 h =>
    obtain ⟨hbus, hpin1, hpin2⟩ := hbind (hnum h)
    rw [hbus, hpin1, hpin2]
  case h_3 h => rw [hread (hnum h)]
  case h_4 h =>
    obtain ⟨haddr, hdata⟩ := hwrite (hnum h)
    rw [haddr, hdata]
  case h_12 h => rw [hset (hnum h)]
  all_goals rfl

theorem decode_assemble (op : Opcode) (pin2 pin1 : Bool) (mid : BitVec 16) (low : Byte) :
    decode (assemble op pin2 pin1 mid low) =
      ofFields
        { op := op, pin2 := pin2, pin1 := pin1, addr := mid, bus := mid, data := low, en := low.getLsbD 0 } :=
  congrArg ofFields (fields_assemble op pin2 pin1 mid low)

/-! ### Kinds of commands by opcode -/

theorem wellFormed_iff (i : Instr) : wellFormed i = true ↔ i.opcode ≤ 0xB#4 := decide_eq_true_iff

theorem isReserved_iff (i : Instr) : i.isReserved = true ↔ 0xC#4 ≤ i.opcode := by
  cases i with
  | reservedC | reservedD | reservedE | reservedF => exact ⟨fun _ => by decide, fun _ => rfl⟩
  | _ => exact ⟨Bool.noConfusion, fun h => absurd h (by simp [Instr.opcode])⟩

/-! ### The statements -/

/-- Settles O1: each canonical word is assembled from the command's opcode and operands. -/
theorem decodeEncodeRoundTrip : Obligations.DecodeEncodeRoundTrip := by
  intro i
  cases i with
  | setAutostore en =>
    refine (decode_assemble _ _ _ _ _).trans ?_
    cases en <;> rfl
  | _ => exact decode_assemble _ _ _ _ _

/-- Settles O2: the opcode field is kept, and it tells the defined commands from the reserved ones. -/
theorem decodeFollowsOpcodeField : Obligations.DecodeFollowsOpcodeField := by
  intro w
  have hop : (decode w).opcode = w.extractLsb' 28 4 := opcode_ofFields (fields w)
  exact ⟨hop, hop ▸ wellFormed_iff _, hop ▸ isReserved_iff _⟩

/-- Settles O3: the fields of the two words agree wherever their opcode reads them. -/
theorem unusedFieldsAreIgnored : Obligations.UnusedFieldsAreIgnored :=
  fun _ _ hop hbind hread hwrite hset => ofFields_congr hop hbind hread hwrite hset

/-- Settles O4: the worked words of R111 and of V9, by evaluation of the decoder. -/
theorem specWordsDecode : Obligations.SpecWordsDecode := by
  unfold Obligations.SpecWordsDecode
  decide

end Sys2Proof
end

section
/-! What becomes of a command the block is given: acceptance in IDLE, the answer to a reserved opcode, and the two
grounds of a refusal (spec/30_encoding.md R91, R94, R110; spec/44_sequencer.md R221, R222; spec/60_exceptions.md
R272). -/

namespace Sys2Proof.Machine

open Sys2Proof

/-! ### Acceptance -/

/-- A sample that presents a command in IDLE has it accepted (R221). -/
theorem onSample_accept (acc : CmdWord → State → Host.Outcome State Fault Refusal) {h : HostIn} {s : State}
    (hp : s.phase = .idle) (hr : h.reset = false) (hv : h.cmdValid = true) :
    onSample acc h s = acc h.cmdWord s := by
  simp [onSample, hp, hr, hv]

/-! ### Reserved opcodes -/

/-- A reserved opcode does nothing but fail with the cause of an illegal command (R94). -/
theorem exec_of_isReserved {i : Instr} (hi : i.isReserved = true) (s : State) :
    exec i s = .next (fail .illegalCmd s) := by
  cases i with
  | reservedC | reservedD | reservedE | reservedF => rfl
  | _ => exact nomatch hi

/-! ### Refusals -/

theorem ranToEnd_ne_refused (r : Option State) (q : Refusal) : ranToEnd r ≠ .refused q := by
  cases r <;> exact nofun

theorem whenBound_refused {s : State} {r : Option State} {q : Refusal} :
    whenBound s r = .refused q ↔ s.bound = false ∧ q = .unbound := by
  cases hb : s.bound with
  | true => simp [whenBound, hb, ranToEnd_ne_refused]
  | false => simp [whenBound, hb, eq_comm]

theorem whenTransport_refused {b : BusId} {s : State} {r : Option State} {q : Refusal} :
    whenTransport b s r = .refused q ↔ b ∈ s.deadBuses ∧ q = .noTransport := by
  by_cases hb : b ∈ s.deadBuses
  · simp [whenTransport, hb, eq_comm]
  · simp [whenTransport, hb, ranToEnd_ne_refused]

theorem exec_not_refused_of_isReserved {i : Instr} (hi : i.isReserved = true) (s : State) (q : Refusal) :
    exec i s ≠ .refused q := by
  rw [exec_of_isReserved hi]
  exact nofun

/-! ### The statements -/

/-- Settles O17: the binds ask for a transport, the reserved opcodes for nothing, and all others for a bind. -/
theorem refusedExactlyWhen : Obligations.RefusedExactlyWhen := by
  intro i s r
  cases i with
  | bind b p1 p2 => exact whenTransport_refused.trans (by simp [Instr.isBind])
  | bindDefault => exact whenTransport_refused.trans (by simp [Instr.isBind, cfg])
  | reservedC | reservedD | reservedE | reservedF =>
    exact iff_of_false (exec_not_refused_of_isReserved rfl s r) (by simp [Instr.isReserved])
  | _ => exact whenBound_refused.trans (by simp [Instr.isBind, Instr.isReserved])

/-- Settles O9: the sample is used up and the fields of the word are latched before the command runs. -/
theorem stepRunsAcceptedCommand : Obligations.StepRunsAcceptedCommand := by
  intro s h rest hp hs hr hv
  have hlatch : latch h.cmdWord (consumeSample s) = latch h.cmdWord { s with host := rest } := by
    rw [consumeSample, hs, List.tail_cons]
  calc step s
      = onSample acceptWhole h (consumeSample s) := by rw [step, nextSample_of_host hs]
    _ = exec (decode h.cmdWord) (latch h.cmdWord (consumeSample s)) := onSample_accept _ hp hr hv
    _ = exec (decode h.cmdWord) (latch h.cmdWord { s with host := rest }) := by rw [hlatch]

/-- Settles O46: the response of `fail` writes the three response registers and enters DONE, and nothing else. -/
theorem reservedCommandsComplete : Obligations.ReservedCommandsComplete := by
  intro i hi s
  have hreserved : i.isReserved = true := by
    simp only [List.mem_cons, List.not_mem_nil, or_false] at hi
    rcases hi with rfl | rfl | rfl | rfl <;> rfl
  exact ⟨_, exec_of_isReserved hreserved s, rfl, rfl, rfl⟩

end Sys2Proof.Machine
end

section
/-! The device mapper against what commands issue (spec/30_encoding.md R102): the frames and the read requests of a
command go to the two device addresses the mapper gives it. One relation says it of a stretch of a command. -/

namespace Sys2Proof.Machine

open Sys2Proof

/-! ### A stretch of a command -/

/-- A call that opens a frame goes to the first device of `m`, one that requests bytes to the second, for one byte. -/
def GoesTo (m : Option DevAddr × Option DevAddr) (c : Call) : Prop :=
  (∀ d, c = .begin d → m.1 = some d) ∧ ∀ d n, c = .request d n → m.2 = some d ∧ n = 1

/-- From `s` to `t` the binding stayed as it was, and the calls issued go to the devices of `m`. -/
structure OnMapped (m : Option DevAddr × Option DevAddr) (s t : State) : Prop where
  binding : SamePersistent s t
  calls : ∃ l, t.log = (onBus s.bus l).reverse ++ s.log ∧ ∀ c ∈ l, GoesTo m c

section
variable {m : Option DevAddr × Option DevAddr}

theorem goesTo_begin {d : DevAddr} : GoesTo m (.begin d) ↔ m.1 = some d := by simp [GoesTo]

theorem goesTo_request {d : DevAddr} : GoesTo m (.request d 1) ↔ m.2 = some d := by simp [GoesTo, eq_comm]

/-- The other calls carry no device. -/
theorem goesTo_of_dev_eq_none {c : Call} (h : c.dev = none) : GoesTo m c := by
  constructor
  · rintro d rfl
    cases h
  · rintro d n rfl
    cases h

theorem OnMapped.of_ranCalls {s t : State} {l : List Call} (h : RanCalls s t l) (hl : ∀ c ∈ l, GoesTo m c) :
    OnMapped m s t :=
  ⟨h.same.1, l, h.2, hl⟩

/-- No call at all: register writes outside the binding. -/
theorem OnMapped.of_log_eq {s t : State} (hp : SamePersistent s t) (hl : t.log = s.log) : OnMapped m s t :=
  ⟨hp, [], by simpa [onBus] using hl, by simp⟩

theorem OnMapped.trans {s t u : State} (h : OnMapped m s t) (k : OnMapped m t u) : OnMapped m s u := by
  obtain ⟨hp, l, hl, hgo⟩ := h
  obtain ⟨kp, l', hl', hgo'⟩ := k
  refine ⟨hp.trans kp, l ++ l', ?_, List.forall_mem_append.mpr ⟨hgo, hgo'⟩⟩
  rw [hl', hl, hp.1]
  simp [onBus]

/-! ### Operations -/

theorem respond_onMapped (ok : Bool) (c : Cause) (d : Option Byte) (s : State) : OnMapped m s (respond ok c d s) :=
  .of_log_eq (respond_samePersistent _ _ _ _) rfl

theorem finishByStatus_onMapped (s : State) : OnMapped m s (finishByStatus s) := by
  rw [finishByStatus_eq]
  exact respond_onMapped _ _ _ _

theorem tInit_onMapped {s t : State} (h : tInit s = some t) : OnMapped m s t := by
  obtain ⟨e, -, rfl⟩ := tInit_some.mp h
  exact .of_ranCalls (RanCalls.note s _ e) (List.forall_mem_singleton.mpr (goesTo_of_dev_eq_none rfl))

theorem tDelay_onMapped {n : Nat} {s t : State} (h : tDelay n s = some t) : OnMapped m s t := by
  obtain ⟨e, -, rfl⟩ := tDelay_some.mp h
  exact .of_ranCalls (RanCalls.note s _ e) (List.forall_mem_singleton.mpr (goesTo_of_dev_eq_none rfl))

/-- Of a frame only its `T.begin` carries a device (R96). -/
theorem sendFrame_onMapped {f : Frame} {s t : State} (h : sendFrame f s = some t) (hm : m.1 = some f.dev) :
    OnMapped m s t := by
  refine .of_ranCalls (sendFrame_some h).1 ?_
  have hbytes : ∀ c ∈ f.bytes.map Call.write, GoesTo m c := by
    intro c hc
    obtain ⟨b, -, rfl⟩ := List.mem_map.mp hc
    exact goesTo_of_dev_eq_none rfl
  exact List.forall_mem_cons.mpr ⟨goesTo_begin.mpr hm, List.forall_mem_append.mpr
    ⟨hbytes, List.forall_mem_singleton.mpr (goesTo_of_dev_eq_none rfl)⟩⟩

/-- Of a read request only its `T.request` carries a device (R99). -/
theorem readRequest_onMapped {dev : DevAddr} {s t : State} {ok : Bool} (h : readRequest dev s = some (ok, t))
    (hm : m.2 = some dev) : OnMapped m s t := by
  have hwait {w : List Call} (hw : IsWait w) : ∀ c ∈ w, GoesTo m c :=
    fun c hc => goesTo_of_dev_eq_none (hw.dev_eq_none c hc)
  obtain ⟨-, -, ⟨-, w, hw, hr⟩ | ⟨-, -, -, w, hw, hr⟩⟩ := readRequest_some h
  · exact .of_ranCalls hr (List.forall_mem_cons.mpr ⟨goesTo_request.mpr hm, List.forall_mem_append.mpr
      ⟨hwait hw.isWait, List.forall_mem_singleton.mpr (goesTo_of_dev_eq_none rfl)⟩⟩)
  · exact .of_ranCalls hr (List.forall_mem_cons.mpr ⟨goesTo_request.mpr hm, hwait hw.isWait⟩)

/-- WRITEREG is a frame to `reg_addr` and a delay (R172). -/
theorem writeReg_onMapped {r : LogicalReg} {v : Byte} {s t : State} (h : writeReg r v s = some t)
    (hm : m.1 = some s.regAddr) : OnMapped m s t := by
  simp only [writeReg, Option.bind_eq_bind, Option.bind_eq_some_iff, Option.some.injEq] at h
  obtain ⟨x, hx, y, hy, rfl⟩ := h
  have hload : OnMapped m s { s with wReg := regAddress r, wVal := v } := .of_log_eq ⟨rfl, rfl, rfl, rfl⟩ rfl
  have hok : OnMapped m y { y with wOk := statusOk y.st } := .of_log_eq ⟨rfl, rfl, rfl, rfl⟩ rfl
  exact hload.trans ((sendFrame_onMapped hx hm).trans ((tDelay_onMapped hy).trans hok))

/-- A read request whose result is the response, as in `readThenRespond_samePersistent`. -/
theorem readThenRespond_onMapped {dev : DevAddr} {s t : State} (ok : State → Bool) (data : State → Option Byte)
    (h : ((readRequest dev s).bind fun r =>
      some (if r.1 then respond (ok r.2) .none (data r.2) r.2 else fail .rspTimeout r.2)) = some t)
    (hm : m.2 = some dev) : OnMapped m s t := by
  simp only [Option.bind_eq_some_iff, Prod.exists, Option.some.injEq] at h
  obtain ⟨came, u, hu, rfl⟩ := h
  refine (readRequest_onMapped hu hm).trans ?_
  split <;> exact respond_onMapped _ _ _ _

theorem probe_onMapped {s t : State} (h : probe s = some t) (hm : m.2 = some s.regAddr) : OnMapped m s t :=
  readThenRespond_onMapped (fun _ => true) (fun _ => none) h hm

theorem query_onMapped {mask : Byte} {s t : State} (h : query mask s = some t) (hm : m.2 = some s.regAddr) :
    OnMapped m s t :=
  readThenRespond_onMapped (fun u => testMask mask u.sbyte) (fun _ => none) h hm

/-- STORE and RECALL (R174, R176). -/
theorem runChipCommand_onMapped {c : ChipCommand} {s t : State} (h : runChipCommand c s = some t)
    (hm : m.1 = some s.regAddr) : OnMapped m s t := by
  obtain ⟨u, hu, h⟩ := Option.bind_eq_some_iff.mp h
  refine (writeReg_onMapped hu hm).trans ?_
  split at h
  · obtain ⟨v, hv, h⟩ := Option.bind_eq_some_iff.mp h
    cases h
    exact (tDelay_onMapped hv).trans (respond_onMapped _ _ _ _)
  · cases h
    exact respond_onMapped _ _ _ _

end

/-! ### Commands -/

/-- The mapper depends on the binding only (R102). -/
theorem deviceMap_of_samePersistent {s t : State} (h : SamePersistent s t) (i : Instr) :
    deviceMap i t = deviceMap i s := by
  obtain ⟨-, hmem, hreg, -⟩ := h
  cases i <;> simp only [deviceMap, hmem, hreg]

theorem execRead_onMapped {a : Addr} {s t : State} (h : execRead a s = .next t) :
    OnMapped (deviceMap (.read a) s) s t := by
  obtain ⟨-, h⟩ := whenBound_next.mp h
  obtain ⟨u, hu, h⟩ := Option.bind_eq_some_iff.mp h
  have hframe : OnMapped (deviceMap (.read a) s) s u := sendFrame_onMapped hu rfl
  obtain ⟨-, hmem, -⟩ := hframe.binding
  refine hframe.trans ?_
  split at h
  · exact readThenRespond_onMapped (fun _ => true) (fun v => some v.sbyte) h (congrArg some hmem.symm)
  · cases h
    exact respond_onMapped _ _ _ _

theorem execWrite_onMapped {a : Addr} {v : Byte} {s t : State} (h : execWrite a v s = .next t) :
    OnMapped (deviceMap (.write a v) s) s t := by
  obtain ⟨-, h⟩ := whenBound_next.mp h
  obtain ⟨u, hu, h⟩ := Option.bind_eq_some_iff.mp h
  cases h
  exact (sendFrame_onMapped hu rfl).trans (finishByStatus_onMapped u)

theorem execSetAutostore_onMapped {en : Bool} {s t : State} (h : execSetAutostore en s = .next t) :
    OnMapped (deviceMap (.setAutostore en) s) s t := by
  obtain ⟨-, h⟩ := whenBound_next.mp h
  obtain ⟨⟨ok, u⟩, hu, h⟩ := Option.bind_eq_some_iff.mp h
  have hread : OnMapped (deviceMap (.setAutostore en) s) s u := readRequest_onMapped hu rfl
  obtain ⟨-, -, hreg, -⟩ := hread.binding
  refine hread.trans ?_
  cases ok with
  | true =>
    obtain ⟨v, hv, h⟩ := Option.bind_eq_some_iff.mp h
    cases h
    exact (writeReg_onMapped hv (congrArg some hreg.symm)).trans (finishByStatus_onMapped v)
  | false =>
    cases h
    exact respond_onMapped _ _ _ _

/-- Every command goes to the devices of the mapper from where it starts, or from what the register writes of a bind
leave, where the log is as it was. -/
theorem exec_onMapped {i : Instr} {s t : State} (h : exec i s = .next t) :
    ∃ s', s'.log = s.log ∧ OnMapped (deviceMap i s') s' t := by
  cases i with
  | bind b p1 p2 => exact ⟨bindRegs b p1 p2 s, rfl, probe_onMapped (whenTransport_next.mp h).2 rfl⟩
  | bindDefault =>
    obtain ⟨u, hu, hprobe⟩ := Option.bind_eq_some_iff.mp (whenTransport_next.mp h).2
    obtain ⟨-, -, hreg, -⟩ := (tInit_callsOnly hu).samePersistent
    exact ⟨bindRegs cfg.defaultBus false false s, rfl,
      (tInit_onMapped hu).trans (probe_onMapped hprobe (congrArg some hreg.symm))⟩
  | read a => exact ⟨s, rfl, execRead_onMapped h⟩
  | write a v => exact ⟨s, rfl, execWrite_onMapped h⟩
  | getStatus =>
    exact ⟨s, rfl,
      readThenRespond_onMapped (fun _ => true) (fun u => some u.sbyte) (whenBound_next.mp h).2 rfl⟩
  | store | recallArray => exact ⟨s, rfl, runChipCommand_onMapped (whenBound_next.mp h).2 rfl⟩
  | isEvent | isAutostore | isWrprot | isModified => exact ⟨s, rfl, query_onMapped (whenBound_next.mp h).2 rfl⟩
  | setAutostore en => exact ⟨s, rfl, execSetAutostore_onMapped h⟩
  | reservedC | reservedD | reservedE | reservedF =>
    cases h
    exact ⟨s, rfl, respond_onMapped _ _ _ _⟩

/-! ### The statement -/

/-- Settles O48: the command ends with the binding under which it issued its calls, so the mapper gives the same
devices there. -/
theorem commandsUseMappedDevices : Obligations.CommandsUseMappedDevices := by
  intro i s t h
  obtain ⟨s', hlog, hp, l, hl, hgo⟩ := exec_onMapped h
  have hissued : Issued s t l := issued_of_log (by rw [hl, hp.1, hlog])
  rw [← deviceMap_of_samePersistent hp i] at hgo
  exact ⟨l, hissued, hgo⟩

end Sys2Proof.Machine
end

section
/-! The two binds (spec/40_bind.md): the device addresses they compute, their probe, and how they end in any environment
and in ENV0 (spec/20_memory.md R75). Both are register writes, the initialization for BIND_DEFAULT, and the probe, so
what they do is said once for both. -/

namespace Sys2Proof.Machine

open Sys2Proof

/-! ### The device addresses -/

theorem pinBit_eq (pin : Bool) : pinBit pin = (BitVec.ofBool pin).setWidth 7 := by
  cases pin <;> rfl

/-- The table of R130: `pin1` selects the memory address and `pin2` the register address. -/
theorem devAddrs_eq (p1 p2 : Bool) :
    devAddrs p1 p2 = (if p1 then 0x52 else 0x50, if p2 then 0x1C else 0x18) := by
  cases p1 <;> cases p2 <;> rfl

/-- The registers of the binding where nothing after a bind's register writes touched them (R131, R134). -/
theorem registers_of_bindRegs {b : BusId} {p1 p2 : Bool} {s t : State} (h : SamePersistent (bindRegs b p1 p2 s) t) :
    t.bus = b ∧ t.memAddr = (if p1 then 0x52 else 0x50) ∧ t.regAddr = (if p2 then 0x1C else 0x18) ∧
      t.bound = true := by
  obtain ⟨hbus, haddrs, hbound⟩ := binding_of_bindRegs h
  rw [devAddrs_eq] at haddrs
  obtain ⟨hmem, hreg⟩ := Prod.ext_iff.mp haddrs
  exact ⟨hbus, hmem, hreg, hbound⟩

/-! ### The probe -/

/-- The response to a probe (R133). -/
def probed (ok : Bool) (s : State) : State := respond ok (if ok then .none else .rspTimeout) none s

theorem probe_eq (s : State) : probe s = (readRequest s.regAddr s).map fun r => probed r.1 r.2 := by
  have hend : ∀ r : Bool × State, (if r.1 then succeed true r.2 else fail .rspTimeout r.2) = probed r.1 r.2 := by
    rintro ⟨_ | _, u⟩ <;> rfl
  rw [Option.map_eq_bind, ← funext hend]
  rfl

theorem probe_some {s t : State} :
    probe s = some t ↔ ∃ ok u, readRequest s.regAddr s = some (ok, u) ∧ t = probed ok u := by
  simp only [probe_eq, Option.map_eq_some_iff, Prod.exists, eq_comm (a := t)]

/-- What a bind issued up to its response, counted from before its register writes. -/
theorem probed_issued {b : BusId} {p1 p2 ok : Bool} {s t : State} {l : List Call}
    (h : RanCalls (bindRegs b p1 p2 s) t l) : Issued s (probed ok t) l :=
  issued_of_ranCalls (s' := bindRegs b p1 p2 s) rfl h rfl rfl

/-- The status read that ENV0 answers, as a run of calls. -/
theorem readRequest_register_ranCalls {dev : DevAddr} {s : State} {e : RefEnv} (h : s.env = .ref e)
    (hv : e.variant = .plain) (hne : e.memDev ≠ e.regDev) (hd : dev = e.regDev) :
    ∃ t, readRequest dev s = some (true, t) ∧ t.env = .ref { e with rxq := [] } ∧ t.st = s.st ∧ t.sbyte = e.status ∧
      t.t0 = e.time ∧ RanCalls s t [.request dev 1, .now e.time, .available 1, .read e.status] :=
  ⟨_, readRequest_register h hv hne hd, rfl, rfl, rfl, rfl, rfl, rfl⟩

/-! ### Both binds -/

/-- `i` is a bind of handle `b` and pins `p1`, `p2` that issues the calls `first` before its probe (R131, R132). -/
def BindForm (i : Instr) (b : BusId) (p1 p2 : Bool) (first : List Call) : Prop :=
  i = .bind b p1 p2 ∧ first = [] ∨ i = .bindDefault ∧ first = [.init] ∧ b = 0 ∧ p1 = false ∧ p2 = false

section
variable {i : Instr} {b : BusId} {p1 p2 : Bool} {first : List Call} (hf : BindForm i b p1 p2 first)
include hf

/-- A bind that ends has issued its first calls after its register writes, and then answered its status read. -/
theorem BindForm.exec_next {s t : State} (h : exec i s = .next t) :
    ∃ u ok v, RanCalls (bindRegs b p1 p2 s) u first ∧ ClockOk s u ∧ u.st = s.st ∧
      readRequest u.regAddr u = some (ok, v) ∧ t = probed ok v := by
  rcases hf with ⟨rfl, rfl⟩ | ⟨rfl, rfl, rfl, rfl, rfl⟩
  · obtain ⟨ok, v, hread, ht⟩ := probe_some.mp (whenTransport_next.mp h).2
    exact ⟨_, ok, v, RanCalls.refl _, le_refl _, rfl, hread, ht⟩
  · obtain ⟨u, hu, hprobe⟩ := Option.bind_eq_some_iff.mp (whenTransport_next.mp h).2
    obtain ⟨e, he, rfl⟩ := tInit_some.mp hu
    obtain ⟨ok, v, hread, ht⟩ := probe_some.mp hprobe
    exact ⟨_, ok, v, RanCalls.note _ .init e, Env.init_time he, rfl, hread, ht⟩

/-- In the reference environment `T.init()` does nothing (R75), so a bind comes to its status read. -/
theorem BindForm.exec_ref {s : State} {e : RefEnv} (h : s.env = .ref e) (hb : b ∉ s.deadBuses) :
    ∃ u, RanCalls (bindRegs b p1 p2 s) u first ∧ u.env = .ref e ∧ u.st = s.st ∧
      ∀ {ok v}, readRequest u.regAddr u = some (ok, v) → exec i s = .next (probed ok v) := by
  rcases hf with ⟨rfl, rfl⟩ | ⟨rfl, rfl, rfl, rfl, rfl⟩
  · exact ⟨_, RanCalls.refl _, h, rfl, fun hread => whenTransport_next.mpr ⟨hb, probe_some.mpr ⟨_, _, hread, rfl⟩⟩⟩
  · have hinit : tInit (bindRegs 0 false false s) = some ((bindRegs 0 false false s).note .init (.ref e)) :=
      tInit_some.mpr ⟨_, by rw [bindRegs_env, h]; rfl, rfl⟩
    exact ⟨_, RanCalls.note _ .init _, rfl, rfl, fun hread =>
      whenTransport_next.mpr ⟨hb, Option.bind_eq_some_iff.mpr ⟨_, hinit, probe_some.mpr ⟨_, _, hread, rfl⟩⟩⟩⟩

/-- A bind in ENV0 to a chip that answers (R133, R75): its result, registers, calls and frame. -/
theorem BindForm.completes {s : State} {e : RefEnv} (h : s.env = .ref e) (hv : e.variant = .plain)
    (hb : b ∉ s.deadBuses) (hdev : e.regDev = (if p2 then 0x1C else 0x18)) (hne : e.memDev ≠ e.regDev) :
    ∃ t, exec i s = .next t ∧ t.rspOk = true ∧ t.rspCause = .none ∧ t.phase = .done ∧
      t.bus = b ∧ t.memAddr = (if p1 then 0x52 else 0x50) ∧ t.regAddr = e.regDev ∧ t.bound = true ∧
      Issued s t (first ++ [.request e.regDev 1, .now e.time, .available 1, .read e.status]) ∧
      SameInputs s t ∧ SameWriteRegs s t ∧ t.st = s.st ∧ t.sbyte = e.status ∧ t.t0 = e.time ∧
      SameArrays s t ∧ t.chipStatus = some e.status ∧ t.env.time = e.time := by
  obtain ⟨u, hfirst, henv, hst, hexec⟩ := hf.exec_ref h hb
  obtain ⟨-, -, hreg, -⟩ := registers_of_bindRegs hfirst.same.1
  have hdev' : u.regAddr = e.regDev := hreg.trans hdev.symm
  obtain ⟨t, hread, ht, hst', hsbyte, ht0, hwait⟩ := readRequest_register_ranCalls henv hv hne hdev'
  have hrun := hfirst.trans hwait
  rw [hdev'] at hrun
  obtain ⟨hsame, hinputs, hwrite, -⟩ := hrun.same
  obtain ⟨hbus, hmem, hregt, hbound⟩ := registers_of_bindRegs hsame
  exact ⟨_, hexec hread, rfl, rfl, rfl, hbus, hmem, hregt.trans hdev.symm, hbound, probed_issued hrun, hinputs, hwrite,
    hst'.trans hst, hsbyte, ht0, sameArrays_of_ref h ht rfl rfl, chipStatus_of_ref (e := { e with rxq := [] }) ht,
    congrArg Env.time ht⟩

/-- A bind in ENV0 at an address where nothing answers (R134, R75). -/
theorem BindForm.timesOut {s : State} {e : RefEnv} (h : s.env = .ref e) (hv : e.variant = .plain)
    (hb : b ∉ s.deadBuses) (ha : e.absent (if p2 then 0x1C else 0x18)) :
    ∃ t, exec i s = .next (probed false t) ∧ t.env = .ref { e with rxq := [], time := e.time + 3000 } ∧
      RanCalls (bindRegs b p1 p2 s) t (first ++ .request t.regAddr 1 :: .now e.time ::
        missedPolls ((List.range 3000).map fun k => e.time + k + 1)) := by
  obtain ⟨u, hfirst, henv, -, hexec⟩ := hf.exec_ref h hb
  obtain ⟨-, -, hreg, -⟩ := registers_of_bindRegs hfirst.same.1
  obtain ⟨t, hread, ht, hwait⟩ := readRequest_absent_ranCalls henv (.inl ⟨hv, hreg.symm ▸ ha⟩)
  obtain ⟨⟨-, -, hsame, -⟩, -⟩ := hwait.same
  exact ⟨t, hexec hread, ht, hsame ▸ hfirst.trans hwait⟩

end

/-! ### The statements -/

/-- Settles O6: the table is the formula at each pair of pins. -/
theorem deviceAddressFormula : Obligations.DeviceAddressFormula := by
  refine ⟨devAddrs_eq _ _, devAddrs_eq _ _, devAddrs_eq _ _, devAddrs_eq _ _, fun p1 p2 => ?_⟩
  rw [← pinBit_eq, ← pinBit_eq]
  rfl

/-- Settles O18: the status read follows the register writes and the first calls, and its outcome is the answer. -/
theorem bindOutcome : Obligations.BindOutcome := by
  intro s t b p1 p2 first h
  obtain ⟨i, hf, hexec⟩ : ∃ i, BindForm i b p1 p2 first ∧ exec i s = .next t := by
    rcases h with ⟨h, hfirst⟩ | ⟨h, hfirst⟩
    · exact ⟨_, .inl ⟨rfl, hfirst⟩, h⟩
    · exact ⟨_, .inr ⟨rfl, hfirst⟩, h⟩
  obtain ⟨u, ok, v, hfirst, hclock, hst, hread, rfl⟩ := hf.exec_next hexec
  obtain ⟨-, hst', hcase⟩ := readRequest_some hread
  obtain ⟨l, hwait⟩ := readRequest_ranCalls hread
  obtain ⟨hsame, hinputs, hwrite, -⟩ := (hfirst.trans hwait).same
  obtain ⟨-, -, hreg, -⟩ := hwait.same.1
  obtain ⟨hbus, hmem, hdev, hbound⟩ := registers_of_bindRegs hsame
  refine ⟨hbus, hmem, hdev, hbound, rfl, hinputs, hwrite, hst'.trans hst, ?_⟩
  rcases hcase with ⟨rfl, w, hw, hr⟩ | ⟨rfl, -, htime, w, hw, hr⟩
  · rw [← hreg] at hr
    exact .inl ⟨rfl, rfl, w, hw, probed_issued (hfirst.trans hr)⟩
  · rw [← hreg] at hr
    exact .inr ⟨rfl, rfl, (Nat.add_le_add_right hclock 3000).trans htime, w, hw,
      probed_issued (hfirst.trans hr)⟩

/-- Settles O19: the chip answers at the register address that `pin2` selects. -/
theorem bindCompletesInEnv0 : Obligations.BindCompletesInEnv0 := by
  rintro s e b p1 p2 h ⟨hv, -, -⟩ hb hdev hne
  exact BindForm.completes (.inl ⟨rfl, rfl⟩) h hv hb hdev hne

/-- Settles O20: BIND_DEFAULT is the bind with both pins low, after `T.init()`. -/
theorem bindDefaultCompletesInEnv0 : Obligations.BindDefaultCompletesInEnv0 := by
  rintro s e h ⟨hv, -, -⟩ hb hdev hne
  have hbind := BindForm.completes (.inr ⟨rfl, rfl, rfl, rfl, rfl⟩) h hv hb hdev (hdev.symm ▸ hne)
  rw [hdev] at hbind
  exact hbind

/-- Settles O21: the wait of the probe runs to the deadline, and the register writes before it stay. -/
theorem bindToAbsentChipTimesOut : Obligations.BindToAbsentChipTimesOut := by
  rintro i s e b p1 p2 first hf h ⟨hv, -, -⟩ hb ha
  obtain ⟨t, hexec, henv, hrun⟩ := BindForm.timesOut hf h hv hb ha
  obtain ⟨hbus, hmem, hreg, hbound⟩ := registers_of_bindRegs hrun.same.1
  exact ⟨_, hexec, rfl, rfl, hbus, hmem, hreg, hbound, congrArg Env.time henv, sameArrays_of_ref h henv rfl rfl,
    probed_issued hrun⟩

end Sys2Proof.Machine
end

section
/-! READ and WRITE (spec/41_memory_access.md): how they end in any environment, that they complete in ENV0
(spec/20_memory.md R75) with the byte of the array, and the round trip of R154. -/

namespace Sys2Proof.Machine

open Sys2Proof

/-! ### What a command that ended has done -/

theorem statusOk_iff {k : Byte} : statusOk k = true ↔ k = 0 := beq_iff_eq

theorem causeOf_zero : causeOf 0 = .none := rfl

/-- A READ that ended (R150): its address frame failed, or a read request followed it and is the answer. -/
theorem execRead_next {a : Addr} {s t : State} (h : exec (.read a) s = .next t) :
    ∃ u, sendFrame (addressFrame a s) s = some u ∧
      ((u.st ≠ 0 ∧ t = fail (causeOf u.st) u) ∨
        (u.st = 0 ∧ ∃ ok v, readRequest u.memAddr u = some (ok, v) ∧ t = answer ok v)) := by
  obtain ⟨u, hu, h⟩ := Option.bind_eq_some_iff.mp (whenBound_next.mp h).2
  refine ⟨u, hu, ?_⟩
  split at h
  next hok =>
    obtain ⟨⟨ok, v⟩, hread, hanswer⟩ := Option.bind_eq_some_iff.mp h
    have ht : t = answer ok v := (Option.some.inj hanswer).symm.trans (answer_eq ok v).symm
    exact .inr ⟨statusOk_iff.mp hok, ok, v, hread, ht⟩
  next hok => exact .inl ⟨fun hst => hok (statusOk_iff.mpr hst), (Option.some.inj h).symm⟩

/-- A WRITE that ended (R152): its frame ended, and the status of the frame is the answer. -/
theorem execWrite_next {a : Addr} {v : Byte} {s t : State} (h : exec (.write a v) s = .next t) :
    ∃ u, sendFrame (arrayFrame a v s) s = some u ∧ t = finishByStatus u := by
  obtain ⟨u, hu, h⟩ := Option.bind_eq_some_iff.mp (whenBound_next.mp h).2
  exact ⟨u, hu, (Option.some.inj h).symm⟩

/-! ### Frames in an environment given by its answers -/

/-- The time after the answers `rs`, from `time` on. -/
def timeAfter (time : Nat) (rs : List Answer) : Nat := rs.foldl (fun n r => n + r.dt) time

/-- The bytes of a frame use up one answer each. -/
theorem tWrites_scripted {bs : List Byte} {rs rest : List Answer} {time : Nat} {s : State}
    (h : s.env = .scripted { answers := rs ++ rest, time := time }) (hlen : bs.length = rs.length) :
    ∃ t, tWrites bs s = some t ∧ t.env = .scripted { answers := rest, time := timeAfter time rs } := by
  induction bs generalizing rs time s with
  | nil =>
    obtain rfl := List.length_eq_zero_iff.mp hlen.symm
    exact ⟨s, rfl, h⟩
  | cons b bs ih =>
    obtain ⟨r, rs, rfl⟩ := List.exists_cons_of_length_eq_add_one hlen.symm
    have hbyte : tWrite b s =
        some (s.note (.write b) (.scripted { answers := rs ++ rest, time := time + r.dt })) :=
      tWrite_some.mpr ⟨_, by rw [h]; rfl, rfl⟩
    obtain ⟨t, ht, henv⟩ := ih (s := s.note (.write b) _) rfl (Nat.succ.inj hlen)
    exact ⟨t, Option.bind_eq_some_iff.mpr ⟨_, hbyte, ht⟩, henv⟩

/-- A frame completes where its begin, each of its bytes and its end find an answer; the status is the last one's. -/
theorem sendFrame_scripted {f : Frame} {r₀ r : Answer} {rs rest : List Answer} {time : Nat} {s : State}
    (h : s.env = .scripted { answers := r₀ :: (rs ++ r :: rest), time := time }) (hlen : f.bytes.length = rs.length) :
    ∃ t, sendFrame f s = some t ∧ t.st = r.status ∧
      t.env = .scripted { answers := rest, time := timeAfter (time + r₀.dt) rs + r.dt } := by
  have hbegin : tBegin f.dev s =
      some (s.note (.begin f.dev) (.scripted { answers := rs ++ r :: rest, time := time + r₀.dt })) :=
    tBegin_some.mpr ⟨_, by rw [h]; rfl, rfl⟩
  obtain ⟨u, hu, henv⟩ := tWrites_scripted (rest := r :: rest) (s := s.note (.begin f.dev) _) rfl hlen
  have hend : u.env.endFrame = some (r.status,
      .scripted { answers := rest, time := timeAfter (time + r₀.dt) rs + r.dt }) := by rw [henv]; rfl
  have htail := Option.bind_eq_some_iff.mpr ⟨u, hu, tEnd_some (stop := f.stop).mpr ⟨_, _, hend, rfl⟩⟩
  exact ⟨_, Option.bind_eq_some_iff.mpr ⟨_, hbegin, htail⟩, rfl, rfl⟩

/-! ### The commands in ENV0 -/

/-- The array read that ENV0 answers, as a run of calls. -/
theorem readRequest_array_ranCalls {dev : DevAddr} {s : State} {e : RefEnv} (h : s.env = .ref e)
    (hv : e.variant = .plain) (hc : e.cap = 65536) (hd : dev = e.memDev) :
    ∃ t, readRequest dev s = some (true, t) ∧ t.env = .ref { e with rxq := [], ptr := e.ptr + 1 } ∧ t.st = s.st ∧
      t.sbyte = e.sram.read e.ptr.toNat ∧ t.t0 = e.time ∧
      RanCalls s t [.request dev 1, .now e.time, .available 1, .read (e.sram.read e.ptr.toNat)] :=
  ⟨_, readRequest_array h hv hc hd, rfl, rfl, rfl, rfl, rfl, rfl⟩

/-- ENV0 after a WRITE: the byte is stored, and the chip's address is the next one (R75). -/
def RefEnv.afterWrite (e : RefEnv) (a : Addr) (v : Byte) : RefEnv :=
  { e with txdev := e.memDev, txbuf := [addrHigh a, addrLow a, v], ptr := a + 1, sram := e.sram.write a.toNat v }

/-- ENV0 after a READ: the chip's address is the next one, and no byte is left in the queue (R75). -/
def RefEnv.afterRead (e : RefEnv) (a : Addr) : RefEnv :=
  { e with txdev := e.memDev, txbuf := [addrHigh a, addrLow a], ptr := a + 1, rxq := [] }

section
variable {s : State} {e : RefEnv} (hb : s.bound = true) (h : s.env = .ref e) (hv : e.variant = .plain)
  (hc : e.cap = 65536) (hd : s.memAddr = e.memDev)
include hb h hv hc hd

/-- WRITE in ENV0 (R152, R75): its frame is taken with status 0. -/
theorem execWrite_env0 (a : Addr) (v : Byte) :
    ∃ t, exec (.write a v) s = .next (succeed true t) ∧ t.env = .ref (e.afterWrite a v) ∧ t.st = 0 ∧
      SameReadRegs s t ∧ RanCalls s t (frameCalls s.memAddr [addrHigh a, addrLow a, v] true 0) := by
  have hend := RefEnv.endFrame_array (e := { e with txdev := s.memAddr, txbuf := [addrHigh a, addrLow a, v] })
    hv hc rfl hd
  obtain ⟨t, ht, henv, hst, hran⟩ := sendFrame_of_endFrame (f := arrayFrame a v s) h hend
  obtain ⟨-, -, hsbyte, ht0⟩ := sendFrame_some ht
  have hexec := execWrite_of_sendFrame hb ht
  rw [finishByStatus_eq, hst] at hexec
  rw [addrHigh_append_addrLow, hd] at henv
  exact ⟨t, hexec, henv, hst, ⟨hsbyte, ht0⟩, hran⟩

/-- READ in ENV0 (R150, R75): the address frame sets the chip's address, and the first poll finds the byte there. -/
theorem execRead_env0 (a : Addr) :
    ∃ t, exec (.read a) s = .next (succeedWith (e.sram.read a.toNat) t) ∧ t.env = .ref (e.afterRead a) ∧ t.st = 0 ∧
      t.sbyte = e.sram.read a.toNat ∧ t.t0 = e.time ∧
      RanCalls s t (frameCalls s.memAddr [addrHigh a, addrLow a] false 0 ++
        [.request s.memAddr 1, .now e.time, .available 1, .read (e.sram.read a.toNat)]) := by
  have hend := RefEnv.endFrame_address (e := { e with txdev := s.memAddr, txbuf := [addrHigh a, addrLow a] })
    (.inl hv) (hc ▸ (addrHigh a ++ addrLow a).isLt) rfl hd
  rw [addrHigh_append_addrLow] at hend
  obtain ⟨u, hu, henv, hst, hframe⟩ := sendFrame_of_endFrame (f := addressFrame a s) h hend
  obtain ⟨⟨-, hmem, -⟩, -⟩ := hframe.same
  obtain ⟨t, hread, ht, hst', hsbyte, ht0, hwait⟩ :=
    readRequest_array_ranCalls (dev := u.memAddr) henv hv hc (hmem.trans hd)
  have hexec := execRead_of_readRequest hb hu hst hread
  rw [answer_eq, hsbyte] at hexec
  rw [hd] at ht
  rw [hmem] at hwait
  exact ⟨t, hexec, ht, hst'.trans hst, hsbyte, ht0, hframe.trans hwait⟩

end

/-! ### The statements -/

/-- Settles O22: a READ ends after its frame or after its read request, and a read request ends with a byte or at the
deadline. -/
theorem readOutcome : Obligations.ReadOutcome := by
  intro a s t h
  obtain ⟨u, hu, hcase⟩ := execRead_next h
  obtain ⟨hframe, hclock, -, -⟩ := sendFrame_some hu
  obtain ⟨hsame, hinputs, hwrite, -⟩ := hframe.same
  rcases hcase with ⟨hst, rfl⟩ | ⟨hst, ok, v, hread, rfl⟩
  · exact ⟨hsame, hinputs, hwrite, rfl, .inl ⟨hst, rfl, rfl, hframe.issued⟩⟩
  · obtain ⟨-, hmem, -⟩ := hsame
    rw [hmem] at hread
    rw [hst] at hframe
    obtain ⟨l, hwait⟩ := readRequest_ranCalls hread
    obtain ⟨hsame, hinputs, hwrite, -⟩ := (hframe.trans hwait).same
    obtain ⟨-, hkeep, hcase⟩ := readRequest_some hread
    refine ⟨hsame, hinputs, hwrite, rfl, .inr ?_⟩
    rcases hcase with ⟨rfl, w, hw, hhit⟩ | ⟨rfl, -, htime, w, hw, hmiss⟩
    · exact .inl ⟨hkeep.trans hst, rfl, rfl, rfl, w, hw, (hframe.trans hhit).issued⟩
    · exact .inr ⟨hkeep.trans hst, rfl, rfl, (Nat.add_le_add_right hclock 3000).trans htime, w, hw,
        (hframe.trans hmiss).issued⟩

/-- Settles O23: the chip's address after the frame is the operand, below the capacity whatever it is. -/
theorem readCompletesInEnv0 : Obligations.ReadCompletesInEnv0 := by
  rintro a s e hb h ⟨hv, hc, -⟩ hd
  obtain ⟨t, hexec, ht, hst, hsbyte, ht0, hrun⟩ := execRead_env0 hb h hv hc hd a
  obtain ⟨hsame, hinputs, hwrite, -⟩ := hrun.same
  have hbyte : s.arrayByte a = some (e.sram.read a.toNat) := by simp [State.arrayByte, h]
  exact ⟨_, hexec, rfl, rfl, hbyte, rfl, hrun.issued, hsame, hinputs, hwrite, hst, hsbyte, ht0,
    sameArrays_of_ref h ht rfl rfl, chipStatus_of_ref (e := e.afterRead a) ht, congrArg Env.time ht⟩

/-- Settles O25: the one frame is all a WRITE issues, and its response is the frame's status. -/
theorem writeOutcome : Obligations.WriteOutcome := by
  intro a v s t h
  obtain ⟨u, hu, rfl⟩ := execWrite_next h
  obtain ⟨hframe, -, hsbyte, ht0⟩ := sendFrame_some hu
  obtain ⟨hsame, hinputs, hwrite, -⟩ := hframe.same
  have hcause : causeOf u.st = if u.st = 0 then .none else causeOf u.st := by
    split
    next hst => rw [hst, causeOf_zero]
    next => rfl
  rw [finishByStatus_eq]
  exact ⟨hframe.issued, statusOk_iff, hcause, rfl, hsame, hinputs, hwrite, hsbyte, ht0⟩

/-- Settles O26: the array is the one before with one byte written, and a canonical array reads so. -/
theorem writeCompletesInEnv0 : Obligations.WriteCompletesInEnv0 := by
  rintro a v s e hb h ⟨hv, hc, -⟩ hd hwf
  obtain ⟨t, hexec, ht, hst, hread, hrun⟩ := execWrite_env0 hb h hv hc hd a v
  obtain ⟨hsame, hinputs, hwrite, -⟩ := hrun.same
  have hbytes : ∀ x, t.arrayByte x = if x = a then some v else s.arrayByte x := by
    intro x
    simp only [State.arrayByte, ht, h, RefEnv.afterWrite, Memory.read_write _ _ _ _ hwf, ← BitVec.toNat_inj]
    split <;> rfl
  have hcopy : ∀ x, t.copyByte x = s.copyByte x := fun x => by simp [State.copyByte, ht, h, RefEnv.afterWrite]
  exact ⟨_, hexec, rfl, rfl, rfl, hrun.issued, (hbytes a).trans (if_pos rfl), fun x hx => (hbytes x).trans (if_neg hx),
    hcopy, hsame, hinputs, hwrite, hread, hst, chipStatus_of_ref (e := e.afterWrite a v) ht, congrArg Env.time ht⟩

/-- Settles O28: after the WRITE the environment is ENV0 still, and the READ gives the byte its array holds. -/
theorem writeThenReadReturnsValue : Obligations.WriteThenReadReturnsValue := by
  rintro a v s e hb h ⟨hv, hc, -⟩ hd hwf
  obtain ⟨t, hwrite, ht, -, -, hrun⟩ := execWrite_env0 hb h hv hc hd a v
  obtain ⟨⟨-, hmem, -, hbound⟩, -⟩ := hrun.same
  obtain ⟨u, hread, -⟩ :=
    execRead_env0 (s := takeResponse (succeed true t)) (hbound.trans hb) ht hv hc (hmem.trans hd) a
  exact ⟨_, _, hwrite, rfl, hread, rfl, (Memory.read_write _ _ _ _ hwf).trans (if_pos rfl), rfl⟩

/-- Settles O27: each of the frame's five calls takes one answer. -/
theorem writeCompletesInAnyEnvironment : Obligations.WriteCompletesInAnyEnvironment := by
  intro a v s r1 r2 r3 r4 r5 rest time hb h
  obtain ⟨u, hu, hst, henv⟩ := sendFrame_scripted (f := arrayFrame a v s) (rs := [r2, r3, r4]) h rfl
  obtain ⟨hframe, -⟩ := sendFrame_some hu
  have hexec := execWrite_of_sendFrame hb hu
  rw [finishByStatus_eq, hst] at hexec
  rw [hst] at hframe
  exact ⟨_, hexec, hst, rfl, henv, hframe.issued⟩

end Sys2Proof.Machine
end

section
/-! GETSTATUS, STORE and RECALL (spec/42_register_access.md): how they end in any environment, that they complete in
ENV0 (spec/20_memory.md R75), and a chip that is still running a store or recall (R178, R311). STORE and RECALL differ
in their byte, their delay and the direction they copy in, so what they do is said once for both. -/

namespace Sys2Proof.Machine

open Sys2Proof

/-! ### GETSTATUS -/

/-- A GETSTATUS that ended (R170): its read request is the answer. -/
theorem execGetStatus_next {s t : State} (h : exec .getStatus s = .next t) :
    ∃ ok u, readRequest s.regAddr s = some (ok, u) ∧ t = answer ok u := by
  obtain ⟨⟨ok, u⟩, hread, hanswer⟩ := Option.bind_eq_some_iff.mp (whenBound_next.mp h).2
  exact ⟨ok, u, hread, (Option.some.inj hanswer).symm.trans (answer_eq ok u).symm⟩

/-! ### What follows the frame of STORE and RECALL -/

/-- The delays after a frame with completion status `k`: the settling delay, and the completion delay on success only
(R172, R174, R176). -/
def delaysAfter (c : ChipCommand) (k : Byte) : List Call :=
  if k = 0 then [.delay 1, .delay (commandDelay c)] else [.delay 1]

/-- The time they take. -/
def delayAfter (c : ChipCommand) (k : Byte) : Nat := if k = 0 then 1 + commandDelay c else 1

theorem delaysAfter_zero (c : ChipCommand) : delaysAfter c 0 = [.delay 1, .delay (commandDelay c)] := rfl

theorem delaysAfter_of_ne {c : ChipCommand} {k : Byte} (hk : k ≠ 0) : delaysAfter c k = [.delay 1] := if_neg hk

theorem delayAfter_zero (c : ChipCommand) : delayAfter c 0 = 1 + commandDelay c := rfl

theorem delayAfter_of_ne {c : ChipCommand} {k : Byte} (hk : k ≠ 0) : delayAfter c k = 1 := if_neg hk

/-- The working registers of WRITEREG, written as they are when it has ended (R172, R26). -/
def withWriteRegs (r : LogicalReg) (v : Byte) (ok : Bool) (s : State) : State :=
  { s with wReg := regAddress r, wVal := v, wOk := ok }

/-- The calls after those writes are the ones a command has issued at its response. -/
theorem respond_issued {r : LogicalReg} {v : Byte} {w ok : Bool} {cause : Cause} {d : Option Byte} {s u : State}
    {l : List Call} (h : RanCalls (withWriteRegs r v w s) u l) : Issued s (respond ok cause d u) l :=
  issued_of_ranCalls (s' := withWriteRegs r v w s) rfl h rfl rfl

/-- WRITEREG as its register writes and a run of calls. -/
theorem writeReg_ranCalls {r : LogicalReg} {v : Byte} {s t : State} (h : writeReg r v s = some t) :
    RanCalls (withWriteRegs r v (statusOk t.st) s) t (frameCalls s.regAddr [regAddress r, v] true t.st ++ [.delay 1]) ∧
      SameReadRegs s t ∧ s.env.time + 1 ≤ t.env.time := by
  obtain ⟨u, ⟨hu, hlog⟩, rfl, hsbyte, ht0, htime⟩ := writeReg_some h
  refine ⟨⟨?_, hlog⟩, ⟨hsbyte, ht0⟩, htime⟩
  conv_lhs => rw [hu]
  rfl

/-- STORE and RECALL that ended (R174, R176): the register write, the delays its status asks for, and that status as
the answer. -/
theorem runChipCommand_some {c : ChipCommand} {s t : State} (h : runChipCommand c s = some t) :
    ∃ u, t = respond (statusOk u.st) (causeOf u.st) none u ∧
      RanCalls (withWriteRegs .command (commandByte c) (statusOk u.st) s) u
        (frameCalls s.regAddr [regAddress .command, commandByte c] true u.st ++ delaysAfter c u.st) ∧
      SameReadRegs s u ∧ s.env.time + delayAfter c u.st ≤ u.env.time := by
  obtain ⟨u, hu, h⟩ := Option.bind_eq_some_iff.mp h
  obtain ⟨hrun, hread, htime⟩ := writeReg_ranCalls hu
  obtain ⟨-, -, ⟨-, -, hok⟩, -⟩ := hrun.same
  change u.wOk = statusOk u.st at hok
  by_cases hst : u.st = 0
  · rw [hok, hst] at h
    obtain ⟨v, hv, hend⟩ := Option.bind_eq_some_iff.mp h
    obtain ⟨e, he, rfl⟩ := tDelay_some.mp hv
    have hdelay := Env.delay_time he
    refine ⟨u.note (.delay (commandDelay c)) e, ?_, ?_, hread, ?_⟩
    · simpa [hst, statusOk, causeOf] using hend.symm
    · have hboth := hrun.trans (RanCalls.note u (.delay (commandDelay c)) e)
      simpa only [note_st, hst, delaysAfter_zero, List.append_assoc, List.singleton_append] using hboth
    · simp only [note_st, note_env, hst, delayAfter_zero]
      omega
  · refine ⟨u, ?_, ?_, hread, ?_⟩
    · simpa [hok, statusOk_eq_false hst] using h.symm
    · rwa [delaysAfter_of_ne hst]
    · rwa [delayAfter_of_ne hst]

/-- What STORE and RECALL have done when they end, in any environment. -/
structure ChipCommandEnded (c : ChipCommand) (s t : State) : Prop where
  binding : SamePersistent s t
  inputs : SameInputs s t
  readRegs : SameReadRegs s t
  wReg : t.wReg = 0x55
  wVal : t.wVal = commandByte c
  wOk : t.wOk = statusOk t.st
  phase : t.phase = .done
  rspOk : t.rspOk = statusOk t.st
  rspCause : t.rspCause = causeOf t.st
  time : s.env.time + delayAfter c t.st ≤ t.env.time
  issued : Issued s t (frameCalls s.regAddr [0x55, commandByte c] true t.st ++ delaysAfter c t.st)

theorem chipCommandEnded_of_next {c : ChipCommand} {s t : State} (h : whenBound s (runChipCommand c s) = .next t) :
    ChipCommandEnded c s t := by
  obtain ⟨u, rfl, hrun, hread, htime⟩ := runChipCommand_some (whenBound_next.mp h).2
  obtain ⟨hsame, hinputs, ⟨hreg, hval, hok⟩, -⟩ := hrun.same
  exact
    { binding := hsame, inputs := hinputs, readRegs := hread, wReg := hreg, wVal := hval, wOk := hok, phase := rfl
      rspOk := rfl, rspCause := rfl, time := htime, issued := respond_issued hrun }

/-- The two results, apart. -/
theorem ChipCommandEnded.outcome {c : ChipCommand} {s t : State} (h : ChipCommandEnded c s t) :
    SamePersistent s t ∧ SameInputs s t ∧ SameReadRegs s t ∧ t.wReg = 0x55 ∧ t.wVal = commandByte c ∧
      t.wOk = (t.st == 0) ∧ t.phase = .done ∧
      ((t.st = 0 ∧ t.rspOk = true ∧ t.rspCause = .none ∧ s.env.time + (1 + commandDelay c) ≤ t.env.time ∧
          Issued s t (frameCalls s.regAddr [0x55, commandByte c] true 0 ++ [.delay 1, .delay (commandDelay c)])) ∨
        (t.st ≠ 0 ∧ t.rspOk = false ∧ t.rspCause = causeOf t.st ∧ s.env.time + 1 ≤ t.env.time ∧
          Issued s t (frameCalls s.regAddr [0x55, commandByte c] true t.st ++ [.delay 1]))) := by
  obtain ⟨hsame, hinputs, hread, hreg, hval, hwok, hphase, hok, hcause, htime, hissued⟩ := h
  refine ⟨hsame, hinputs, hread, hreg, hval, hwok, hphase, ?_⟩
  by_cases hst : t.st = 0
  · rw [hst] at hok hcause htime hissued
    exact .inl ⟨hst, hok, hcause, htime, hissued⟩
  · rw [statusOk_eq_false hst] at hok
    rw [delayAfter_of_ne hst] at htime
    rw [delaysAfter_of_ne hst] at hissued
    exact .inr ⟨hst, hok, hcause, htime, hissued⟩

/-! ### The chip under STORE and RECALL -/

/-- The array a chip command copies: the array for STORE, the nonvolatile copy for RECALL (R174, R176). -/
def ChipCommand.source (c : ChipCommand) (e : RefEnv) : Memory :=
  match c with
  | .store => e.sram
  | .recallArray => e.ee

/-- A byte of the array that a chip command copies. -/
def ChipCommand.sourceByte (c : ChipCommand) (s : State) (x : Addr) : Option Byte :=
  match c with
  | .store => s.arrayByte x
  | .recallArray => s.copyByte x

/-- A byte of the array that it overwrites. -/
def ChipCommand.targetByte (c : ChipCommand) (s : State) (x : Addr) : Option Byte :=
  match c with
  | .store => s.copyByte x
  | .recallArray => s.arrayByte x

/-- Every byte of both arrays of `t` is the one that the array copied had in `s`. -/
def Copied (c : ChipCommand) (s t : State) : Prop :=
  (∀ x, c.targetByte t x = c.sourceByte s x) ∧ ∀ x, c.sourceByte t x = c.sourceByte s x

theorem copied_of_ref {c : ChipCommand} {s t : State} {e f : RefEnv} (hs : s.env = .ref e) (ht : t.env = .ref f)
    (hsram : f.sram = c.source e) (hee : f.ee = c.source e) : Copied c s t := by
  cases c <;>
    simp [Copied, ChipCommand.targetByte, ChipCommand.sourceByte, State.arrayByte, State.copyByte, hs, ht, hsram, hee,
      ChipCommand.source]

/-- The chip with its COMMAND register written and its arrays copied. -/
def RefEnv.obeying (c : ChipCommand) (e : RefEnv) : RefEnv :=
  { e with command := commandByte c, sram := c.source e, ee := c.source e }

/-- The chip while it runs a command it has just taken. -/
def RefEnv.running (c : ChipCommand) (e : RefEnv) : RefEnv :=
  { e.obeying c with busyUntil := e.time + commandDelay c }

theorem RefEnv.runCommand_of_idle {e d : RefEnv} {n : Nat} (h : e.busyUntil ≤ e.time) :
    e.runCommand d n = (0, .ref { d with busyUntil := e.time + n }) := if_neg (Nat.not_lt.mpr h)

theorem RefEnv.runCommand_of_busy {e d : RefEnv} {n : Nat} (h : e.time < e.busyUntil) :
    e.runCommand d n = (Config.reissueStatus e, Env.unknownFrom (.ref e) e.time) := if_pos h

/-- The frame of a STORE or RECALL is open to the chip. -/
def RefEnv.Commanding (c : ChipCommand) (e : RefEnv) : Prop :=
  e.txdev = e.regDev ∧ e.memDev ≠ e.regDev ∧ e.txbuf = [regAddress .command, commandByte c]

/-- Such a frame makes the chip run the command (R75). -/
theorem RefEnv.deliver_of_commanding {c : ChipCommand} {e : RefEnv} (h : e.Commanding c) :
    e.deliver = e.runCommand (e.obeying c) (commandDelay c) := by
  obtain ⟨hdev, hne, hbuf⟩ := h
  rw [RefEnv.deliver, if_neg (hdev ▸ hne.symm), if_pos hdev]
  cases c <;> simp [RefEnv.deliverRegister, hbuf, regAddress, commandByte, commandDelay, RefEnv.obeying,
    ChipCommand.source, cfg]

theorem RefEnv.deliver_of_idle {c : ChipCommand} {e : RefEnv} (h : e.Commanding c) (hidle : e.busyUntil ≤ e.time) :
    e.deliver = (0, .ref (e.running c)) :=
  (RefEnv.deliver_of_commanding h).trans (RefEnv.runCommand_of_idle hidle)

theorem RefEnv.endFrame_plain {e : RefEnv} (hv : e.variant = .plain) : e.endFrame = e.deliver := by
  simp only [RefEnv.endFrame, hv]

section
variable {e : RefEnv} {k : Byte} (hv : e.variant = .takenButFailing k)
include hv

/-- The chip is busy up to the end of what it runs (log 11). -/
theorem RefEnv.busyUnseen_iff : e.busyUnseen = true ↔ e.time < e.busyUntil := by
  simp only [RefEnv.busyUnseen, hv, decide_eq_true_iff]

/-- The frame is taken although its status is `k` (R311, log 19). -/
theorem RefEnv.endFrame_taken (h : e.busyUnseen = false) : e.endFrame = (k, e.deliver.2) := by
  simp [RefEnv.endFrame, hv, h]

/-- A frame to a busy chip leaves it unknown (log 11). -/
theorem RefEnv.endFrame_busy (h : e.busyUnseen = true) :
    e.endFrame = (k, Env.unknownFrom (.ref e) e.time) := by
  simp [RefEnv.endFrame, hv, h]

/-- The first frame starts what the chip runs, and the block sees only its status. -/
theorem RefEnv.endFrame_of_unseen {c : ChipCommand} (h : e.Commanding c) (hidle : e.busyUntil ≤ e.time) :
    e.endFrame = (k, .ref (e.running c)) := by
  have hseen : e.busyUnseen = false :=
    Bool.eq_false_iff.mpr fun hbusy => Nat.not_lt.mpr hidle ((RefEnv.busyUnseen_iff hv).mp hbusy)
  rw [RefEnv.endFrame_taken hv hseen, RefEnv.deliver_of_idle h hidle]

end

/-- A read request to a busy chip leaves it unknown (log 11). -/
theorem Env.request_busy {f : RefEnv} (h : f.busyUnseen = true) (a : DevAddr) (n : Nat) :
    (Env.ref f).request a n = some (Env.unknownFrom (.ref f) f.time) := by
  simp [Env.request, h]

/-- The chip is still busy after the settling delay (R311). -/
theorem one_lt_commandDelay (c : ChipCommand) : 1 < commandDelay c := by
  cases c <;> decide

/-- The two bytes of R175 and R177 are the chip commands, with their delays. -/
theorem exists_chipCommand {v : Byte} (h : v = 0x33 ∨ v = 0xDD) :
    ∃ c, v = commandByte c ∧ commandDelay c = if v = 0x33 then 25 else 5 := by
  rcases h with rfl | rfl
  · exact ⟨.store, rfl, rfl⟩
  · exact ⟨.recallArray, rfl, rfl⟩

/-! ### STORE and RECALL in the reference environment -/

/-- The reference environment when the frame of a STORE or RECALL to `dev` is open. -/
def RefEnv.commandFrame (c : ChipCommand) (dev : DevAddr) (e : RefEnv) : RefEnv :=
  { e with txdev := dev, txbuf := [regAddress .command, commandByte c] }

theorem RefEnv.commanding_commandFrame {e : RefEnv} {dev : DevAddr} (hdev : dev = e.regDev)
    (hne : e.memDev ≠ e.regDev) (c : ChipCommand) : (e.commandFrame c dev).Commanding c := ⟨hdev, hne, rfl⟩

section
variable {s : State} {e : RefEnv} (hb : s.bound = true) (h : s.env = .ref e)
include hb h

/-- STORE and RECALL complete where `T.end` does, after the delays its status asks for. -/
theorem runChipCommand_ref {c : ChipCommand} {k : Byte} {f : RefEnv}
    (hend : (e.commandFrame c s.regAddr).endFrame = (k, .ref f)) :
    ∃ t, whenBound s (runChipCommand c s) = .next t ∧ ChipCommandEnded c s t ∧ t.st = k ∧
      t.env = .ref { f with time := f.time + delayAfter c k } := by
  have hwrite := writeReg_ref h hend
  obtain ⟨t, ht, hst, henv⟩ : ∃ t, runChipCommand c s = some t ∧ t.st = k ∧
      t.env = .ref { f with time := f.time + delayAfter c k } := by
    by_cases hk : k = 0
    · subst hk
      simp [runChipCommand, hwrite, statusOk, tDelay, Env.delay, delayAfter, Nat.add_assoc]
    · simp [runChipCommand, hwrite, statusOk_eq_false hk, delayAfter_of_ne hk]
  have hnext := whenBound_next.mpr ⟨hb, ht⟩
  exact ⟨t, hnext, chipCommandEnded_of_next hnext, hst, henv⟩

variable (hdev : s.regAddr = e.regDev) (hne : e.memDev ≠ e.regDev) (hidle : e.busyUntil ≤ e.time)
include hdev hne hidle

/-- In ENV0 the command succeeds, after the settling delay and the completion delay (R174, R176). -/
theorem runChipCommand_env0 (hv : e.variant = .plain) (c : ChipCommand) :
    ∃ t, whenBound s (runChipCommand c s) = .next t ∧ t.rspOk = true ∧ t.rspCause = .none ∧ t.phase = .done ∧
      Issued s t (frameCalls s.regAddr [0x55, commandByte c] true 0 ++ [.delay 1, .delay (commandDelay c)]) ∧
      (∀ x, c.targetByte t x = c.sourceByte s x) ∧ (∀ x, c.sourceByte t x = c.sourceByte s x) ∧
      SamePersistent s t ∧ SameInputs s t ∧ SameReadRegs s t ∧ t.st = 0 ∧ t.wReg = 0x55 ∧ t.wVal = commandByte c ∧
      t.wOk = true ∧ t.chipStatus = some e.status ∧ t.env.time = e.time + (1 + commandDelay c) := by
  have hend := RefEnv.deliver_of_idle (RefEnv.commanding_commandFrame hdev hne c) hidle
  rw [← RefEnv.endFrame_plain (e := e.commandFrame c s.regAddr) hv] at hend
  obtain ⟨t, hnext, hended, hst, henv⟩ := runChipCommand_ref hb h hend
  obtain ⟨hsame, hinputs, hread, hreg, hval, hwok, hphase, hok, hcause, -, hissued⟩ := hended
  obtain ⟨htarget, hsource⟩ : Copied c s t := copied_of_ref h henv rfl rfl
  rw [hst] at hwok hok hcause hissued
  refine ⟨t, hnext, hok, hcause, hphase, hissued, htarget, hsource, hsame, hinputs, hread, hst, hreg, hval, hwok,
    ?_, ?_⟩
  · rw [chipStatus_of_ref henv]
    rfl
  · exact congrArg Env.time henv

/-- Where the chip takes a frame that reports `k`, the command fails after the settling delay alone, and the chip runs
it for its whole delay (R311, log 19). -/
theorem runChipCommand_unseen {k : Byte} (hv : e.variant = .takenButFailing k) (hk : k ≠ 0) (c : ChipCommand) :
    ∃ t f, whenBound s (runChipCommand c s) = .next t ∧ t.rspOk = false ∧ t.rspCause = causeOf k ∧
      Issued s t (frameCalls s.regAddr [0x55, commandByte c] true k ++ [.delay 1]) ∧ SamePersistent s t ∧
      (∀ x, c.targetByte t x = c.sourceByte s x) ∧ (∀ x, c.sourceByte t x = c.sourceByte s x) ∧
      t.env = .ref f ∧ f.time = e.time + 1 ∧ f.busyUntil = e.time + commandDelay c ∧ f.busyUnseen = true := by
  have hend := RefEnv.endFrame_of_unseen (e := e.commandFrame c s.regAddr) hv
    (RefEnv.commanding_commandFrame hdev hne c) hidle
  obtain ⟨t, hnext, hended, hst, henv⟩ := runChipCommand_ref hb h hend
  obtain ⟨htarget, hsource⟩ : Copied c s t := copied_of_ref h henv rfl rfl
  have hok := hended.rspOk
  have hcause := hended.rspCause
  have hissued := hended.issued
  rw [hst, statusOk_eq_false hk] at hok
  rw [hst] at hcause
  rw [hst, delaysAfter_of_ne hk] at hissued
  rw [delayAfter_of_ne hk] at henv
  refine ⟨t, _, hnext, hok, hcause, hissued, hended.binding, htarget, hsource, henv, rfl, rfl, ?_⟩
  refine (RefEnv.busyUnseen_iff (k := k) ?_).mpr ?_
  · exact hv
  · exact Nat.add_lt_add_left (one_lt_commandDelay c) e.time

end

/-! ### The statements -/

/-- Settles O29: the read request is all a GETSTATUS issues, and it ends with a byte or at the deadline. -/
theorem getStatusOutcome : Obligations.GetStatusOutcome := by
  intro s t h
  obtain ⟨ok, u, hread, rfl⟩ := execGetStatus_next h
  obtain ⟨l, hrun⟩ := readRequest_ranCalls hread
  obtain ⟨hsame, hinputs, hwrite, -⟩ := hrun.same
  obtain ⟨-, hst, hcase⟩ := readRequest_some hread
  refine ⟨hsame, hinputs, hwrite, hst, rfl, ?_⟩
  rcases hcase with ⟨rfl, w, hw, hhit⟩ | ⟨rfl, -, htime, w, hw, hmiss⟩
  · exact .inl ⟨rfl, rfl, rfl, w, hw, hhit.issued⟩
  · exact .inr ⟨rfl, rfl, htime, w, hw, hmiss.issued⟩

/-- Settles O30: the first poll of the status read finds the chip's STATUS. -/
theorem getStatusCompletesInEnv0 : Obligations.GetStatusCompletesInEnv0 := by
  rintro s e hb h ⟨hv, -, -⟩ hdev hne
  obtain ⟨t, hread, ht, hst, hsbyte, ht0, hrun⟩ := readRequest_register_ranCalls h hv hne hdev
  obtain ⟨hsame, hinputs, hwrite, -⟩ := hrun.same
  exact ⟨answer true t, execGetStatus_of_readRequest hb hread, rfl, rfl, hsbyte, rfl, hrun.issued, hsame, hinputs,
    hwrite, hst, hsbyte, ht0, sameArrays_of_ref h ht rfl rfl, chipStatus_of_ref (e := { e with rxq := [] }) ht,
    congrArg Env.time ht⟩

/-- Settles O32: STORE is the chip command 0x33 with a completion delay of 25 ms. -/
theorem storeOutcome : Obligations.StoreOutcome :=
  fun _ _ h => (chipCommandEnded_of_next (c := .store) h).outcome

/-- Settles O33: RECALL is the chip command 0xDD with a completion delay of 5 ms. -/
theorem recallOutcome : Obligations.RecallOutcome :=
  fun _ _ h => (chipCommandEnded_of_next (c := .recallArray) h).outcome

/-- Settles O34: STORE copies the array over the nonvolatile copy. -/
theorem storeCompletesInEnv0 : Obligations.StoreCompletesInEnv0 :=
  fun _ _ hb h ⟨hv, _, hidle⟩ hdev hne => runChipCommand_env0 hb h hdev hne hidle hv .store

/-- Settles O35: RECALL copies the nonvolatile copy over the array. -/
theorem recallCompletesInEnv0 : Obligations.RecallCompletesInEnv0 :=
  fun _ _ hb h ⟨hv, _, hidle⟩ hdev hne => runChipCommand_env0 hb h hdev hne hidle hv .recallArray

/-- Settles O59: the block waits 1 ms of the 25 or 5 the chip is busy, and any access to it
then leaves it unknown. -/
theorem unseenStoreLeavesChipBusy : Obligations.UnseenStoreLeavesChipBusy := by
  intro k s e hb h hv hk hidle hdev hne
  refine ⟨?_, ?_, fun f hf hbusy => ?_⟩
  · exact runChipCommand_unseen hb h hdev hne hidle hv hk .store
  · exact runChipCommand_unseen hb h hdev hne hidle hv hk .recallArray
  · exact ⟨RefEnv.endFrame_busy hf hbusy, Env.request_busy hbusy⟩

/-- Settles O37: a busy chip that gets a STORE or RECALL becomes unknown, and an idle one that takes it
becomes busy. -/
theorem reissueLeavesChipUnknown : Obligations.ReissueLeavesChipUnknown := by
  intro e k v hdev hne hbuf hbyte
  obtain ⟨c, rfl, hdelay⟩ := exists_chipCommand hbyte
  have hframe : e.Commanding c := ⟨hdev, hne, hbuf⟩
  rw [← hdelay]
  refine ⟨fun hv => ⟨RefEnv.endFrame_busy hv, fun hseen => ?_⟩, fun hv hbusy => ?_⟩
  · have hidle : e.busyUntil ≤ e.time :=
      Nat.not_lt.mp fun hlt => Bool.eq_false_iff.mp hseen ((RefEnv.busyUnseen_iff hv).mpr hlt)
    have hpos : 0 < commandDelay c := Nat.zero_lt_of_lt (one_lt_commandDelay c)
    exact ⟨e.running c, RefEnv.endFrame_of_unseen hv hframe hidle, rfl, rfl, rfl,
      (RefEnv.busyUnseen_iff (e := e.running c) hv).mpr (Nat.lt_add_of_pos_right hpos)⟩
  · rw [RefEnv.endFrame_plain hv, RefEnv.deliver_of_commanding hframe, RefEnv.runCommand_of_busy hbusy]
    rfl

end Sys2Proof.Machine
end

section
/-! The four queries and SET_AUTOSTORE (spec/43_status_bits.md): how they end in any environment, that they complete in
ENV0 (spec/20_memory.md R75), and the round trip of R207. The queries differ in their mask alone, so what they do is
said once for all four. -/

namespace Sys2Proof.Machine

open Sys2Proof

/-! ### Bit 1 of STATUS -/

/-- The mask of R201 is bit 1. -/
theorem stAse_eq_twoPow : cfg.stAse = BitVec.twoPow 8 1 := rfl

/-- SET_AUTOSTORE changes bit 1 only (R205). -/
theorem getLsbD_autostoreByte (en : Bool) (b : Byte) (k : Nat) :
    (autostoreByte en b).getLsbD k = if k = 1 then en else b.getLsbD k := by
  have hmask : cfg.stAse.getLsbD k = decide (k = 1) := by simp [stAse_eq_twoPow, eq_comm]
  cases en with
  | true =>
    rw [autostoreByte, if_pos rfl, BitVec.getLsbD_or, hmask]
    by_cases hk : k = 1 <;> simp [hk]
  | false =>
    rw [autostoreByte, if_neg Bool.false_ne_true, BitVec.getLsbD_and, BitVec.getLsbD_not, hmask]
    by_cases hk : k = 1
    · simp [hk]
    · simpa [hk] using BitVec.lt_of_getLsbD

/-- The test of a query, as R200 to R203 write it. -/
theorem testMask_iff {mask b : Byte} : testMask mask b = true ↔ b &&& mask ≠ 0 := bne_iff_ne

/-- The test of IS_AUTOSTORE reads bit 1 (R201). -/
theorem testMask_stAse (b : Byte) : testMask cfg.stAse b = b.getLsbD 1 := by
  rw [testMask, stAse_eq_twoPow, BitVec.and_twoPow]
  cases b.getLsbD 1 <;> rfl

/-! ### The queries -/

/-- The response to a query (R204). -/
def queried (mask : Byte) (ok : Bool) (s : State) : State :=
  respond (ok && testMask mask s.sbyte) (if ok then .none else .rspTimeout) none s

theorem query_some {mask : Byte} {s t : State} :
    query mask s = some t ↔ ∃ ok u, readRequest s.regAddr s = some (ok, u) ∧ t = queried mask ok u := by
  have hend : ∀ r : Bool × State,
      (if r.1 then succeed (testMask mask r.2.sbyte) r.2 else fail .rspTimeout r.2) = queried mask r.1 r.2 := by
    rintro ⟨_ | _, u⟩ <;> rfl
  have hquery : query mask s = (readRequest s.regAddr s).map fun r => queried mask r.1 r.2 := by
    rw [Option.map_eq_bind, ← funext hend]
    rfl
  simp only [hquery, Option.map_eq_some_iff, Prod.exists, eq_comm (a := t)]

/-- The four queries with their masks (R200 to R203). -/
def statusQueries : List (Instr × Byte) :=
  [(.isEvent, 0x01), (.isAutostore, 0x02), (.isWrprot, 0x1C), (.isModified, 0x80)]

theorem exec_statusQuery : ∀ p ∈ statusQueries, ∀ s, exec p.1 s = whenBound s (query p.2 s) := by
  simp only [statusQueries, List.forall_mem_cons]
  exact ⟨fun _ => rfl, fun _ => rfl, fun _ => rfl, fun _ => rfl, by simp⟩

/-- A query ends exactly where its read request does, which is the answer. -/
theorem exec_statusQuery_next {p : Instr × Byte} (hp : p ∈ statusQueries) {s t : State} :
    exec p.1 s = .next t ↔
      s.bound = true ∧ ∃ ok u, readRequest s.regAddr s = some (ok, u) ∧ t = queried p.2 ok u := by
  rw [exec_statusQuery p hp, whenBound_next, query_some]

/-! ### SET_AUTOSTORE -/

/-- A SET_AUTOSTORE that ended (R205): no byte came, or the byte that came was written back and the status of that frame
is the answer. -/
theorem execSetAutostore_next {en : Bool} {s t : State} (h : exec (.setAutostore en) s = .next t) :
    ∃ ok u, readRequest s.regAddr s = some (ok, u) ∧
      ((ok = false ∧ t = fail .rspTimeout u) ∨
        (ok = true ∧ ∃ v, writeReg .status (autostoreByte en u.sbyte) u = some v ∧ t = finishByStatus v)) := by
  obtain ⟨⟨ok, u⟩, hread, h⟩ := Option.bind_eq_some_iff.mp (whenBound_next.mp h).2
  refine ⟨ok, u, hread, ?_⟩
  cases ok with
  | true =>
    obtain ⟨v, hv, hend⟩ := Option.bind_eq_some_iff.mp h
    exact .inr ⟨rfl, v, hv, (Option.some.inj hend).symm⟩
  | false => exact .inl ⟨rfl, (Option.some.inj h).symm⟩

/-- Calls do not depend on the working registers of WRITEREG, so a run of them can be counted from after its writes. -/
theorem RanCalls.after_writeRegs {s t : State} {l : List Call} (h : RanCalls s t l) (r : LogicalReg) (v : Byte)
    (ok : Bool) : RanCalls (withWriteRegs r v ok s) (withWriteRegs r v ok t) l := by
  obtain ⟨hsame, hlog⟩ := h
  refine ⟨?_, hlog⟩
  conv_lhs => rw [hsame]
  rfl

/-- Calls followed by WRITEREG, as its register writes and one run of calls. -/
theorem RanCalls.then_writeReg {r : LogicalReg} {v : Byte} {s t u : State} {l : List Call} (h : RanCalls s t l)
    (hu : writeReg r v t = some u) :
    RanCalls (withWriteRegs r v (statusOk u.st) s) u
        (l ++ (frameCalls s.regAddr [regAddress r, v] true u.st ++ [.delay 1])) ∧
      SameReadRegs t u ∧ t.env.time + 1 ≤ u.env.time := by
  obtain ⟨hrun, hread, htime⟩ := writeReg_ranCalls hu
  obtain ⟨⟨-, -, hreg, -⟩, -⟩ := h.same
  rw [hreg] at hrun
  exact ⟨(h.after_writeRegs r v _).trans hrun, hread, htime⟩

theorem causeOf_eq_ite (k : Byte) : causeOf k = if k = 0 then .none else causeOf k := by
  split
  next hk => rw [hk, causeOf_zero]
  next => rfl

/-! ### SET_AUTOSTORE in ENV0 -/

/-- A frame to the STATUS register writes it (R75). -/
theorem RefEnv.endFrame_status {e : RefEnv} {v : Byte} (hv : e.variant = .plain) (hdev : e.txdev = e.regDev)
    (hne : e.memDev ≠ e.regDev) (hbuf : e.txbuf = [regAddress .status, v]) :
    e.endFrame = (0, .ref { e with status := v }) := by
  rw [RefEnv.endFrame_plain hv, RefEnv.deliver, if_neg (hdev ▸ hne.symm), if_pos hdev]
  simp [RefEnv.deliverRegister, hbuf, regAddress]

/-- ENV0 after a SET_AUTOSTORE: bit 1 of STATUS is as asked, and the settling delay has passed (R205, R75). -/
def RefEnv.afterAutostore (e : RefEnv) (en : Bool) : RefEnv :=
  { e with
    rxq := []
    txdev := e.regDev
    txbuf := [regAddress .status, autostoreByte en e.status]
    status := autostoreByte en e.status
    time := e.time + 1 }

/-- SET_AUTOSTORE in ENV0: the first poll finds the chip's STATUS, and the frame that writes it back is taken with
status 0. -/
theorem execSetAutostore_env0 {s : State} {e : RefEnv} (hb : s.bound = true) (h : s.env = .ref e)
    (hv : e.variant = .plain) (hdev : s.regAddr = e.regDev) (hne : e.memDev ≠ e.regDev) (en : Bool) :
    ∃ t, exec (.setAutostore en) s = .next (succeed true t) ∧ t.env = .ref (e.afterAutostore en) ∧ t.st = 0 ∧
      t.sbyte = e.status ∧ t.t0 = e.time ∧
      RanCalls (withWriteRegs .status (autostoreByte en e.status) true s) t
        ([.request s.regAddr 1, .now e.time, .available 1, .read e.status] ++
          (frameCalls s.regAddr [0x00, autostoreByte en e.status] true 0 ++ [.delay 1])) := by
  obtain ⟨u, hread, henv, -, hsbyte, ht0, hrun⟩ := readRequest_register_ranCalls h hv hne hdev
  obtain ⟨⟨-, -, hreg, -⟩, -⟩ := hrun.same
  have hend := RefEnv.endFrame_status
    (e := { e with rxq := [], txdev := u.regAddr, txbuf := [regAddress .status, autostoreByte en e.status] })
    hv (hreg.trans hdev) hne rfl
  obtain ⟨t, hwrite, ht, hst⟩ : ∃ t, writeReg .status (autostoreByte en e.status) u = some t ∧
      t.env = .ref (e.afterAutostore en) ∧ t.st = 0 := by
    refine ⟨_, writeReg_ref henv hend, ?_, rfl⟩
    rw [hreg, hdev]
    rfl
  obtain ⟨hall, ⟨hsbyte', ht0'⟩, -⟩ := hrun.then_writeReg hwrite
  have hexec := execSetAutostore_of_writeReg hb hread (hsbyte ▸ hwrite)
  rw [finishByStatus_eq, hst] at hexec
  rw [hst] at hall
  exact ⟨t, hexec, ht, hst, hsbyte'.trans hsbyte, ht0'.trans ht0, hall⟩

/-! ### The statements -/

/-- Settles O38: the read request is all a query issues, and the query answers the condition or, at the deadline,
false. -/
theorem queryOutcome : Obligations.QueryOutcome := by
  intro p hp s t h
  obtain ⟨-, ok, u, hread, rfl⟩ := (exec_statusQuery_next hp).mp h
  obtain ⟨l, hrun⟩ := readRequest_ranCalls hread
  obtain ⟨hsame, hinputs, hwrite, -⟩ := hrun.same
  obtain ⟨-, hst, hcase⟩ := readRequest_some hread
  refine ⟨hsame, hinputs, hwrite, hst, rfl, ?_⟩
  rcases hcase with ⟨rfl, w, hw, hhit⟩ | ⟨rfl, -, htime, w, hw, hmiss⟩
  · exact .inl ⟨rfl, testMask_iff, w, hw, hhit.issued⟩
  · exact .inr ⟨rfl, rfl, htime, w, hw, hmiss.issued⟩

/-- Settles O39: the first poll of the status read finds the chip's STATUS. -/
theorem queriesCompleteInEnv0 : Obligations.QueriesCompleteInEnv0 := by
  rintro p hp s e hb h ⟨hv, -, -⟩ hdev hne
  obtain ⟨u, hread, henv, hst, hsbyte, ht0, hrun⟩ := readRequest_register_ranCalls h hv hne hdev
  obtain ⟨hsame, hinputs, hwrite, -⟩ := hrun.same
  have hanswer : (queried p.2 true u).rspOk = true ↔ e.status &&& p.2 ≠ 0 := hsbyte ▸ testMask_iff
  exact ⟨queried p.2 true u, (exec_statusQuery_next hp).mpr ⟨hb, true, u, hread, rfl⟩, hanswer, rfl, rfl, hrun.issued,
    hsame, hinputs, hwrite, hst, hsbyte, ht0, sameArrays_of_ref h henv rfl rfl,
    chipStatus_of_ref (e := { e with rxq := [] }) henv, congrArg Env.time henv⟩

/-- Settles O40: a SET_AUTOSTORE ends at the deadline of its status read or after the WRITEREG that follows it. -/
theorem setAutostoreOutcome : Obligations.SetAutostoreOutcome := by
  intro en s t h
  obtain ⟨ok, u, hread, hcase⟩ := execSetAutostore_next h
  obtain ⟨hclock, hst, hwait⟩ := readRequest_some hread
  rcases hcase with ⟨rfl, rfl⟩ | ⟨rfl, v, hv, rfl⟩
  · obtain ⟨hok, -⟩ | ⟨-, -, htime, w, hw, hmiss⟩ := hwait
    · exact nomatch hok
    · obtain ⟨hsame, hinputs, hwrite, -⟩ := hmiss.same
      exact ⟨hsame, hinputs, rfl, .inl ⟨rfl, rfl, htime, hwrite, hst, w, hw, hmiss.issued⟩⟩
  · obtain ⟨-, w, hw, hhit⟩ | ⟨hok, -⟩ := hwait
    · obtain ⟨hrun, ⟨hsbyte, -⟩, htime⟩ := hhit.then_writeReg hv
      obtain ⟨hsame, hinputs, ⟨hreg, hval, hwok⟩, -⟩ := hrun.same
      have hbyte : v.wVal = autostoreByte en v.sbyte := hval.trans (congrArg (autostoreByte en) hsbyte.symm)
      have hissued := respond_issued (ok := statusOk v.st) (cause := causeOf v.st) (d := none) hrun
      rw [← hsbyte, ← hbyte] at hissued
      simp only [List.cons_append, List.append_assoc, List.nil_append] at hissued
      rw [finishByStatus_eq]
      exact ⟨hsame, hinputs, rfl, .inr ⟨statusOk_iff, causeOf_eq_ite v.st,
        (Nat.add_le_add_right hclock 1).trans htime, hreg, hwok, hbyte.trans (autostoreByte_eq en v.sbyte), w, hw,
        hissued⟩⟩
    · exact nomatch hok

/-- Settles O41: the chip takes the byte written back whatever bit 1 was. -/
theorem setAutostoreCompletesInEnv0 : Obligations.SetAutostoreCompletesInEnv0 := by
  rintro en s e hb h ⟨hv, -, -⟩ hdev hne
  obtain ⟨t, hexec, henv, hst, hsbyte, ht0, hrun⟩ := execSetAutostore_env0 hb h hv hdev hne en
  obtain ⟨hsame, hinputs, ⟨hreg, hval, hwok⟩, -⟩ := hrun.same
  have hstatus : t.chipStatus = some t.wVal := (chipStatus_of_ref henv).trans (congrArg some hval.symm)
  have hissued := respond_issued (ok := true) (cause := .none) (d := none) hrun
  rw [← List.append_assoc, show autostoreByte en e.status = t.wVal from hval.symm] at hissued
  exact ⟨_, hexec, rfl, rfl, rfl, hval.trans (autostoreByte_eq en e.status), hstatus, hissued, hsame, hinputs, hreg,
    hwok, hst, hsbyte, ht0, sameArrays_of_ref h henv rfl rfl, congrArg Env.time henv⟩

/-- Settles O42: the environment is ENV0 still, and IS_AUTOSTORE reads the bit that was written. -/
theorem autostoreRoundTrip : Obligations.AutostoreRoundTrip := by
  rintro en s e hb h ⟨hv, -, -⟩ hdev hne
  obtain ⟨t, hset, henv, -, -, -, hrun⟩ := execSetAutostore_env0 hb h hv hdev hne en
  obtain ⟨⟨-, -, hreg, hbound⟩, -⟩ := hrun.same
  obtain ⟨u, hread, -, -, hsbyte, -⟩ := readRequest_register_ranCalls (dev := t.regAddr)
    (s := takeResponse (succeed true t)) (e := e.afterAutostore en) henv hv hne (hreg.trans hdev)
  have hmem : (Instr.isAutostore, 0x02#8) ∈ statusQueries := by simp [statusQueries]
  have hquery : exec .isAutostore (takeResponse (succeed true t)) = .next (queried 0x02 true u) :=
    (exec_statusQuery_next hmem).mpr ⟨hbound.trans hb, true, u, hread, rfl⟩
  have hbit : testMask cfg.stAse u.sbyte = en := by
    rw [testMask_stAse, hsbyte]
    exact (getLsbD_autostoreByte en e.status 1).trans (if_pos rfl)
  exact ⟨_, _, hset, rfl, hquery, hbit, rfl⟩

/-- Settles O8: both parts read the bits of the new byte. -/
theorem autostoreByteChangesOnlyBitOne : Obligations.AutostoreByteChangesOnlyBitOne :=
  fun en b => ⟨(getLsbD_autostoreByte en b 1).trans (if_pos rfl),
    fun k hk => (getLsbD_autostoreByte en b k).trans (if_neg hk)⟩

end Sys2Proof.Machine
end

section
/-! The command port sample by sample (spec/44_sequencer.md R221, R238), and bounds on the calls of one command (R245).
Every command issues its frame, its read request and its delays in one list, so the bounds are sums over the parts. -/

namespace Sys2Proof.Machine

open Sys2Proof

/-! ### One sample -/

/-- A step or a tick on a sample that heads the host's list is what the block does with it. -/
theorem step_eq_onSample {s : State} {h : HostIn} {rest : List HostIn} (hs : s.host = h :: rest) :
    step s = onSample acceptWhole h { s with host := rest } := by
  rw [step, nextSample_of_host hs, consumeSample, hs, List.tail_cons]

theorem tick_eq_onSample {s : State} {h : HostIn} {rest : List HostIn} (hs : s.host = h :: rest) :
    tick s = onSample acceptPhase h { s with host := rest } := by
  rw [tick, nextSample_of_host hs, consumeSample, hs, List.tail_cons]

/-- Outside IDLE a sample matters through `reset` and `rsp_ready` alone (R221). -/
theorem onSample_congr (acc : CmdWord → State → Host.Outcome State Fault Refusal) {h h' : HostIn} {s : State}
    (hp : s.phase ≠ .idle) (hreset : h.reset = h'.reset) (hready : h.rspReady = h'.rspReady) :
    onSample acc h s = onSample acc h' s := by
  simp only [onSample, hreset, hready]
  split
  · rfl
  · split
    case h_1 hidle => exact absurd hidle hp
    all_goals rfl

/-- DONE waits for the host to take the response (R238). -/
theorem onSample_done (acc : CmdWord → State → Host.Outcome State Fault Refusal) {h : HostIn} {s : State}
    (hp : s.phase = .done) (hr : h.reset = false) :
    onSample acc h s = .next (if h.rspReady then takeResponse s else s) := by
  simp [onSample, hp, hr]

/-- The response taken or not, as one write of `phase` (R238). -/
theorem takeResponse_if (ready : Bool) {s : State} (hp : s.phase = .done) :
    (if ready then takeResponse s else s) = { s with phase := if ready then .idle else .done } := by
  cases ready with
  | true => rfl
  | false => rw [← hp]; rfl

/-! ### Table words -/

/-- A word of 32 bits is decoded whole. -/
theorem decodeTableWord_of_lt {w : Nat} (hw : w < 2 ^ 32) :
    decodeTableWord 32 w = some (decode (BitVec.ofNat 32 w)) := by
  have hbits : decodeBits 32 w = .ok (decode (BitVec.ofNat 32 w)) := by
    rw [decodeBits, if_neg (not_not_intro rfl), if_neg (Nat.not_le.mpr hw)]
  rw [decodeTableWord, if_pos (le_refl 32), Nat.mod_eq_of_lt hw, hbits]

/-- Presenting a table word is presenting that word (log 3). -/
theorem withFetchWord_of_lt (s : State) {w : Nat} (hw : w < 2 ^ 32) :
    s.withFetchWord 32 w = presentWord (BitVec.ofNat 32 w) s := by
  rw [State.withFetchWord, Nat.mod_eq_of_lt hw]

/-- The step after `presentWord` runs the word (R221). -/
theorem step_presentWord (cw : CmdWord) (s : State) :
    step (presentWord cw s) = exec (decode cw) (latch cw { s with phase := .idle, host := s.host.tail }) := by
  rw [step_eq_onSample (s := presentWord cw s) rfl]
  exact onSample_accept acceptWhole rfl rfl rfl

/-! ### How many calls of a kind -/

theorem countKind_nil (k : CallKind) : countKind k [] = 0 := rfl

theorem countKind_writes (k : CallKind) (bytes : List Byte) :
    countKind k (bytes.map .write) = if k = .write then bytes.length else 0 := by
  induction bytes with
  | nil => exact (ite_self 0).symm
  | cons b bytes ih =>
    rw [List.map_cons, countKind_cons, ih]
    by_cases hk : k = .write
    · simp [hk, Call.kind]
    · simp [hk, Call.kind, Ne.symm hk]

/-- What the calls of a list come to: the frames opened and closed, the bytes written in them, the read requests with at
most one byte read for each, the initializations and the delays (R243). -/
structure Spends (l : List Call) (frames bytes requests inits delays : Nat) : Prop where
  begin_eq : countKind .begin l = frames
  endFrame_eq : countKind .endFrame l = frames
  write_eq : countKind .write l = bytes
  request_eq : countKind .request l = requests
  read_le : countKind .read l ≤ requests
  init_eq : countKind .init l = inits
  delay_eq : countKind .delay l = delays

theorem Spends.append {l m : List Call} {f b r i d f' b' r' i' d' : Nat} (h : Spends l f b r i d)
    (k : Spends m f' b' r' i' d') : Spends (l ++ m) (f + f') (b + b') (r + r') (i + i') (d + d') := by
  obtain ⟨hf, he, hb, hr, hread, hi, hd⟩ := h
  obtain ⟨kf, ke, kb, kr, kread, ki, kd⟩ := k
  constructor <;> rw [countKind_append] <;> omega

theorem spends_nil : Spends [] 0 0 0 0 0 := ⟨rfl, rfl, rfl, rfl, le_refl _, rfl, rfl⟩

theorem spends_init : Spends [.init] 0 0 0 1 0 := ⟨rfl, rfl, rfl, rfl, le_refl _, rfl, rfl⟩

theorem spends_delay (n : Nat) : Spends [.delay n] 0 0 0 0 1 := ⟨rfl, rfl, rfl, rfl, le_refl _, rfl, rfl⟩

/-- One begin, the bytes, one end (R96). -/
theorem spends_frameCalls {n : Nat} {dev : DevAddr} {bytes : List Byte} {stop : Bool} {st : Byte}
    (hn : bytes.length = n) : Spends (frameCalls dev bytes stop st) 1 n 0 0 0 := by
  subst hn
  constructor <;>
    simp [frameCalls, countKind_cons, countKind_append, countKind_writes, countKind_nil, Call.kind]

/-- A read request that no byte answers (R99). -/
theorem spends_request_miss {w : List Call} (hw : WaitMiss w) (dev : DevAddr) (n : Nat) :
    Spends (.request dev n :: w) 0 0 1 0 0 := by
  constructor <;> simp [countKind_cons, hw.isWait.countKind_eq_zero, Call.kind]

/-- A read request whose byte is read (R99). -/
theorem spends_request_hit {w : List Call} (hw : WaitHit w) (dev : DevAddr) (n : Nat) (x : Byte) :
    Spends (.request dev n :: (w ++ [.read x])) 0 0 1 0 0 := by
  constructor <;>
    simp [countKind_cons, countKind_append, countKind_nil, hw.isWait.countKind_eq_zero, Call.kind]

/-- The bounds of R245 on the calls of one command. -/
def WithinBounds (l : List Call) : Prop :=
  countKind .begin l ≤ 1 ∧ countKind .endFrame l = countKind .begin l ∧ countKind .write l ≤ 3 ∧
    countKind .request l ≤ 1 ∧ countKind .read l ≤ countKind .request l ∧ countKind .init l ≤ 1 ∧
    countKind .delay l ≤ 2

theorem Spends.withinBounds {l : List Call} {f b r i d : Nat} (h : Spends l f b r i d)
    (hle : f ≤ 1 ∧ b ≤ 3 ∧ r ≤ 1 ∧ i ≤ 1 ∧ d ≤ 2) : WithinBounds l := by
  obtain ⟨rfl, he, rfl, rfl, hread, rfl, rfl⟩ := h
  obtain ⟨hf, hb, hr, hi, hd⟩ := hle
  exact ⟨hf, he, hb, hr, hread, hi, hd⟩

/-! ### The calls of each command -/

/-- A command whose calls are, after `first`, a read request alone, from the two ways that request can end. -/
theorem withinBounds_of_request {s t : State} {dev : DevAddr} {first : List Call} {b f i : Nat}
    (hfirst : Spends first f b 0 i 0) (hle : f ≤ 1 ∧ b ≤ 3 ∧ i ≤ 1)
    (h : (∃ w, WaitHit w ∧ Issued s t (first ++ .request dev 1 :: (w ++ [.read t.sbyte]))) ∨
      ∃ w, WaitMiss w ∧ Issued s t (first ++ .request dev 1 :: w)) :
    ∃ l, Issued s t l ∧ WithinBounds l := by
  obtain ⟨hf, hb, hi⟩ := hle
  have hbounds : f + 0 ≤ 1 ∧ b + 0 ≤ 3 ∧ 0 + 1 ≤ 1 ∧ i + 0 ≤ 1 ∧ 0 + 0 ≤ 2 :=
    ⟨hf, hb, le_refl _, hi, Nat.zero_le _⟩
  rcases h with ⟨w, hw, hissued⟩ | ⟨w, hw, hissued⟩
  · exact ⟨_, hissued, (hfirst.append (spends_request_hit hw dev 1 _)).withinBounds hbounds⟩
  · exact ⟨_, hissued, (hfirst.append (spends_request_miss hw dev 1)).withinBounds hbounds⟩

theorem bind_withinBounds {s t : State} {b : BusId} {p1 p2 : Bool} {first : List Call} {n : Nat}
    (h : exec (.bind b p1 p2) s = .next t ∧ first = [] ∨
      exec .bindDefault s = .next t ∧ first = [.init] ∧ b = 0 ∧ p1 = false ∧ p2 = false)
    (hfirst : Spends first 0 0 0 n 0) (hn : n ≤ 1) : ∃ l, Issued s t l ∧ WithinBounds l := by
  obtain ⟨-, -, -, -, -, -, -, -, hcase⟩ := bindOutcome s t b p1 p2 first h
  refine withinBounds_of_request (dev := t.regAddr) hfirst ⟨by decide, by decide, hn⟩ ?_
  rcases hcase with ⟨-, -, hhit⟩ | ⟨-, -, -, hmiss⟩
  · exact .inl hhit
  · exact .inr hmiss

theorem read_withinBounds {a : Addr} {s t : State} (h : exec (.read a) s = .next t) :
    ∃ l, Issued s t l ∧ WithinBounds l := by
  obtain ⟨-, -, -, -, hcase⟩ := readOutcome a s t h
  have hframe (st : Byte) :
      Spends (frameCalls s.memAddr [a.extractLsb' 8 8, a.extractLsb' 0 8] false st) 1 2 0 0 0 := spends_frameCalls rfl
  rcases hcase with ⟨-, -, -, hissued⟩ | ⟨-, -, -, -, hhit⟩ | ⟨-, -, -, -, hmiss⟩
  · exact ⟨_, hissued, (hframe t.st).withinBounds (by decide)⟩
  · exact withinBounds_of_request (hframe 0) (by decide) (.inl hhit)
  · exact withinBounds_of_request (hframe 0) (by decide) (.inr hmiss)

theorem write_withinBounds {a : Addr} {v : Byte} {s t : State} (h : exec (.write a v) s = .next t) :
    ∃ l, Issued s t l ∧ WithinBounds l := by
  obtain ⟨hissued, -⟩ := writeOutcome a v s t h
  exact ⟨_, hissued, (spends_frameCalls (n := 3) rfl).withinBounds (by decide)⟩

theorem getStatus_withinBounds {s t : State} (h : exec .getStatus s = .next t) :
    ∃ l, Issued s t l ∧ WithinBounds l := by
  obtain ⟨-, -, -, -, -, hcase⟩ := getStatusOutcome s t h
  refine withinBounds_of_request (dev := s.regAddr) spends_nil (by decide) ?_
  rcases hcase with ⟨-, -, -, hhit⟩ | ⟨-, -, -, hmiss⟩
  · exact .inl hhit
  · exact .inr hmiss

theorem query_withinBounds {p : Instr × Byte} (hp : p ∈ statusQueries) {s t : State} (h : exec p.1 s = .next t) :
    ∃ l, Issued s t l ∧ WithinBounds l := by
  obtain ⟨-, -, -, -, -, hcase⟩ := queryOutcome p hp s t h
  refine withinBounds_of_request (dev := s.regAddr) spends_nil (by decide) ?_
  rcases hcase with ⟨-, -, hhit⟩ | ⟨-, -, -, hmiss⟩
  · exact .inl hhit
  · exact .inr hmiss

theorem ChipCommandEnded.withinBounds {c : ChipCommand} {s t : State} (h : ChipCommandEnded c s t) :
    ∃ l, Issued s t l ∧ WithinBounds l := by
  have hframe (st : Byte) : Spends (frameCalls s.regAddr [0x55, commandByte c] true st) 1 2 0 0 0 :=
    spends_frameCalls rfl
  have hdelays := (spends_delay 1).append (spends_delay (commandDelay c))
  obtain ⟨-, -, -, -, -, -, -, ⟨-, -, -, -, hissued⟩ | ⟨-, -, -, -, hissued⟩⟩ := h.outcome
  · exact ⟨_, hissued,
      ((hframe 0).append hdelays).withinBounds (by decide)⟩
  · exact ⟨_, hissued,
      ((hframe t.st).append (spends_delay 1)).withinBounds (by decide)⟩

theorem setAutostore_withinBounds {en : Bool} {s t : State} (h : exec (.setAutostore en) s = .next t) :
    ∃ l, Issued s t l ∧ WithinBounds l := by
  obtain ⟨-, -, -, ⟨-, -, -, -, -, hmiss⟩ | ⟨-, -, -, -, -, -, w, hw, hissued⟩⟩ :=
    setAutostoreOutcome en s t h
  · exact withinBounds_of_request (dev := s.regAddr) spends_nil (by decide) (.inr hmiss)
  · have hframe : Spends (frameCalls s.regAddr [0x00, t.wVal] true t.st) 1 2 0 0 0 := spends_frameCalls rfl
    have hspends := (spends_request_hit hw s.regAddr 1 t.sbyte).append (hframe.append (spends_delay 1))
    rw [List.cons_append, List.append_assoc, List.singleton_append] at hspends
    exact ⟨_, hissued, hspends.withinBounds (by decide)⟩

/-! ### The statements -/

/-- Settles O5: a 32-bit table word is itself the word presented, and IDLE accepts what is presented. -/
theorem presentedWordIsRun : Obligations.PresentedWordIsRun := by
  intro s w hw
  rw [withFetchWord_of_lt s hw]
  exact ⟨decodeTableWord_of_lt hw, step_presentWord _ s⟩

/-- Settles O10: the two samples differ in nothing that matters outside IDLE. -/
theorem commandWordIgnoredUnlessIdle : Obligations.CommandWordIgnoredUnlessIdle := by
  intro s rest r y v v' w w' hp
  rw [step_eq_onSample rfl, step_eq_onSample rfl, tick_eq_onSample rfl, tick_eq_onSample rfl]
  exact ⟨onSample_congr _ hp rfl rfl, onSample_congr _ hp rfl rfl⟩

/-- Settles O11: DONE answers `rsp_ready` alone. -/
theorem responseHeldUntilTaken : Obligations.ResponseHeldUntilTaken := by
  intro s h rest hp hs hr
  calc step s
      = onSample acceptWhole h { s with host := rest } := step_eq_onSample hs
    _ = .next (if h.rspReady then takeResponse { s with host := rest } else { s with host := rest }) :=
        onSample_done _ hp hr
    _ = .next { s with host := rest, phase := if h.rspReady then .idle else .done } :=
        congrArg _ (takeResponse_if h.rspReady (s := { s with host := rest }) hp)

/-- Settles O50: a command's calls are at most one frame, one read request and two delays, in whatever order, and an
initialization for BIND_DEFAULT. -/
theorem primitiveCallCounts : Obligations.PrimitiveCallCounts := by
  intro i s t h
  cases i with
  | bind b p1 p2 => exact bind_withinBounds (.inl ⟨h, rfl⟩) spends_nil (by decide)
  | bindDefault => exact bind_withinBounds (.inr ⟨h, rfl, rfl, rfl, rfl⟩) spends_init (le_refl _)
  | read a => exact read_withinBounds h
  | write a v => exact write_withinBounds h
  | getStatus => exact getStatus_withinBounds h
  | store => exact (chipCommandEnded_of_next (c := .store) h).withinBounds
  | recallArray => exact (chipCommandEnded_of_next (c := .recallArray) h).withinBounds
  | isEvent => exact query_withinBounds (p := (.isEvent, 0x01)) (by simp [statusQueries]) h
  | isAutostore => exact query_withinBounds (p := (.isAutostore, 0x02)) (by simp [statusQueries]) h
  | isWrprot => exact query_withinBounds (p := (.isWrprot, 0x1C)) (by simp [statusQueries]) h
  | isModified => exact query_withinBounds (p := (.isModified, 0x80)) (by simp [statusQueries]) h
  | setAutostore en => exact setAutostore_withinBounds h
  | reservedC | reservedD | reservedE | reservedF =>
    cases h
    exact ⟨[], (RanCalls.refl s).issued, spends_nil.withinBounds (by decide)⟩

end Sys2Proof.Machine
end

section
/-! The phase machine against the command rules (spec/44_sequencer.md R222 to R231): the ticks from the dispatch of a
command follow what its meaning does, operation by operation. -/

namespace Sys2Proof.Machine

open Sys2Proof

/-! ### Phases without a call -/

/-- A phase that only writes registers is left with the tick (R220). -/
theorem tick_of_runPhase {i : Instr} {p : Phase} {s t : State} (hi : latched s = i) (hh : s.host = [])
    (hc : p.inCommand = true) (hon : onPath i p = true) (hrun : runPhase i (atPhase p s) = .next t) :
    tick (atPhase p s) = .next t := by
  have hstep : seqStep (atPhase p s) = .next t := by
    have hlatched : latched (atPhase p s) = i := hi
    rw [seqStep, hlatched]
    exact (if_pos hon).trans hrun
  rw [tick_eq_progress (s := atPhase p s) hh hc, progress, hstep]

/-! ### Dispatch -/

/-- The dispatch of a command answers `d` as it should where its meaning answers `x`: it comes to a state from which the
ticks follow the command, or it refuses alike. -/
def DispatchFollows (d x : Host.Outcome State Fault Refusal) : Prop :=
  match x with
  | .next t => ∃ u, d = .next u ∧ Reaches u t
  | .fault f => f = .primitiveNeverReturns ∧ ∃ u, d = .next u ∧ Follows u none
  | .refused r => d = .refused r

theorem dispatchFollows_ranToEnd {u : State} {r : Option State} (h : Follows u r) :
    DispatchFollows (.next u) (ranToEnd r) := by
  cases r with
  | none => exact ⟨rfl, u, rfl, h⟩
  | some t => exact ⟨u, rfl, h⟩

/-- A command that needs a bind is refused at dispatch, or starts in its first phase (R222, U1). -/
theorem dispatchFollows_start {p : Phase} {s s' : State} {r : Option State} (hb : s'.bound = s.bound)
    (h : Follows (atPhase p s') r) : DispatchFollows (start p s') (whenBound s r) := by
  rw [start, whenBound, ← hb]
  split
  · exact dispatchFollows_ranToEnd h
  · exact rfl

/-- A bind is refused at dispatch, or starts in BIND_WR (R222, U3). -/
theorem dispatchFollows_startBind {b : BusId} {s : State} {r : Option State} (h : Follows (atPhase .bindWr s) r) :
    DispatchFollows (startBind b s) (whenTransport b s r) := by
  rw [startBind, whenTransport]
  split
  · exact rfl
  · exact dispatchFollows_ranToEnd h

/-! ### Commands -/

/-- RX_REQ to DONE for a command that answers its read request, as in `readThenRespond_samePersistent`. -/
theorem follows_readThenRespond {i : Instr} {dev : DevAddr} {s : State} (ok : State → Bool)
    (data : State → Option Byte) (hi : latched s = i) (hh : s.host = [])
    (hdev : (deviceMap i (atPhase .rxReq s)).2 = some dev) (hon : onPath i .rxReq = true)
    (hafter : ∀ t, afterByte i (atPhase .rxRead t) = some (respond (ok t) .none (data t) t)) :
    Follows (atPhase .rxReq s) ((readRequest dev s).bind fun r =>
      some (if r.1 then respond (ok r.2) .none (data r.2) r.2 else fail .rspTimeout r.2)) := by
  obtain ⟨-, hpath⟩ := request_of_onPath s hon (by simp)
  exact follows_readRequest _ s hi hh hdev hpath (fun t _ => ⟨_, hafter t, Reaches.refl _⟩)
    fun t _ => Reaches.refl _

/-- BIND (R231). -/
theorem follows_bind {b : BusId} {p1 p2 : Bool} {s : State} (hi : latched s = .bind b p1 p2) (hh : s.host = []) :
    Follows (atPhase .bindWr s) (probe (bindRegs b p1 p2 s)) :=
  Follows.step (t := atPhase .rxReq (bindRegs b p1 p2 s)) (tick_of_runPhase hi hh rfl rfl rfl)
    (follows_readThenRespond (fun _ => true) (fun _ => none) hi hh rfl rfl fun _ => rfl)

/-- BIND_DEFAULT (R231): T_INIT stands before the probe. -/
theorem follows_bindDefault {s : State} (hi : latched s = .bindDefault) (hh : s.host = []) :
    Follows (atPhase .bindWr s) ((tInit (bindRegs cfg.defaultBus false false s)).bind probe) := by
  refine Follows.step (t := atPhase .tInit (bindRegs cfg.defaultBus false false s))
    (tick_of_runPhase hi hh rfl rfl rfl) ?_
  refine follows_phase _ (thenPhase .rxReq) _ hi hh rfl rfl
    (congrArg (leaveBy · (thenPhase .rxReq)) (tInit_atPhase _ _)) fun t ht => ?_
  have hcalls := tInit_callsOnly ht
  exact ⟨_, rfl, follows_readThenRespond (fun _ => true) (fun _ => none) (hcalls.latched.trans hi)
    (hcalls.host.trans hh) rfl rfl fun _ => rfl⟩

/-- READ (R226, R230): a frame that fails ends it, and RX_REQ follows one that does not. -/
theorem follows_read {a : Addr} {s : State} (hi : latched s = .read a) (hh : s.host = []) :
    Follows (atPhase .txBegin s) ((sendFrame (addressFrame a s) s).bind fun s =>
      if statusOk s.st then (readRequest s.memAddr s).bind fun r =>
        some (if r.1 then succeedWith r.2.sbyte r.2 else fail .rspTimeout r.2)
      else some (fail (causeOf s.st) s)) := by
  have hframe : ∀ t, CallsOnly s t →
      frameOf (.read a) t = some ⟨s.memAddr, [addrHigh a, addrLow a], false⟩ := by
    intro t ht
    rw [frameOf, addressFrame, ht]
  refine follows_frame2 _ hi hh hframe (by simp [onPath, path]) fun t ht => ⟨_, rfl, ?_⟩
  change Follows (if statusOk t.st then atPhase .rxReq t else fail (causeOf t.st) t) _
  split
  · exact follows_readThenRespond (fun _ => true) (fun u => some u.sbyte) (ht.latched.trans hi) (ht.host.trans hh)
      rfl rfl fun _ => rfl
  · exact Reaches.refl _

/-- WRITE (R226): one frame of three bytes. -/
theorem follows_write {a : Addr} {v : Byte} {s : State} (hi : latched s = .write a v) (hh : s.host = []) :
    Follows (atPhase .txBegin s) ((sendFrame (arrayFrame a v s) s).bind fun s => some (finishByStatus s)) := by
  have hframe : ∀ t, CallsOnly s t →
      frameOf (.write a v) t = some ⟨s.memAddr, [addrHigh a, addrLow a, v], true⟩ := by
    intro t ht
    rw [frameOf, arrayFrame, ht]
  refine follows_frame3 _ hi hh hframe (by simp [onPath, path]) fun t _ => ⟨_, rfl, ?_⟩
  have hend : finishByStatus (atPhase .txEnd t) = finishByStatus t := by
    rw [finishByStatus_eq, finishByStatus_eq]
    rfl
  exact hend ▸ Reaches.refl _

/-- STORE and RECALL (R226): CMD_WAIT follows a frame that succeeds. -/
theorem follows_chipCommand {i : Instr} {c : ChipCommand} {s : State} (hc : chipCommandOf i = some c)
    (hi : latched s = i) (hh : s.host = []) (hf : ∀ t, frameOf i t = some (registerFrame t))
    (haf : ∀ t, afterFrame i t = some (atPhase .settle t))
    (hon : ∀ p ∈ [Phase.txBegin, .txB0, .txB1, .txEnd, .settle], onPath i p = true)
    (hwait : onPath i .cmdWait = true) :
    Follows (atPhase .txBegin (loadCommand c s)) (runChipCommand c s) := by
  refine follows_writeReg _ s hi hh hf haf hon fun t hti hth _ => ?_
  have hsettle : afterSettle i (atPhase .settle t) = if t.wOk then atPhase .cmdWait t else fail (causeOf t.st) t := by
    rw [afterSettle, hc]
    rfl
  rw [hsettle]
  split
  · refine follows_phase _ (fun s => some (succeed true s)) _ hti hth rfl hwait ?_
      fun u _ => ⟨_, rfl, Reaches.refl _⟩
    change (match chipCommandOf i with | some c => _ | none => _) = _
    rw [hc]
    exact congrArg (leaveBy · _) (tDelay_atPhase _ _ _)
  · exact Reaches.refl _

/-- The operand of SET_AUTOSTORE is the latch `c_en` (R91). -/
theorem cEn_of_latched {en : Bool} {s : State} (hi : latched s = .setAutostore en) : s.cEn = en := by
  unfold latched ofFields at hi
  split at hi
  case h_12 => exact Instr.setAutostore.inj hi
  all_goals exact nomatch hi

/-- SET_AUTOSTORE (R230): MODIFY, then WRITEREG. -/
theorem follows_setAutostore {en : Bool} {s : State} (hi : latched s = .setAutostore en) (hh : s.host = []) :
    Follows (atPhase .rxReq s) ((statusRead s).bind fun r =>
      if r.1 then (writeReg .status (autostoreByte en r.2.sbyte) r.2).bind fun s => some (finishByStatus s)
      else some (fail .rspTimeout r.2)) := by
  have hpath := (request_of_onPath (i := .setAutostore en) s (p := .rxReq) rfl (by simp)).2
  refine follows_readRequest _ s hi hh rfl hpath (fun t ht => ⟨_, rfl, ?_⟩) fun t _ => Reaches.refl _
  have hti := ht.latched.trans hi
  have hth := ht.host.trans hh
  have hmodify : tick (atPhase .modify t) =
      .next (atPhase .txBegin { t with wReg := regAddress .status, wVal := autostoreByte en t.sbyte }) := by
    refine tick_of_runPhase hti hth rfl rfl ?_
    rw [← cEn_of_latched hti]
    rfl
  refine Follows.step hmodify ?_
  refine follows_writeReg _ t hti hth (fun _ => rfl) (fun _ => rfl) (by simp [onPath, path]) fun u _ _ _ => ?_
  have hend : afterSettle (.setAutostore en) (atPhase .settle u) = finishByStatus u := by
    rw [afterSettle, finishByStatus_eq u]
    exact finishByStatus_eq _
  exact hend ▸ Reaches.refl _

/-- The ticks after the dispatch of the latched command follow its meaning. -/
theorem dispatch_follows_exec {s : State} (hh : s.host = []) : DispatchFollows (dispatch s) (exec (latched s) s) := by
  unfold dispatch
  cases hi : latched s with
  | bind b p1 p2 => exact dispatchFollows_startBind (follows_bind hi hh)
  | bindDefault => exact dispatchFollows_startBind (follows_bindDefault hi hh)
  | read a => exact dispatchFollows_start rfl (follows_read hi hh)
  | write a v => exact dispatchFollows_start rfl (follows_write hi hh)
  | getStatus =>
    exact dispatchFollows_start rfl
      (follows_readThenRespond (fun _ => true) (fun u => some u.sbyte) hi hh rfl rfl fun _ => rfl)
  | store | recallArray =>
    exact dispatchFollows_start rfl
      (follows_chipCommand rfl hi hh (fun _ => rfl) (fun _ => rfl) (by decide) (by decide))
  | isEvent | isAutostore | isWrprot | isModified =>
    exact dispatchFollows_start rfl
      (follows_readThenRespond (fun u => testMask _ u.sbyte) (fun _ => none) hi hh rfl rfl fun _ => rfl)
  | setAutostore en => exact dispatchFollows_start rfl (follows_setAutostore hi hh)
  | reservedC | reservedD | reservedE | reservedF => exact ⟨_, rfl, Reaches.refl _⟩

/-- The command run whole is the one the latches hold after acceptance (R91, R221). -/
theorem acceptWhole_eq (cw : CmdWord) (s : State) :
    acceptWhole cw s = exec (latched (latch cw s)) (latch cw s) := rfl

/-- One tick of an accepting IDLE dispatches what the step runs whole (R221, R222). -/
theorem tick_follows_step {s : State} {h : HostIn} (hp : s.phase = .idle) (hs : s.host = [h]) (hr : h.reset = false)
    (hv : h.cmdValid = true) : DispatchFollows (tick s) (step s) := by
  have hidle : ({ s with host := [] } : State).phase = .idle := hp
  rw [tick_eq_onSample hs, step_eq_onSample hs, onSample_accept _ hidle hr hv, onSample_accept _ hidle hr hv,
    acceptWhole_eq]
  exact dispatch_follows_exec (s := latch h.cmdWord { s with host := [] }) rfl

/-- In IDLE a sample without a command does nothing (R221). -/
theorem onSample_idle (acc : CmdWord → State → Host.Outcome State Fault Refusal) {h : HostIn} {s : State}
    (hp : s.phase = .idle) (hr : h.reset = false) (hv : h.cmdValid = false) : onSample acc h s = .next s := by
  simp [onSample, hp, hr, hv]

/-! ### The statement -/

/-- Settles O54: the first tick dispatches the command, and the ticks after it follow the command's operations. -/
theorem ticksReachStep : Obligations.TicksReachStep := by
  intro s t h hp hs hr hstep
  cases hv : h.cmdValid with
  | true =>
    have hfollows := tick_follows_step hp hs hr hv
    rw [hstep] at hfollows
    obtain ⟨u, htick, hreach⟩ := hfollows
    exact Reaches.step htick hreach
  | false =>
    have hidle : ({ s with host := [] } : State).phase = .idle := hp
    rw [step_eq_onSample hs, onSample_idle _ hidle hr hv] at hstep
    refine Reaches.step ?_ (Reaches.refl t)
    rw [tick_eq_onSample hs, onSample_idle _ hidle hr hv, hstep]

end Sys2Proof.Machine
end

section
/-! Two runs of one command from states that agree on the binding and on the environment (spec/44_sequencer.md R241,
R244): operation by operation they make the same calls, and they end alike. One relation says that two runs have kept
together so far. -/

namespace Sys2Proof.Machine

open Sys2Proof

/-! ### Runs that keep together -/

/-- Two runs, started where the logs held `a` and `b`, have come to `s` and `u`: the binding and the environment are the
same in both, and both have issued the same calls since. -/
structure Together (a b : List Event) (s u : State) : Prop where
  binding : SamePersistent s u
  env : u.env = s.env
  calls : ∃ l, s.log = (onBus s.bus l).reverse ++ a ∧ u.log = (onBus s.bus l).reverse ++ b

/-- Two computations that both return or both do not go on as two that do. -/
theorem optionRel_bind {α β : Type} {R : α → α → Prop} {Q : β → β → Prop} {x y : Option α} {f g : α → Option β}
    (h : Option.Rel R x y) (hf : ∀ {r q}, R r q → Option.Rel Q (f r) (g q)) : Option.Rel Q (x.bind f) (y.bind g) := by
  cases h with
  | none => exact .none
  | some h => exact hf h

/-- A call that both runs make with the same answer. -/
theorem optionRel_map {α β : Type} {R : β → β → Prop} (x : Option α) {f g : α → β} (h : ∀ r, R (f r) (g r)) :
    Option.Rel R (x.map f) (x.map g) := by
  cases x with
  | none => exact .none
  | some r => exact .some (h r)

theorem optionRel_ite {α : Type} {R : α → α → Prop} {p : Prop} [Decidable p] {x x' y y' : Option α}
    (hx : p → Option.Rel R x x') (hy : ¬p → Option.Rel R y y') :
    Option.Rel R (if p then x else y) (if p then x' else y') := by
  split
  next hp => exact hx hp
  next hp => exact hy hp

theorem Together.start {s u : State} (hp : SamePersistent s u) (he : u.env = s.env) : Together s.log u.log s u :=
  ⟨hp, he, [], rfl, rfl⟩

section
variable {a b : List Event} {s u : State} (h : Together a b s u)
include h

/-- Both runs issue one more call, with the same answer. -/
theorem Together.note (c : Call) (e : Env) : Together a b (s.note c e) (u.note c e) := by
  obtain ⟨hp, -, l, hs, hu⟩ := h
  have hbus : u.bus = s.bus := hp.1
  refine ⟨hp, rfl, l ++ [c], ?_, ?_⟩
  · simp [hs, onBus]
  · simp [hu, hbus, onBus]

theorem Together.regAddr : u.regAddr = s.regAddr := by
  obtain ⟨-, -, hreg, -⟩ := h.binding
  exact hreg

theorem Together.memAddr : u.memAddr = s.memAddr := by
  obtain ⟨-, hmem, -⟩ := h.binding
  exact hmem

/-! ### Primitive calls -/

theorem tInit_together : Option.Rel (Together a b) (tInit s) (tInit u) := by
  rw [tInit, tInit, h.env]
  exact optionRel_map _ fun e => h.note _ e

theorem tBegin_together (d : DevAddr) : Option.Rel (Together a b) (tBegin d s) (tBegin d u) := by
  rw [tBegin, tBegin, h.env]
  exact optionRel_map _ fun e => h.note _ e

theorem tWrite_together (x : Byte) : Option.Rel (Together a b) (tWrite x s) (tWrite x u) := by
  rw [tWrite, tWrite, h.env]
  exact optionRel_map _ fun e => h.note _ e

theorem tRequest_together (d : DevAddr) (n : Nat) : Option.Rel (Together a b) (tRequest d n s) (tRequest d n u) := by
  rw [tRequest, tRequest, h.env]
  exact optionRel_map _ fun e => h.note _ e

theorem tDelay_together (n : Nat) :
    Option.Rel (fun s' u' => Together a b s' u' ∧ (u.st = s.st → u'.st = s'.st)) (tDelay n s) (tDelay n u) := by
  rw [tDelay, tDelay, h.env]
  exact optionRel_map _ fun e => ⟨h.note _ e, id⟩

theorem tEnd_together (stop : Bool) :
    Option.Rel (fun s' u' => Together a b s' u' ∧ u'.st = s'.st) (tEnd stop s) (tEnd stop u) := by
  rw [tEnd, tEnd, h.env]
  refine optionRel_map _ fun r => ?_
  obtain ⟨hp, he, hl⟩ := h.note (.endFrame stop r.1) r.2
  exact ⟨⟨hp, he, hl⟩, rfl⟩

theorem tRead_together : Option.Rel (fun s' u' => Together a b s' u' ∧ u'.sbyte = s'.sbyte) (tRead s) (tRead u) := by
  rw [tRead, tRead, h.env]
  refine optionRel_map _ fun r => ?_
  obtain ⟨hp, he, hl⟩ := h.note (.read r.1) r.2
  exact ⟨⟨hp, he, hl⟩, rfl⟩

/-- A call that a wait makes returns the same value in both runs, and neither moves the start of the wait. -/
theorem tAvailable_together :
    Option.Rel (fun r q => q.1 = r.1 ∧ Together a b r.2 q.2 ∧ (u.t0 = s.t0 → q.2.t0 = r.2.t0))
      (tAvailable s) (tAvailable u) := by
  rw [tAvailable, tAvailable, h.env]
  exact optionRel_map _ fun r => ⟨rfl, h.note _ r.2, id⟩

theorem tNow_together :
    Option.Rel (fun r q => q.1 = r.1 ∧ Together a b r.2 q.2 ∧ (u.t0 = s.t0 → q.2.t0 = r.2.t0))
      (tNow s) (tNow u) := by
  rw [tNow, tNow, h.env]
  exact optionRel_map _ fun r => ⟨rfl, h.note _ r.2, id⟩

end

/-! ### Operations -/

section
variable {a b : List Event}

theorem tWrites_together {bytes : List Byte} {s u : State} (h : Together a b s u) :
    Option.Rel (Together a b) (tWrites bytes s) (tWrites bytes u) := by
  induction bytes generalizing s u with
  | nil => exact .some h
  | cons x bytes ih => exact optionRel_bind (tWrite_together h x) ih

/-- A frame ends with the same status in both runs (R96). -/
theorem sendFrame_together {s u : State} (h : Together a b s u) (f : Frame) :
    Option.Rel (fun s' u' => Together a b s' u' ∧ u'.st = s'.st) (sendFrame f s) (sendFrame f u) :=
  optionRel_bind (tBegin_together h f.dev) fun h => optionRel_bind (tWrites_together h) fun h => tEnd_together h f.stop

/-- Two waits that started at the same time end alike (R62). -/
theorem pollLoop_together {n : Nat} {s u : State} (h : Together a b s u) (ht : u.t0 = s.t0) :
    Option.Rel (fun r q => q.1 = r.1 ∧ Together a b r.2 q.2) (pollLoop n s) (pollLoop n u) := by
  induction n generalizing s u with
  | zero => exact .none
  | succ n ih =>
    refine optionRel_bind (tAvailable_together h) ?_
    rintro ⟨_, s'⟩ ⟨count, u'⟩ ⟨rfl, h', ht'⟩
    refine optionRel_ite (fun _ => .some ⟨rfl, h'⟩) fun _ => optionRel_bind (tNow_together h') ?_
    rintro ⟨_, s''⟩ ⟨now, u''⟩ ⟨rfl, h'', ht''⟩
    have hstart : u''.t0 = s''.t0 := ht'' (ht' ht)
    simp only [hstart]
    exact optionRel_ite (fun _ => .some ⟨rfl, h''⟩) fun _ => ih h'' hstart

theorem awaitByte_together {s u : State} (h : Together a b s u) :
    Option.Rel (fun r q => q.1 = r.1 ∧ Together a b r.2 q.2) (awaitByte s) (awaitByte u) := by
  refine optionRel_bind (tNow_together h) ?_
  rintro ⟨_, s'⟩ ⟨now, u'⟩ ⟨rfl, ⟨hp, he, hl⟩, -⟩
  have hbound : u'.env.pollBound = s'.env.pollBound := congrArg Env.pollBound he
  change Option.Rel _ (pollLoop s'.env.pollBound { s' with t0 := now })
    (pollLoop u'.env.pollBound { u' with t0 := now })
  rw [hbound]
  exact pollLoop_together ⟨hp, he, hl⟩ rfl

/-- A read request finds a byte in both runs or in neither, and the same byte (R99). -/
theorem readRequest_together {s u : State} (h : Together a b s u) (dev : DevAddr) :
    Option.Rel (fun r q => q.1 = r.1 ∧ Together a b r.2 q.2 ∧ (r.1 = true → q.2.sbyte = r.2.sbyte))
      (readRequest dev s) (readRequest dev u) := by
  refine optionRel_bind (tRequest_together h dev 1) fun h => optionRel_bind (awaitByte_together h) ?_
  rintro ⟨_, s'⟩ ⟨ok, u'⟩ ⟨rfl, h'⟩
  cases ok with
  | true => exact optionRel_bind (tRead_together h') fun ⟨h, hbyte⟩ => .some ⟨rfl, h, fun _ => hbyte⟩
  | false => exact .some ⟨rfl, h', nofun⟩

/-- WRITEREG ends with the same status and the same success in both runs (R172). -/
theorem writeReg_together {s u : State} (h : Together a b s u) (r : LogicalReg) (v : Byte) :
    Option.Rel (fun s' u' => Together a b s' u' ∧ u'.st = s'.st ∧ u'.wOk = s'.wOk)
      (writeReg r v s) (writeReg r v u) := by
  have hload : Together a b { s with wReg := regAddress r, wVal := v } { u with wReg := regAddress r, wVal := v } :=
    ⟨h.binding, h.env, h.calls⟩
  have hframe : registerFrame { u with wReg := regAddress r, wVal := v } =
      registerFrame { s with wReg := regAddress r, wVal := v } := by
    simp only [registerFrame, h.regAddr]
  simp only [writeReg, hframe]
  refine optionRel_bind (sendFrame_together hload _) fun ⟨h, hst⟩ => ?_
  refine optionRel_bind (tDelay_together h _) fun ⟨h, hkeep⟩ => ?_
  exact .some ⟨⟨h.binding, h.env, h.calls⟩, hkeep hst, congrArg statusOk (hkeep hst)⟩

/-! ### The ends of commands -/

/-- The commands whose success carries a byte (R95). -/
def AnswersByte (i : Instr) : Prop := i = .getStatus ∨ ∃ a, i = .read a

/-- Both runs of the command `i` have ended, with the same response wherever it is defined (R244). -/
structure EndTogether (i : Instr) (a b : List Event) (s u : State) : Prop where
  run : Together a b s u
  ok : u.rspOk = s.rspOk
  cause : u.rspCause = s.rspCause
  data : s.rspOk = true → AnswersByte i → u.rspData = s.rspData

variable {i : Instr}

theorem respond_together {s u : State} (h : Together a b s u) {ok : Bool} {d : Option Byte} (c : Cause)
    (hd : ok = true → AnswersByte i → d.isSome) : EndTogether i a b (respond ok c d s) (respond ok c d u) := by
  refine ⟨⟨h.binding, h.env, h.calls⟩, rfl, rfl, fun hok hi => ?_⟩
  obtain ⟨x, rfl⟩ := Option.isSome_iff_exists.mp (hd hok hi)
  rfl

theorem fail_together {s u : State} (h : Together a b s u) (c : Cause) :
    EndTogether i a b (fail c s) (fail c u) := respond_together h c nofun

theorem finishByStatus_together {s u : State} (h : Together a b s u) (hst : u.st = s.st) (hi : ¬AnswersByte i) :
    EndTogether i a b (finishByStatus s) (finishByStatus u) := by
  rw [finishByStatus_eq, finishByStatus_eq, hst]
  exact respond_together h _ fun _ h => absurd h hi

/-- A read request whose result is the response, as in `readThenRespond_samePersistent`: `ok` and `data` depend on the
byte alone. -/
theorem readThenRespond_together {s u : State} (h : Together a b s u) (dev : DevAddr) (ok : Byte → Bool)
    (data : Byte → Option Byte) (hd : AnswersByte i → ∀ x, (data x).isSome) :
    Option.Rel (EndTogether i a b)
      ((readRequest dev s).bind fun r =>
        some (if r.1 then respond (ok r.2.sbyte) .none (data r.2.sbyte) r.2 else fail .rspTimeout r.2))
      ((readRequest dev u).bind fun r =>
        some (if r.1 then respond (ok r.2.sbyte) .none (data r.2.sbyte) r.2 else fail .rspTimeout r.2)) := by
  refine optionRel_bind (readRequest_together h dev) ?_
  rintro ⟨_, s'⟩ ⟨came, u'⟩ ⟨rfl, h', hbyte⟩
  cases came with
  | true =>
    have hsbyte : u'.sbyte = s'.sbyte := hbyte rfl
    simp only [hsbyte]
    exact .some (respond_together h' _ fun _ hi => hd hi _)
  | false => exact .some (fail_together h' _)

/-! ### Commands -/

theorem probe_together {s u : State} (h : Together a b s u) (hi : ¬AnswersByte i) :
    Option.Rel (EndTogether i a b) (probe s) (probe u) := by
  have hrun := readThenRespond_together h s.regAddr (fun _ => true) (fun _ => none) fun hb => absurd hb hi
  rw [probe, probe, statusRead, statusRead, h.regAddr]
  exact hrun

theorem query_together {s u : State} (h : Together a b s u) (mask : Byte) (hi : ¬AnswersByte i) :
    Option.Rel (EndTogether i a b) (query mask s) (query mask u) := by
  have hrun := readThenRespond_together h s.regAddr (testMask mask) (fun _ => none) fun hb => absurd hb hi
  rw [query, query, statusRead, statusRead, h.regAddr]
  exact hrun

/-- STORE and RECALL (R174, R176). -/
theorem runChipCommand_together {s u : State} (h : Together a b s u) (c : ChipCommand) (hi : ¬AnswersByte i) :
    Option.Rel (EndTogether i a b) (runChipCommand c s) (runChipCommand c u) := by
  refine optionRel_bind (writeReg_together h _ _) fun ⟨h, hst, hok⟩ => ?_
  simp only [hok, hst]
  refine optionRel_ite (fun _ => optionRel_bind (tDelay_together h _) fun ⟨h, _⟩ => ?_) fun _ => ?_
  · exact .some (respond_together h _ fun _ hb => absurd hb hi)
  · exact .some (fail_together h _)

end

/-- Two runs answer alike: both come to a next state, in states of the relation, or both stop for the same reason. -/
def SameOutcome (R : State → State → Prop) : (x y : Host.Outcome State Fault Refusal) → Prop
  | .next t, .next v => R t v
  | .fault f, .fault g => g = f
  | .refused r, .refused q => q = r
  | _, _ => False

theorem SameOutcome.of_next {R : State → State → Prop} {t : State} {y : Host.Outcome State Fault Refusal}
    (h : SameOutcome R (.next t) y) : ∃ v, y = .next v ∧ R t v := by
  cases y with
  | next v => exact ⟨v, rfl, h⟩
  | fault | refused => exact h.elim

theorem SameOutcome.of_fault {R : State → State → Prop} {f : Fault} {y : Host.Outcome State Fault Refusal}
    (h : SameOutcome R (.fault f) y) : y = .fault f := by
  cases y with
  | fault g => exact congrArg _ h
  | next | refused => exact h.elim

theorem SameOutcome.of_refused {R : State → State → Prop} {r : Refusal} {y : Host.Outcome State Fault Refusal}
    (h : SameOutcome R (.refused r) y) : y = .refused r := by
  cases y with
  | refused q => exact congrArg _ h
  | next | fault => exact h.elim

theorem sameOutcome_ranToEnd {R : State → State → Prop} {x y : Option State} (h : Option.Rel R x y) :
    SameOutcome R (ranToEnd x) (ranToEnd y) := by
  cases h with
  | none => exact rfl
  | some h => exact h

theorem sameOutcome_whenBound {R : State → State → Prop} {s u : State} {x y : Option State} (hp : SamePersistent s u)
    (h : Option.Rel R x y) : SameOutcome R (whenBound s x) (whenBound u y) := by
  obtain ⟨-, -, -, hbound⟩ := hp
  rw [whenBound, whenBound, hbound]
  split
  · exact sameOutcome_ranToEnd h
  · exact rfl

theorem sameOutcome_whenTransport {R : State → State → Prop} {s u : State} {x y : Option State} (b : BusId)
    (hd : u.deadBuses = s.deadBuses) (h : Option.Rel R x y) :
    SameOutcome R (whenTransport b s x) (whenTransport b u y) := by
  rw [whenTransport, whenTransport, hd]
  split
  · exact rfl
  · exact sameOutcome_ranToEnd h

section
variable {s u : State} (hp : SamePersistent s u) (he : u.env = s.env)
include hp he

theorem execRead_together (a : Addr) :
    SameOutcome (EndTogether (.read a) s.log u.log) (execRead a s) (execRead a u) := by
  have hstart := Together.start hp he
  have hframe : addressFrame a u = addressFrame a s := by rw [addressFrame, hstart.memAddr, addressFrame]
  rw [execRead, execRead, hframe]
  refine sameOutcome_whenBound hp (optionRel_bind (sendFrame_together hstart _) fun {s' u'} ⟨h, hst⟩ => ?_)
  have hrun := readThenRespond_together (i := .read a) h s'.memAddr (fun _ => true) some fun _ _ => rfl
  simp only [hst, h.memAddr]
  exact optionRel_ite (fun _ => hrun) fun _ => .some (fail_together h _)

theorem execWrite_together (a : Addr) (v : Byte) :
    SameOutcome (EndTogether (.write a v) s.log u.log) (execWrite a v s) (execWrite a v u) := by
  have hstart := Together.start hp he
  have hframe : arrayFrame a v u = arrayFrame a v s := by rw [arrayFrame, hstart.memAddr, arrayFrame]
  rw [execWrite, execWrite, hframe]
  exact sameOutcome_whenBound hp (optionRel_bind (sendFrame_together hstart _) fun ⟨h, hst⟩ =>
    .some (finishByStatus_together h hst (by simp [AnswersByte])))

theorem execGetStatus_together :
    SameOutcome (EndTogether .getStatus s.log u.log) (execGetStatus s) (execGetStatus u) := by
  have hstart := Together.start hp he
  have hrun := readThenRespond_together (i := .getStatus) hstart s.regAddr (fun _ => true) some fun _ _ => rfl
  rw [execGetStatus, execGetStatus, statusRead, statusRead, hstart.regAddr]
  exact sameOutcome_whenBound hp hrun

theorem execSetAutostore_together (en : Bool) :
    SameOutcome (EndTogether (.setAutostore en) s.log u.log) (execSetAutostore en s) (execSetAutostore en u) := by
  have hstart := Together.start hp he
  rw [execSetAutostore, execSetAutostore, statusRead, statusRead, hstart.regAddr]
  refine sameOutcome_whenBound hp (optionRel_bind (readRequest_together hstart _) ?_)
  rintro ⟨_, s'⟩ ⟨ok, u'⟩ ⟨rfl, h, hbyte⟩
  cases ok with
  | true =>
    have hsbyte : u'.sbyte = s'.sbyte := hbyte rfl
    simp only [hsbyte]
    exact optionRel_bind (writeReg_together h _ _) fun ⟨h, hst, _⟩ =>
      .some (finishByStatus_together h hst (by simp [AnswersByte]))
  | false => exact .some (fail_together h _)

/-- Two runs of a command from states that agree on the binding, the environment and the platform end alike. -/
theorem exec_together (hd : u.deadBuses = s.deadBuses) (i : Instr) :
    SameOutcome (EndTogether i s.log u.log) (exec i s) (exec i u) := by
  have hstart := Together.start hp he
  have hbind (b : BusId) (p1 p2 : Bool) : Together s.log u.log (bindRegs b p1 p2 s) (bindRegs b p1 p2 u) :=
    Together.start (s := bindRegs b p1 p2 s) (u := bindRegs b p1 p2 u) ⟨rfl, rfl, rfl, rfl⟩ he
  cases i with
  | bind b p1 p2 =>
    exact sameOutcome_whenTransport b hd (probe_together (hbind b p1 p2) (by simp [AnswersByte]))
  | bindDefault =>
    exact sameOutcome_whenTransport cfg.defaultBus hd
      (optionRel_bind (tInit_together (hbind _ _ _)) fun h => probe_together h (by simp [AnswersByte]))
  | read a => exact execRead_together hp he a
  | write a v => exact execWrite_together hp he a v
  | getStatus => exact execGetStatus_together hp he
  | store | recallArray =>
    exact sameOutcome_whenBound hp (runChipCommand_together hstart _ (by simp [AnswersByte]))
  | isEvent | isAutostore | isWrprot | isModified =>
    exact sameOutcome_whenBound hp (query_together hstart _ (by simp [AnswersByte]))
  | setAutostore en => exact execSetAutostore_together hp he en
  | reservedC | reservedD | reservedE | reservedF => exact fail_together hstart _

end

/-! ### The statement -/

/-- Settles O57: the two runs keep together from their first call to their response. -/
theorem historyDoesNotMatter : Obligations.HistoryDoesNotMatter := by
  intro i s u hp he hd
  have hsame := exec_together hp he hd i
  refine ⟨fun t ht => ?_, fun f hf => ?_, fun r hr => ?_⟩
  · rw [ht] at hsame
    obtain ⟨v, hv, ⟨hpersist, henv, l, hlog, hlog'⟩, hok, hcause, hdata⟩ := hsame.of_next
    have hbus : v.bus = t.bus := hpersist.1
    exact ⟨v, l, hv, issued_of_log hlog, issued_of_log (hbus ▸ hlog'), hok, hcause, henv, hpersist, hdata⟩
  · exact (hf ▸ hsame).of_fault
  · exact (hr ▸ hsame).of_refused

end Sys2Proof.Machine
end

section
/-! In ENV0 every command completes (spec/44_sequencer.md R245; spec/20_memory.md R75): whatever the device addresses
held and the chip's content, every frame and every read request comes back, and the transport stays plain. -/

namespace Sys2Proof.Machine

open Sys2Proof

/-! ### Frames -/

/-- A result of `T.end` that leaves the plain reference environment (R75). -/
def LeavesPlain (r : Byte × Env) : Prop := ∃ f : RefEnv, r.2 = .ref f ∧ f.variant = .plain

/-- With a capacity of 65536 every address is below it, so a run of bytes is stored to its end (R51, R75). -/
theorem RefEnv.storeRun_leavesPlain {bytes : List Byte} {e : RefEnv} (hv : e.variant = .plain) (hc : e.cap = 65536) :
    LeavesPlain (RefEnv.storeRun bytes e) := by
  induction bytes generalizing e with
  | nil => exact ⟨e, rfl, hv⟩
  | cons b bytes ih =>
    have hptr : e.ptr.toNat < e.cap := hc ▸ e.ptr.isLt
    rw [RefEnv.storeRun, if_pos hptr]
    exact ih hv hc

theorem RefEnv.deliverArray_leavesPlain {e : RefEnv} (hv : e.variant = .plain) (hc : e.cap = 65536) :
    LeavesPlain e.deliverArray := by
  unfold RefEnv.deliverArray
  split
  · exact ⟨_, rfl, hv⟩
  · exact RefEnv.storeRun_leavesPlain hv hc
  · exact ⟨e, rfl, hv⟩

/-- With no store or recall running, the chip takes any frame to its control registers (R75, R178). -/
theorem RefEnv.deliverRegister_leavesPlain {e : RefEnv} (hv : e.variant = .plain) (hidle : e.busyUntil ≤ e.time) :
    LeavesPlain e.deliverRegister := by
  unfold RefEnv.deliverRegister
  split
  · split
    · exact ⟨_, rfl, hv⟩
    · split
      · split
        · rw [RefEnv.runCommand_of_idle hidle]
          exact ⟨_, rfl, hv⟩
        · split
          · rw [RefEnv.runCommand_of_idle hidle]
            exact ⟨_, rfl, hv⟩
          · exact ⟨_, rfl, hv⟩
      · exact ⟨_, rfl, hv⟩
  · exact ⟨_, rfl, hv⟩

/-- In ENV0 every frame ends, whatever device and bytes it has (R75). -/
theorem RefEnv.endFrame_leavesPlain {e : RefEnv} (h : e.isEnv0) : LeavesPlain e.endFrame := by
  obtain ⟨hv, hc, hidle⟩ := h
  rw [RefEnv.endFrame_plain hv, RefEnv.deliver]
  split
  · exact RefEnv.deliverArray_leavesPlain hv hc
  · split
    · exact RefEnv.deliverRegister_leavesPlain hv hidle
    · exact ⟨e, rfl, hv⟩

/-- The frame of a command in ENV0, with its bytes and device put on the bus. -/
theorem endFrame_of_isEnv0 {e : RefEnv} (h : e.isEnv0) (dev : DevAddr) (bytes : List Byte) :
    ∃ k f, ({ e with txdev := dev, txbuf := bytes } : RefEnv).endFrame = (k, .ref f) ∧ f.variant = .plain := by
  obtain ⟨f, hf, hv⟩ := RefEnv.endFrame_leavesPlain (e := { e with txdev := dev, txbuf := bytes }) h
  exact ⟨_, f, Prod.ext rfl hf, hv⟩

/-! ### Read requests -/

/-- A read request at plain ENV0 writes the receive queue and, at the array, moves the chip's address (R75). -/
theorem RefEnv.request_plain {e : RefEnv} (hv : e.variant = .plain) (dev : DevAddr) :
    ∃ q p, RefEnv.request dev 1 e = { e with rxq := q, ptr := p } := by
  simp only [RefEnv.request, hv, RefEnv.queue]
  split
  · exact ⟨_, _, rfl⟩
  · split
    · exact ⟨_, e.ptr, rfl⟩
    · exact ⟨[], e.ptr, rfl⟩

/-- A read request in ENV0 ends, with a byte or at the deadline, in ENV0 (R62, R75). -/
theorem readRequest_env0 {dev : DevAddr} {s : State} {e : RefEnv} (h : s.env = .ref e) (he : e.isEnv0) :
    ∃ ok t f, readRequest dev s = some (ok, t) ∧ t.env = .ref f ∧ f.isEnv0 := by
  obtain ⟨hv, hc, hidle⟩ := he
  obtain ⟨q, p, hrequest⟩ := RefEnv.request_plain hv dev
  have hunseen : e.busyUnseen = false := by rw [RefEnv.busyUnseen, hv]
  rw [readRequest_ref h hunseen hrequest]
  cases q with
  | nil =>
    rw [pollLoop_empty 2999 _ { e with rxq := [], ptr := p } _ rfl (.inl hv) rfl rfl (by decide)]
    exact ⟨false, _, _, rfl, rfl, hv, hc, hidle.trans (Nat.le_add_right _ _)⟩
  | cons b q =>
    rw [pollLoop_hit (e := { e with rxq := b :: q, ptr := p }) rfl (.inl hv) rfl]
    exact ⟨true, _, _, rfl, rfl, hv, hc, hidle⟩

/-! ### Commands -/

section
variable {s : State} {e : RefEnv} (h : s.env = .ref e) (he : e.isEnv0)
include h he

/-- A bind that names a transport (R131, R132). -/
theorem BindForm.done_env0 {i : Instr} {b : BusId} {p1 p2 : Bool} {first : List Call}
    (hf : BindForm i b p1 p2 first) (hb : b ∉ s.deadBuses) : ∃ t, exec i s = .next t ∧ t.phase = .done := by
  obtain ⟨u, -, henv, -, hexec⟩ := hf.exec_ref h hb
  obtain ⟨ok, v, -, hread, -⟩ := readRequest_plain (dev := u.regAddr) henv he.1
  exact ⟨_, hexec hread, rfl⟩

variable (hb : s.bound = true)
include hb

theorem read_done_env0 (a : Addr) : ∃ t, exec (.read a) s = .next t ∧ t.phase = .done := by
  obtain ⟨k, f, hend, hv⟩ := endFrame_of_isEnv0 he s.memAddr [addrHigh a, addrLow a]
  obtain ⟨u, hu, henv, hst, -⟩ := sendFrame_of_endFrame (f := addressFrame a s) h hend
  by_cases hk : u.st = 0
  · obtain ⟨ok, v, -, hread, -⟩ := readRequest_plain (dev := u.memAddr) henv hv
    exact ⟨_, execRead_of_readRequest hb hu hk hread, rfl⟩
  · exact ⟨_, execRead_of_failed_frame hb hu hk, rfl⟩

theorem write_done_env0 (a : Addr) (v : Byte) : ∃ t, exec (.write a v) s = .next t ∧ t.phase = .done := by
  obtain ⟨k, f, hend, -⟩ := endFrame_of_isEnv0 he s.memAddr [addrHigh a, addrLow a, v]
  obtain ⟨u, hu, -⟩ := sendFrame_of_endFrame (f := arrayFrame a v s) h hend
  refine ⟨_, execWrite_of_sendFrame hb hu, ?_⟩
  rw [finishByStatus_eq]
  rfl

theorem getStatus_done_env0 : ∃ t, exec .getStatus s = .next t ∧ t.phase = .done := by
  obtain ⟨ok, u, -, hread, -⟩ := readRequest_plain (dev := s.regAddr) h he.1
  exact ⟨_, execGetStatus_of_readRequest hb hread, rfl⟩

theorem query_done_env0 {p : Instr × Byte} (hp : p ∈ statusQueries) :
    ∃ t, exec p.1 s = .next t ∧ t.phase = .done := by
  obtain ⟨ok, u, -, hread, -⟩ := readRequest_plain (dev := s.regAddr) h he.1
  exact ⟨_, (exec_statusQuery_next hp).mpr ⟨hb, ok, u, hread, rfl⟩, rfl⟩

theorem chipCommand_done_env0 (c : ChipCommand) :
    ∃ t, whenBound s (runChipCommand c s) = .next t ∧ t.phase = .done := by
  obtain ⟨k, f, hend, -⟩ := endFrame_of_isEnv0 he s.regAddr [regAddress .command, commandByte c]
  obtain ⟨t, hexec, hended, -⟩ := runChipCommand_ref hb h hend
  exact ⟨t, hexec, hended.phase⟩

/-- SET_AUTOSTORE sends its frame after a read request that leaves the chip idle (R205). -/
theorem setAutostore_done_env0 (en : Bool) : ∃ t, exec (.setAutostore en) s = .next t ∧ t.phase = .done := by
  obtain ⟨ok, u, f, hread, henv, hf⟩ := readRequest_env0 (dev := s.regAddr) h he
  cases ok with
  | true =>
    obtain ⟨k, g, hend, -⟩ := endFrame_of_isEnv0 hf u.regAddr
      [regAddress .status, autostoreByte en u.sbyte]
    refine ⟨_, execSetAutostore_of_writeReg hb hread (writeReg_ref henv hend), ?_⟩
    rw [finishByStatus_eq]
    rfl
  | false => exact ⟨fail .rspTimeout u, whenBound_next.mpr ⟨hb, by simp [statusRead, hread]⟩, rfl⟩

end

/-! ### The statement -/

/-- Settles O58: every frame and every read request of ENV0 ends, and with the last of them the command. -/
theorem everyCommandCompletesInEnv0 : Obligations.EveryCommandCompletesInEnv0 := by
  intro i s e h he hbind hdefault hstart
  have hbound (hi : i.isBind = false) (hr : i.isReserved = false) : s.bound = true := by
    simpa [hi, hr] using hstart
  cases i with
  | bind b p1 p2 => exact BindForm.done_env0 h he (.inl ⟨rfl, rfl⟩) (hbind b p1 p2 rfl)
  | bindDefault => exact BindForm.done_env0 h he (.inr ⟨rfl, rfl, rfl, rfl, rfl⟩) (hdefault rfl)
  | reservedC | reservedD | reservedE | reservedF => exact ⟨_, exec_of_isReserved rfl s, rfl⟩
  | read a => exact read_done_env0 h he (hbound rfl rfl) a
  | write a v => exact write_done_env0 h he (hbound rfl rfl) a v
  | getStatus => exact getStatus_done_env0 h he (hbound rfl rfl)
  | store => exact chipCommand_done_env0 h he (hbound rfl rfl) .store
  | recallArray => exact chipCommand_done_env0 h he (hbound rfl rfl) .recallArray
  | isEvent => exact query_done_env0 h he (hbound rfl rfl) (p := (.isEvent, 0x01)) (by simp [statusQueries])
  | isAutostore => exact query_done_env0 h he (hbound rfl rfl) (p := (.isAutostore, 0x02)) (by simp [statusQueries])
  | isWrprot => exact query_done_env0 h he (hbound rfl rfl) (p := (.isWrprot, 0x1C)) (by simp [statusQueries])
  | isModified => exact query_done_env0 h he (hbound rfl rfl) (p := (.isModified, 0x80)) (by simp [statusQueries])
  | setAutostore en => exact setAutostore_done_env0 h he (hbound rfl rfl) en

end Sys2Proof.Machine
end

section
/-! Failures (spec/60_exceptions.md): the cause of a completion status (R263), and the commands whose first call is a
status read, where no chip answers it (R264). -/

namespace Sys2Proof.Machine

open Sys2Proof

/-! ### The cause of a completion status -/

/-- Every status from 4 on has the one cause of the last row of R263. -/
theorem causeOf_of_four_le {st : Byte} (h : 4 ≤ st) : causeOf st = .txOther := by
  have hne (k : Byte) (hk : k < 4) : st ≠ k := by
    rintro rfl
    exact absurd h (BitVec.not_le.mpr hk)
  rw [causeOf, if_neg (hne 0 (by decide)), if_neg (hne 1 (by decide)), if_neg (hne 2 (by decide)),
    if_neg (hne 3 (by decide))]

/-! ### A status read that times out -/

/-- The commands that are no bind and read the status (R170, R204, R205), for both values of `en`. -/
def statusReaders : List Instr :=
  [.getStatus, .isEvent, .isAutostore, .isWrprot, .isModified, .setAutostore true, .setAutostore false]

section
variable {s u : State} (hb : s.bound = true) (hread : readRequest s.regAddr s = some (false, u))
include hb hread

theorem exec_statusQuery_of_timeout {p : Instr × Byte} (hp : p ∈ statusQueries) :
    exec p.1 s = .next (fail .rspTimeout u) :=
  (exec_statusQuery_next hp).mpr ⟨hb, false, u, hread, rfl⟩

/-- SET_AUTOSTORE writes nothing back when no byte came (R205). -/
theorem execSetAutostore_of_timeout (en : Bool) : exec (.setAutostore en) s = .next (fail .rspTimeout u) :=
  whenBound_next.mpr ⟨hb, by simp [statusRead, hread]⟩

/-- Each of them ends with its status read when that times out. -/
theorem exec_statusReader_of_timeout : ∀ i ∈ statusReaders, exec i s = .next (fail .rspTimeout u) := by
  have hquery : ∀ p ∈ statusQueries, exec p.1 s = .next (fail .rspTimeout u) :=
    fun _ hp => exec_statusQuery_of_timeout hb hread hp
  simp only [statusQueries, List.forall_mem_cons] at hquery
  obtain ⟨hevent, hautostore, hwrprot, hmodified, -⟩ := hquery
  simp only [statusReaders, List.forall_mem_cons]
  exact ⟨execGetStatus_of_readRequest hb hread, hevent, hautostore, hwrprot, hmodified,
    execSetAutostore_of_timeout hb hread true, execSetAutostore_of_timeout hb hread false, by simp⟩

end

/-! ### The statements -/

/-- Settles O43: the status read times out at the 3000th poll, and no command that reads the status goes on from
there. -/
theorem absentChipReadsTimeOut : Obligations.AbsentChipReadsTimeOut := by
  rintro i hi s e hb h ⟨hv, -, -⟩ habsent
  obtain ⟨t, hread, henv, hrun⟩ := readRequest_absent_ranCalls h (.inl ⟨hv, habsent⟩)
  exact ⟨_, exec_statusReader_of_timeout hb hread i hi, rfl, rfl, congrArg Env.time henv, hrun.same.1,
    sameArrays_of_ref h henv rfl rfl, chipStatus_of_ref (e := { e with rxq := [], time := e.time + 3000 }) henv,
    hrun.issued⟩

/-- Settles O7: 1, 2 and 3 are rows of their own. -/
theorem causeOfMapsEveryStatus : Obligations.CauseOfMapsEveryStatus :=
  ⟨rfl, rfl, rfl, fun _ h => congrArg Cause.code (causeOf_of_four_le h)⟩

end Sys2Proof.Machine
end

section
/-! Waiting (spec/70_reset_and_hazards.md R316, R325): a primitive that never returns holds the block in its phase until
`reset`, in the command rules and in the phase machine alike, and STORE and RECALL answer no earlier than the delays
they wait for. -/

namespace Sys2Proof.Machine

open Sys2Proof

/-! ### Delays in an environment given by its answers -/

/-- A delay takes one answer and the time it asks for (R64). -/
theorem tDelay_scripted {n : Nat} {r : Answer} {rest : List Answer} {time : Nat} {s : State}
    (h : s.env = .scripted { answers := r :: rest, time := time }) :
    ∃ t, tDelay n s = some t ∧ t.st = s.st ∧ t.env = .scripted { answers := rest, time := time + r.dt + n } :=
  ⟨_, tDelay_some.mpr ⟨_, by rw [h]; rfl, rfl⟩, rfl, rfl⟩

/-- WRITEREG takes five answers, four for its frame and one for the settling delay of 1 ms (R172). -/
theorem writeReg_scripted {r : LogicalReg} {v : Byte} {r₁ r₂ r₃ r₄ r₅ : Answer} {rest : List Answer} {time : Nat}
    {s : State} (h : s.env = .scripted { answers := r₁ :: r₂ :: r₃ :: r₄ :: r₅ :: rest, time := time }) :
    ∃ t, writeReg r v s = some t ∧ t.wOk = statusOk r₄.status ∧
      t.env = .scripted { answers := rest, time := time + r₁.dt + r₂.dt + r₃.dt + r₄.dt + r₅.dt + 1 } := by
  obtain ⟨u, hu, hst, henv⟩ := sendFrame_scripted (f := ⟨s.regAddr, [regAddress r, v], true⟩) (rs := [r₂, r₃])
    (s := { s with wReg := regAddress r, wVal := v }) h rfl
  obtain ⟨w, hw, hkeep, hwenv⟩ := tDelay_scripted (n := cfg.tSettle) henv
  exact ⟨{ w with wOk := statusOk w.st },
    Option.bind_eq_some_iff.mpr ⟨u, hu, Option.bind_eq_some_iff.mpr ⟨w, hw, rfl⟩⟩,
    congrArg statusOk (hkeep.trans hst), hwenv⟩

/-- STORE and RECALL whose frame succeeds answer after the settling and the completion delay, counted from the return of
`T.end` (R325). -/
theorem runChipCommand_scripted {r₁ r₂ r₃ r₄ r₅ r₆ : Answer} {rest : List Answer} {time : Nat} {s : State}
    (hb : s.bound = true)
    (h : s.env = .scripted { answers := r₁ :: r₂ :: r₃ :: r₄ :: r₅ :: r₆ :: rest, time := time })
    (hst : r₄.status = 0) (c : ChipCommand) :
    ∃ t, whenBound s (runChipCommand c s) = .next t ∧ t.rspOk = true ∧
      time + r₁.dt + r₂.dt + r₃.dt + r₄.dt + (1 + commandDelay c) ≤ t.env.time := by
  obtain ⟨u, hu, hok, henv⟩ := writeReg_scripted (r := .command) (v := commandByte c) h
  obtain ⟨w, hw, -, hwenv⟩ := tDelay_scripted (n := commandDelay c) henv
  have hwok : u.wOk = true := by rw [hok, hst]; rfl
  have hrun : runChipCommand c s = some (succeed true w) := by simp [runChipCommand, hu, hwok, hw]
  refine ⟨_, whenBound_next.mpr ⟨hb, hrun⟩, rfl, ?_⟩
  simp only [succeed_eq, respond_env, hwenv, Env.time]
  omega

/-! ### A primitive that never returns -/

/-- A phase that issues a primitive hangs where the primitive does, whatever is done with what it returns (R220,
R316). -/
theorem leaveBy_map_hangs {α : Type} {o : Option α} {f g : α → State} {nx nx' : State → Option State}
    (h : leaveBy (o.map f) nx = .fault .primitiveNeverReturns) :
    leaveBy (o.map g) nx' = .fault .primitiveNeverReturns := by
  cases o with
  | none => rfl
  | some a => cases hnx : nx (f a) <;> simp [leaveBy, hnx] at h

/-- `s` with other samples to come. -/
def withHost (l : List HostIn) (s : State) : State := { s with host := l }

theorem frameOf_withHost (i : Instr) (l : List HostIn) (s : State) : frameOf i (withHost l s) = frameOf i s := by
  cases i <;> rfl

theorem deviceMap_withHost (i : Instr) (l : List HostIn) (s : State) : deviceMap i (withHost l s) = deviceMap i s := by
  cases i <;> rfl

/-- A byte of the frame that hangs does so whatever samples are to come and whatever phase would be next. -/
theorem sendByte_hangs_withHost {i : Instr} {k : Nat} {p q : Phase} {s : State} (l : List HostIn)
    (h : sendByte i k p s = .fault .primitiveNeverReturns) :
    sendByte i k q (withHost l s) = .fault .primitiveNeverReturns := by
  unfold sendByte at h ⊢
  rw [frameOf_withHost]
  split at h
  · exact leaveBy_map_hangs h
  · exact nomatch h

/-- The work of RX_REQ as its two calls on the environment alone, and what is made of their answers (R229). -/
theorem requestThenNow_eq_map (dev : DevAddr) (s : State) :
    ((tRequest dev 1 s).bind fun s => (tNow s).map fun r => { r.2 with t0 := r.1 }) =
      ((s.env.request dev 1).bind fun e => e.now.map fun r => (e, r)).map fun r =>
        { (s.note (.request dev 1) r.1).note (.now r.2.1) r.2.2 with t0 := r.2.1 } := by
  simp only [tRequest, tNow, Option.bind_map, Option.map_bind, Function.comp_def, Option.map_map]
  rfl

/-- Which call a phase issues and whether it returns does not depend on the samples to come (R221). -/
theorem runPhase_hangs_withHost {i : Instr} {s : State} (l : List HostIn)
    (h : runPhase i s = .fault .primitiveNeverReturns) :
    runPhase i (withHost l s) = .fault .primitiveNeverReturns := by
  have hphase : (withHost l s).phase = s.phase := rfl
  unfold runPhase at h ⊢
  rw [hphase, frameOf_withHost, deviceMap_withHost]
  cases hp : s.phase with
  | idle | modify | done => simp [hp] at h
  | bindWr =>
    simp only [hp] at h
    cases hb : bindWrite i s <;> simp [leaveBy, hb] at h
  | tInit | rxRead =>
    simp only [hp] at h ⊢
    exact leaveBy_map_hangs h
  | txB0 | txB1 | txB2 =>
    simp only [hp] at h ⊢
    exact sendByte_hangs_withHost l h
  | txBegin | txEnd | cmdWait | rxReq =>
    simp only [hp, requestThenNow_eq_map] at h ⊢
    split at h
    · exact leaveBy_map_hangs h
    · exact nomatch h
  | settle | rxPoll | rxTime =>
    simp only [hp, tDelay, tAvailable, tNow, Option.map_map] at h ⊢
    exact leaveBy_map_hangs h

/-- A block that is stuck stays so whatever samples are to come (R316). -/
theorem Stuck.withHost {s : State} (h : Stuck s) (l : List HostIn) : Stuck (withHost l s) := by
  obtain ⟨hc, hstep⟩ := h
  refine ⟨hc, ?_⟩
  have hon : onPath (latched s) s.phase = true := by
    by_contra hoff
    simp [seqStep, hoff] at hstep
  rw [seqStep, if_pos hon] at hstep
  exact (if_pos hon).trans (runPhase_hangs_withHost l hstep)

/-- A stuck block waits in its phase (R316). -/
theorem Stuck.progress_eq {s : State} (h : Stuck s) : progress s = .next s := by
  rw [progress, h.2]

/-! ### The statements -/

/-- Settles O55: the first tick dispatches the command, and the ticks after it follow its operations to the call that
never returns. -/
theorem ticksWaitWhereCommandHangs : Obligations.TicksWaitWhereCommandHangs := by
  intro s h hp hs hr
  cases hv : h.cmdValid with
  | true =>
    have hfollows := tick_follows_step hp hs hr hv
    constructor
    · intro f hstep
      rw [hstep] at hfollows
      obtain ⟨hf, u, htick, v, hreach, hstuck, hwaits⟩ := hfollows
      obtain ⟨n, hn⟩ := Reaches.step htick hreach
      exact ⟨hf, n, v, hn, hstuck, hwaits⟩
    · intro r hstep
      rwa [hstep] at hfollows
  | false =>
    have hidle : ({ s with host := [] } : State).phase = .idle := hp
    rw [step_eq_onSample hs, onSample_idle _ hidle hr hv]
    exact ⟨nofun, nofun⟩

/-- Settles O36: both delays follow `T.end`, and each takes at least the time it asks for. -/
theorem storeAndRecallBlockForTheirDelay : Obligations.StoreAndRecallBlockForTheirDelay :=
  fun _ _ _ _ _ _ _ _ _ hb h hst =>
    ⟨runChipCommand_scripted hb h hst .store, runChipCommand_scripted hb h hst .recallArray⟩

/-- Settles O56: a call that does not return depends on no input of the block, and `reset` comes before the phase. That
the state is unchanged also in RX_REQ, where `T.request` may have returned, is the model's choice (log 34). -/
theorem stuckBlockRecoversByReset : Obligations.StuckBlockRecoversByReset := by
  intro s h rest hstuck hs
  rw [tick_eq_onSample hs]
  refine ⟨fun hr => ?_, fun hr => ⟨_, onSample_reset _ _ hr, rfl, rfl⟩⟩
  have hwaits := hstuck.withHost rest
  exact (onSample_inCommand _ h _ hr hwaits.1).trans hwaits.progress_eq

end Sys2Proof.Machine
end
